-- ==== Sys2Proof/Word.lean ====
section
/-! DEFINITION. The word of the GPIO sequencer controller (GSC). Every register is an unsigned 32-bit word with bit 0
least significant (00_scope.md R15); bit k of a pin bitmask stands for hardware pin k (30_encoding.md R90). -/

namespace Sys2Proof

/-- A 32-bit register value (00_scope.md R15). -/
abbrev Word := BitVec 32

/-- An 8-bit channel intensity or operand sub-field (30_encoding.md R92, R96). -/
abbrev Byte := BitVec 8

/-- A pin bitmask: bit k stands for hardware pin k (30_encoding.md R90). Kept apart from a pin index, which is a
`PinIndex` (70_reset_and_hazards.md R297). -/
abbrev PinMask := BitVec 32

/-- A pin index, "an absolute pin index (0–27)" (00_scope.md R10). -/
abbrev PinIndex := Fin 28

end Sys2Proof
end

