-- ==== Sys2Proof/Config.lean ====
section
/-! DEFINITION. What is fixed for the machine: the constants the spec gives (00_scope.md R5 to R9, R13), the shape of
the OPEN parameters of one platform (R9 to R12; 44_system.md, PRIVILEGED and MAP_OK), and the free values, which the
spec calls draws. A free value is an `opaque` constant without a body: no proof can see it. -/

namespace Sys2Proof

namespace Config

/-- ROWS, panel rows (00_scope.md R5). -/
abbrev rows : Nat := 16

/-- COLS, panel columns (00_scope.md R5). -/
abbrev cols : Nat := 32

/-- DOUBLE_ROWS = ROWS / SUB_PANELS (00_scope.md R5). -/
abbrev doubleRows : Nat := 8

/-- COLOR_DEPTH, the number of bitplanes (00_scope.md R6, decision D2). -/
abbrev colorDepth : Nat := 8

/-- BASE_DWELL, in nanoseconds (00_scope.md R7, decision D3). -/
abbrev baseDwell : Nat := 1000

/-- NS_PER_TICK: the counter runs at 1 MHz (00_scope.md R8). -/
abbrev nsPerTick : Nat := 1000

/-- COUNTER_MAX, the value after which the counter shows 0 (00_scope.md R8). -/
abbrev counterMax : Nat := 0xFFFFFFFF

/-- WINDOW_WORDS: a window is 4096 bytes, 1024 words (00_scope.md R9). -/
abbrev windowWords : Nat := 1024

/-- SET_WORD, the set-register's word index (00_scope.md R9). -/
abbrev setWord : Nat := 7

/-- CLR_WORD, the clear-register's word index (00_scope.md R9). -/
abbrev clrWord : Nat := 10

/-- LEV_WORD, the level-register's word index (00_scope.md R9). -/
abbrev levWord : Nat := 13

/-- FSEL_OUTPUT, the function-select code of an output pin (00_scope.md R9). -/
abbrev fselOutput : BitVec 3 := 0b001#3

/-- SCROLL_PERIOD, 10 ms counted in ticks (00_scope.md R13, decision D17). -/
abbrev scrollPeriodTicks : Nat := 10000

/-- BUSY_ONLY_NS (00_scope.md R12). -/
abbrev busyOnlyNs : Nat := 20

/-- PHYS_BASE, an OPEN platform address that no rule can observe (00_scope.md R9, 20_memory.md R69). -/
opaque physBase : Nat

/-- GPIO_OFFSET, OPEN and unobservable (00_scope.md R9, 20_memory.md R69). -/
opaque gpioOffset : Nat

/-- TIMER_OFFSET, OPEN and unobservable (00_scope.md R9, 20_memory.md R69). -/
opaque timerOffset : Nat

/-- FREE VALUE (10_state.md R40, log entry 4): by how many ticks the counter advances before an access, for the draw
numbered by the argument, where the state's own script of draws is used up. -/
opaque freeTick : Nat → Nat

/-- FREE VALUE (41_timer.md R144, log entry 4): how many ticks a coarse sleep really lasts. -/
opaque freeCoarse : Nat → Nat

/-- FREE VALUE (10_state.md R37, log entry 4): the levels the environment shows on pins that are not outputs and on
bits 28 to 31. -/
opaque freeLevels : Nat → BitVec 32

/-- FREE VALUE (41_timer.md R145, log entry 5): how many reads of a busy-wait may come before the read that ends it. -/
opaque freeWaitReads : Nat → Nat

/-- FREE VALUE (10_state.md R40, log entry 5): how far past its target the reading lies that ends a busy-wait by the
counter's fairness. -/
opaque freeOvershoot : Nat → Nat

end Config

/-- The pin assignment table, OPEN: one pin per role (00_scope.md R11, decision D4). -/
structure PinTable where
  oe  : PinIndex
  clk : PinIndex
  lat : PinIndex
  a   : PinIndex
  b   : PinIndex
  c   : PinIndex
  d   : PinIndex
  e   : PinIndex
  r1  : PinIndex
  g1  : PinIndex
  b1  : PinIndex
  r2  : PinIndex
  g2  : PinIndex
  b2  : PinIndex
  deriving DecidableEq, Repr

/-- The fourteen role pins in the table's order (00_scope.md R11). -/
def PinTable.roles (p : PinTable) : List PinIndex :=
  [p.oe, p.clk, p.lat, p.a, p.b, p.c, p.d, p.e, p.r1, p.g1, p.b1, p.r2, p.g2, p.b2]

/-- "role bitmasks are pairwise disjoint": the fourteen pins are pairwise different (00_scope.md R11). -/
def PinTable.disjoint (p : PinTable) : Bool := p.roles.Nodup

/-- The OPEN parameters of one platform and the run parameters of the environment, as plain data: the model takes them
as an argument (00_scope.md R9 to R12; 44_system.md; log entry 2). They never change during a run. -/
structure Platform where
  /-- The pin assignment table (R11). -/
  pins : PinTable
  /-- VALID_PINS (R10). -/
  validPins : PinMask
  /-- TIMER_WORD, the counter's word index in its window (R9). -/
  timerWord : Nat
  /-- SLEEP_THRESHOLD_NS (R12). -/
  sleepThresholdNs : Nat
  /-- JITTER_ALLOWANCE_NS (R12). -/
  jitterAllowanceNs : Nat
  /-- PRIVILEGED: may the caller open the physical-memory device (44_system.md, R260). -/
  privileged : Bool
  /-- MAP_OK(0), for the GPIO window (44_system.md R220). -/
  mapOkGpio : Bool
  /-- MAP_OK(1), for the TIMER window (44_system.md R220). -/
  mapOkTimer : Bool
  deriving DecidableEq, Repr

/-- The constraints of 00_scope.md R9 to R12 on the OPEN parameters, except that the role pins lie in VALID_PINS: that
one is `Platform.rolesValid`, kept apart so that the configuration fault stays reachable (decision D5, log entry 2). -/
def Platform.wf (p : Platform) : Bool :=
  p.pins.disjoint && decide (p.validPins &&& ~~~(0x0FFFFFFF#32) = 0) && decide (p.timerWord < Config.windowWords)
    && decide (p.jitterAllowanceNs ≤ p.sleepThresholdNs) && decide (Config.busyOnlyNs ≤ p.sleepThresholdNs)

/-- Every role pin is a valid pin (00_scope.md R10). -/
def Platform.rolesValid (p : Platform) : Bool := p.pins.roles.all fun k => p.validPins.getLsbD k.val

/-- EX_PINS, the example table of 95_test_vectors.md section 1: an example, not a fact about the hardware. -/
def PinTable.exPins : PinTable :=
  { oe := 4, clk := 17, lat := 21, a := 22, b := 26, c := 27, d := 20, e := 24,
    r1 := 5, g1 := 13, b1 := 6, r2 := 12, g2 := 16, b2 := 23 }

/-- The parameters the worked examples of 95_test_vectors.md use; TIMER_WORD, to which they give no number, is 1
(log entry 2: DESIGN CHOICE). -/
def Platform.exPlatform : Platform :=
  { pins := PinTable.exPins, validPins := 0x0FFFFFFF#32, timerWord := 1, sleepThresholdNs := 65000,
    jitterAllowanceNs := 60000, privileged := true, mapOkGpio := true, mapOkTimer := true }

end Sys2Proof
end

