-- ==== Sys2Proof/Syntax.lean ====
section
/-! DEFINITION. The operations of the GSC: one constructor per row of the operation table (30_encoding.md R100), with
operands as 30_encoding.md R96 assembles them. -/

namespace Sys2Proof

/-- The two register windows (20_memory.md R60). -/
inductive Window where
  | gpio
  | timer
  deriving DecidableEq, Repr

/-- A pixel: three unsigned 8-bit channels (30_encoding.md R92, 10_state.md R43). -/
structure Pixel where
  r : Byte
  g : Byte
  b : Byte
  deriving DecidableEq, Repr

/-- The black pixel. -/
def Pixel.black : Pixel := { r := 0, g := 0, b := 0 }

/-- The pin-number operand of CFGOUT1 as the record carries it. It is a type of its own, distinct from a pin bitmask
(70_reset_and_hazards.md R297); whether it names a pin (0 to 27) is checked when the operation runs, after the mode
(60_exceptions.md R249 (a)). -/
structure PinOperand where
  raw : BitVec 32
  deriving DecidableEq, Repr

/-- The 25 operations (30_encoding.md R100). -/
inductive Instr where
  /-- MAPOPEN w (44_system.md R220) -/
  | mapopen (w : Window)
  /-- MAPCLOSE w (44_system.md R221) -/
  | mapclose (w : Window)
  /-- INIT slowdown (44_system.md R222) -/
  | init (slowdown : Word)
  /-- TINIT (44_system.md R223) -/
  | tinit
  /-- TEARDOWN (44_system.md R224) -/
  | teardown
  /-- RUN scroll_en (43_sequencer.md R189) -/
  | run (scrollEn : Bool)
  /-- CFGOUT1 pin (40_gpio.md R120) -/
  | cfgout1 (pin : PinOperand)
  /-- CFGOUTS mask (40_gpio.md R121) -/
  | cfgouts (mask : PinMask)
  /-- SET mask (40_gpio.md R122) -/
  | set (mask : PinMask)
  /-- CLR mask (40_gpio.md R123) -/
  | clr (mask : PinMask)
  /-- WRM value, mask (40_gpio.md R124) -/
  | wrm (value mask : PinMask)
  /-- ROWADDR dr (40_gpio.md R126) -/
  | rowaddr (dr : Word)
  /-- RDLEV (40_gpio.md R127) -/
  | rdlev
  /-- TREAD (41_timer.md R140) -/
  | tread
  /-- SLEEPNS n (41_timer.md R143) -/
  | sleepns (n : Word)
  /-- ADVANCE (42_frame.md R160) -/
  | advance
  /-- PLANEBITS top, plane, bottom (42_frame.md R162) -/
  | planebits (top : Pixel) (plane : Byte) (bottom : Pixel)
  /-- CLRCC (43_sequencer.md R181) -/
  | clrcc
  /-- SHIFTCOL dr, pl, col (43_sequencer.md R182) -/
  | shiftcol (dr : Word) (pl col : Byte)
  /-- ADDR dr (43_sequencer.md R183) -/
  | addr (dr : Word)
  /-- LATCH (43_sequencer.md R184) -/
  | latch
  /-- DWELL pl (43_sequencer.md R185) -/
  | dwell (pl : Word)
  /-- ROWPLANE dr, pl (43_sequencer.md R186) -/
  | rowplane (dr pl : Word)
  /-- SWEEP (43_sequencer.md R187) -/
  | sweep
  /-- SCROLLCHK (43_sequencer.md R188) -/
  | scrollchk
  deriving DecidableEq, Repr

end Sys2Proof
end

