-- ==== Sys2Proof/WellFormed.lean ====
section
/-! DEFINITION. When an operation's operands are in the ranges its rule gives. An operation with an operand out of range
still has an encoding: it decodes, and is refused when it runs, after the mode check (60_exceptions.md R249 (a)). -/

namespace Sys2Proof

/-- The operand ranges: CFGOUT1's pin is at most 27 (40_gpio.md R120); SHIFTCOL, DWELL and ROWPLANE need dr and pl at
most 7 and col at most 31 (43_sequencer.md R182, R185, R186). Every other operand is used whole or is ranged by its
type (30_encoding.md R96). -/
def Instr.wellFormed : Instr → Bool
  | .cfgout1 pin => decide (pin.raw.toNat < 28)
  | .shiftcol dr pl col => decide (dr.toNat < 8) && decide (pl.toNat < 8) && decide (col.toNat < 32)
  | .dwell pl => decide (pl.toNat < 8)
  | .rowplane dr pl => decide (dr.toNat < 8) && decide (pl.toNat < 8)
  | .mapopen _ => true
  | .mapclose _ => true
  | .init _ => true
  | .tinit => true
  | .teardown => true
  | .run _ => true
  | .cfgouts _ => true
  | .set _ => true
  | .clr _ => true
  | .wrm _ _ => true
  | .rowaddr _ => true
  | .rdlev => true
  | .tread => true
  | .sleepns _ => true
  | .advance => true
  | .planebits _ _ _ => true
  | .clrcc => true
  | .addr _ => true
  | .latch => true
  | .sweep => true
  | .scrollchk => true

end Sys2Proof
end

