-- ==== Sys2Proof/Decode.lean ====
section
/-! DEFINITION. The 72-bit command record (30_encoding.md R95 to R98): the decoder, total on every record and rejecting
by name, and after it the encoder, written from the same table (R100). -/

namespace Sys2Proof

/-- A command record: op in bits 71:64, a in bits 63:32, b in bits 31:0 (30_encoding.md R95). -/
abbrev Record := BitVec 72

/-- Why a record is an illegal command; each is `refuse(IllegalCommand)` (60_exceptions.md R248). -/
inductive DecodeError where
  /-- The opcode is not in the operation table (30_encoding.md R98). -/
  | illegalOpcode
  /-- A reserved field is not zero (30_encoding.md R97). -/
  | reservedField
  /-- The window operand of MAPOPEN or MAPCLOSE is neither 0 nor 1 (44_system.md R220, R221). -/
  | illegalWindow
  deriving DecidableEq, Repr

/-- The op field (R95). -/
def Record.op (r : Record) : BitVec 8 := r.extractLsb' 64 8

/-- The a field (R95). -/
def Record.a (r : Record) : Word := r.extractLsb' 32 32

/-- The b field (R95). -/
def Record.b (r : Record) : Word := r.extractLsb' 0 32

/-- A record from its three fields (R95). -/
def Record.pack (op : BitVec 8) (a b : Word) : Record := (op ++ a ++ b : BitVec (8 + 32 + 32))

/-- A pixel packed as r in bits 23:16, g in bits 15:8, b in bits 7:0 (R92). -/
def Pixel.ofBits (w : Word) : Pixel :=
  { r := w.extractLsb' 16 8, g := w.extractLsb' 8 8, b := w.extractLsb' 0 8 }

/-- The 24 bits of a packed pixel (R92). -/
def Pixel.bits (p : Pixel) : BitVec 24 := (p.r ++ p.g ++ p.b : BitVec (8 + 8 + 8))

/-- Accept an operation whose reserved bits are all zero (R97). -/
def reservedZero {w : Nat} (bits : BitVec w) (i : Instr) : Except DecodeError Instr :=
  if bits = 0 then .ok i else .error .reservedField

/-- The window operand: 0 is GPIO, 1 is TIMER, anything else is an illegal command (44_system.md R220). -/
def windowOperand (a : Word) : Except DecodeError Window :=
  if a = 0 then .ok .gpio else if a = 1 then .ok .timer else .error .illegalWindow

/-- An operation on a window: the reserved field b, then the window operand. -/
def windowInstr (a b : Word) (mk : Window → Instr) : Except DecodeError Instr :=
  match windowOperand a with
  | .error e => .error e
  | .ok w => reservedZero b (mk w)

/-- The decoder (30_encoding.md R96 to R98, R100): total, rejecting by name. -/
def decode (r : Record) : Except DecodeError Instr :=
  match r.op with
  | 0x01#8 => windowInstr r.a r.b .mapopen
  | 0x02#8 => windowInstr r.a r.b .mapclose
  | 0x03#8 => reservedZero r.b (.init r.a)
  | 0x04#8 => reservedZero (r.a ++ r.b) .tinit
  | 0x05#8 => reservedZero (r.a ++ r.b) .teardown
  | 0x06#8 => reservedZero (r.a.extractLsb' 1 31 ++ r.b) (.run (r.a.getLsbD 0))
  | 0x10#8 => reservedZero r.b (.cfgout1 ⟨r.a⟩)
  | 0x11#8 => reservedZero r.b (.cfgouts r.a)
  | 0x12#8 => reservedZero r.b (.set r.a)
  | 0x13#8 => reservedZero r.b (.clr r.a)
  | 0x14#8 => .ok (.wrm r.a r.b)
  | 0x15#8 => reservedZero r.b (.rowaddr r.a)
  | 0x16#8 => reservedZero (r.a ++ r.b) .rdlev
  | 0x20#8 => reservedZero (r.a ++ r.b) .tread
  | 0x21#8 => reservedZero r.b (.sleepns r.a)
  | 0x30#8 => reservedZero (r.a ++ r.b) .advance
  | 0x31#8 => reservedZero (r.a.extractLsb' 24 8)
      (.planebits (Pixel.ofBits r.a) (r.b.extractLsb' 24 8) (Pixel.ofBits r.b))
  | 0x40#8 => reservedZero (r.a ++ r.b) .clrcc
  | 0x41#8 => reservedZero (r.b.extractLsb' 16 16) (.shiftcol r.a (r.b.extractLsb' 8 8) (r.b.extractLsb' 0 8))
  | 0x42#8 => reservedZero r.b (.addr r.a)
  | 0x43#8 => reservedZero (r.a ++ r.b) .latch
  | 0x44#8 => reservedZero r.b (.dwell r.a)
  | 0x45#8 => .ok (.rowplane r.a r.b)
  | 0x46#8 => reservedZero (r.a ++ r.b) .sweep
  | 0x47#8 => reservedZero (r.a ++ r.b) .scrollchk
  | _ => .error .illegalOpcode

/-- The window's operand value (44_system.md R220). -/
def Window.code : Window → Word
  | .gpio => 0
  | .timer => 1

/-- A pixel operand: the packed pixel under eight bits given by the caller (R96). -/
def pixelWord (high : Byte) (p : Pixel) : Word := (high ++ p.bits : BitVec (8 + 24))

/-- The encoder: the record of an operation (30_encoding.md R96, R100). -/
def encode : Instr → Record
  | .mapopen w => Record.pack 0x01#8 w.code 0
  | .mapclose w => Record.pack 0x02#8 w.code 0
  | .init slowdown => Record.pack 0x03#8 slowdown 0
  | .tinit => Record.pack 0x04#8 0 0
  | .teardown => Record.pack 0x05#8 0 0
  | .run scrollEn => Record.pack 0x06#8 (if scrollEn then 1 else 0) 0
  | .cfgout1 pin => Record.pack 0x10#8 pin.raw 0
  | .cfgouts mask => Record.pack 0x11#8 mask 0
  | .set mask => Record.pack 0x12#8 mask 0
  | .clr mask => Record.pack 0x13#8 mask 0
  | .wrm value mask => Record.pack 0x14#8 value mask
  | .rowaddr dr => Record.pack 0x15#8 dr 0
  | .rdlev => Record.pack 0x16#8 0 0
  | .tread => Record.pack 0x20#8 0 0
  | .sleepns n => Record.pack 0x21#8 n 0
  | .advance => Record.pack 0x30#8 0 0
  | .planebits top plane bottom => Record.pack 0x31#8 (pixelWord 0 top) (pixelWord plane bottom)
  | .clrcc => Record.pack 0x40#8 0 0
  | .shiftcol dr pl col => Record.pack 0x41#8 dr ((0#16 ++ pl ++ col : BitVec (16 + 8 + 8)))
  | .addr dr => Record.pack 0x42#8 dr 0
  | .latch => Record.pack 0x43#8 0 0
  | .dwell pl => Record.pack 0x44#8 pl 0
  | .rowplane dr pl => Record.pack 0x45#8 dr pl
  | .sweep => Record.pack 0x46#8 0 0
  | .scrollchk => Record.pack 0x47#8 0 0

/-- The record whose bits, numbered as spec/opcode_table.json numbers them, are the low `nbits` bits of `w`. A record is
one 72-bit number, so bit 0 is the least significant bit of b (log entry 17). -/
def recordOfTableWord (nbits w : Nat) : Record := BitVec.ofNat 72 (w % 2 ^ nbits)

/-- The operation the decoder reads from a table word; none where it refuses. -/
def decodeTableWord (nbits w : Nat) : Option Instr :=
  if nbits ≤ 72 then
    match decode (recordOfTableWord nbits w) with
    | .ok i => some i
    | .error _ => none
  else none

end Sys2Proof
end

