-- ==== Sys2Proof/Machine/State.lean ====
section
/-! DEFINITION. The state of the GSC (10_state.md): everything the spec gives the machine, as plain data, with the
machine's reasons to stop and the state after reset (R49, R281). -/

namespace Sys2Proof.Machine

/-- No step of this machine ends in a machine fault: the spec's three faults have an entry the spec describes, and are
next states in MODE = Faulted (60_exceptions.md R246; log entry 6); nothing is stuck (93_implementation_defined.md,
section 1). -/
inductive Fault where
  deriving DecidableEq, Repr

/-- `refuse(reason)`: a case outside the GSC's contract, to which the spec gives no meaning (60_exceptions.md R248).
Every one is safe: a refused operation has no next state. -/
inductive Refusal where
  /-- An arm of exec without a meaning; raised by exec alone. Safe. -/
  | notModelled (mnemonic : String)
  /-- IllegalCommand: the record does not decode; raised by step (30_encoding.md R97, R98). Safe. -/
  | illegalCommand
  /-- WrongState: an operation outside the states of 30_encoding.md R102; raised by every meaning, and by a step from
  a state no run reaches, whose phase does not fit its MODE (log entry 9). Safe. -/
  | wrongState
  /-- PinIndexOutOfRange: CFGOUT1 above 27 (40_gpio.md R120). Safe. -/
  | pinIndexOutOfRange
  /-- IndexOutOfRange: SHIFTCOL, DWELL, ROWPLANE (43_sequencer.md R182, R185, R186). Safe. -/
  | indexOutOfRange
  /-- An access to, or a sequencer operation without, a window that is not Mapped (20_memory.md R82, 44_system.md R221);
  raised by the accesses and by SCROLLCHK and RUN. Safe. -/
  | windowNotMapped (w : Window)
  /-- A word of a window the document does not describe (10_state.md R38, R41); raised by the accesses. Safe. -/
  | undescribedWord (w : Window) (word : Nat)
  /-- A read of the set- or clear-register (10_state.md R33, R34); raised by the accesses. Safe. -/
  | readOfWriteOnly (word : Nat)
  /-- A write of the level-register or the counter (10_state.md R35, R41); raised by the accesses. Safe. -/
  | writeOfReadOnly (w : Window) (word : Nat)
  /-- The source image present is too small or ill-formed, or a scroll step is due with none (42_frame.md R160,
  60_exceptions.md R248; log entry 12); raised by ADVANCE and by the scroll step. Safe. -/
  | noUsableSource
  /-- The host supplies a source image that would leave the scroll cursor out of range (10_state.md R44; log entry 11);
  raised by step. Safe. -/
  | sourceRejected
  deriving DecidableEq, Repr

/-- MODE (10_state.md R27). -/
inductive Mode where
  | reset
  | ready
  | running
  | stopped
  | faulted
  deriving DecidableEq, Repr

/-- STEP, the current step of the row-plane sequence, 1 to 6 (10_state.md R28, 43_sequencer.md R186). -/
inductive SeqStep where
  /-- step 1, CLRCC -/
  | clearBefore
  /-- step 2, the 32 SHIFTCOLs -/
  | shift
  /-- step 3, CLRCC -/
  | clearAfter
  /-- step 4, ADDR -/
  | address
  /-- step 5, LATCH -/
  | latch
  /-- step 6, DWELL -/
  | dwell
  deriving DecidableEq, Repr

/-- POS = (DR, PL, COL, STEP), the sequencer position (10_state.md R28). -/
structure Pos where
  dr : Fin 8
  pl : Fin 8
  col : Fin 32
  step : SeqStep
  deriving DecidableEq, Repr

/-- (0, 0, 0, 1), the position at reset and at the start of every sweep (10_state.md R28, 43_sequencer.md R191). -/
def Pos.start : Pos := { dr := 0, pl := 0, col := 0, step := .clearBefore }

/-- A register access or coarse sleep the controller has still to make (92_eei_decisions.md D36). -/
inductive Access where
  /-- a write of a mask to the set-register, with `left` identical ones after it (40_gpio.md R122) -/
  | set (mask : PinMask) (left : Nat)
  /-- a write of a mask to the clear-register, with `left` identical ones after it (40_gpio.md R123) -/
  | clear (mask : PinMask) (left : Nat)
  /-- the read half of configure_as_output (40_gpio.md R120) -/
  | configure (k : PinIndex)
  /-- its write half, with the word just read -/
  | configureWrite (k : PinIndex) (old : Word)
  /-- sleep_nanos(n), n above the threshold: the reading before the coarse sleep (41_timer.md R143) -/
  | sleepPre (n : Nat)
  /-- the coarse sleep itself (41_timer.md R144) -/
  | coarse (n : Nat) (pre : Word)
  /-- the reading after it -/
  | sleepPost (n : Nat) (pre : Word)
  /-- the first reading of a busy-wait (41_timer.md R145) -/
  | waitStart (target : Nat)
  /-- its next reading; fuel: how many readings may come before fairness ends the wait (log entry 5) -/
  | wait (start : Word) (target fuel : Nat)
  deriving DecidableEq, Repr

/-- What the accesses under way belong to, and so what their last one completes. -/
inductive Task where
  /-- a command that ends with its last access -/
  | plain
  /-- CFGOUTS, newly configuring the pins of m (40_gpio.md R121) -/
  | outputs (m : PinMask)
  /-- INIT, configuring the pins of m (44_system.md R222) -/
  | init (m : PinMask)
  /-- the micro-operation at POS of a ROWPLANE command (43_sequencer.md R186) -/
  | rowPlane
  /-- the micro-operation at POS of a sweep, SWEEP's or RUN's (43_sequencer.md R187) -/
  | sweep
  /-- stop entry, the exit action set(OE) (43_sequencer.md R190) -/
  | stop
  deriving DecidableEq, Repr

/-- The model's own: where the controller is between two steps, since a step makes one access (log entries 1 and 9). -/
inductive Phase where
  /-- no operation is under way -/
  | idle
  /-- RUN's loop, at the test of STOP_REQ (43_sequencer.md R189) -/
  | poll
  /-- the scroll step, before its counter read (43_sequencer.md R188) -/
  | scroll
  /-- the scroll step, before the scroll load that the reading `now` has made due -/
  | load (now : Word)
  /-- inside an operation: its next access, and those already known to follow -/
  | busy (task : Task) (next : Access) (rest : List Access)
  deriving DecidableEq, Repr

/-- ERR, the recorded fatal error (10_state.md R29). -/
inductive ErrCode where
  | none
  | privilegeError
  | mapError
  | configurationInvariantViolation
  deriving DecidableEq, Repr

/-- GMAP and TMAP, the state of a mapping (10_state.md R42). -/
inductive Handle where
  | unmapped
  | mapped
  | released
  deriving DecidableEq, Repr

/-- What the controller does on its windows, in order: the trace the spec writes `W7 v`, `W10 v`, `RDn`, `WRn v`, `T -> v`
(95_test_vectors.md), and the coarse sleep, during which it makes no access (41_timer.md R144). The model's own record
(log entry 7). -/
inductive BusEvent where
  | read (w : Window) (word : Nat) (value : Word)
  | write (w : Window) (word : Nat) (value : Word)
  | coarseSleep (ns : Nat)
  deriving DecidableEq, Repr

/-- One 6-bit value `r1 g1 b1 r2 g2 b2` (43_sequencer.md R200). -/
structure SixLines where
  r1 : Bool
  g1 : Bool
  b1 : Bool
  r2 : Bool
  g2 : Bool
  b2 : Bool
  deriving DecidableEq, Repr

/-- Six dark lines. -/
def SixLines.dark : SixLines := { r1 := false, g1 := false, b1 := false, r2 := false, g2 := false, b2 := false }

/-- The informative panel observer (43_sequencer.md R200; log entry 16). -/
structure Panel where
  /-- SHIFT[0 .. 32] -/
  shift : Vector SixLines 32
  /-- LATCHED[0 .. 32] -/
  latched : Vector SixLines 32
  /-- LATCHED_ADDR, bit i from the i-th address line A to E in ROW_MASK (R202) -/
  latchedAddr : BitVec 5
  deriving DecidableEq, Repr

/-- The observer with every entry dark. -/
def Panel.blank : Panel :=
  { shift := Vector.replicate 32 SixLines.dark, latched := Vector.replicate 32 SixLines.dark, latchedAddr := 0 }

/-- FRAME: 16 rows of 32 pixels (10_state.md R43); the dimensions are in the type. -/
abbrev FrameGrid := Vector (Vector Pixel 32) 16

/-- An all-black frame. -/
def FrameGrid.black : FrameGrid := Vector.replicate 16 (Vector.replicate 32 Pixel.black)

/-- SRC with SRC_W and SRC_H (10_state.md R45): a grid of pixels, row by row. -/
structure SourceImage where
  width : Nat
  height : Nat
  rows : List (List Pixel)
  deriving DecidableEq, Repr

/-- The environment's choices that a run has not used yet, in the order they will be used: the counter's advance before
each access (10_state.md R40), the lengths of coarse sleeps in ticks (41_timer.md R144), the levels of pins that are not
outputs (10_state.md R37). Where a list is used up, the free values of Config take over (log entry 4). -/
structure Env where
  ticks : List Nat
  coarse : List Nat
  levels : List Word
  deriving DecidableEq, Repr

/-- Nothing scripted: every draw is a free value. -/
def Env.unscripted : Env := { ticks := [], coarse := [], levels := [] }

/-- What the host hands the idle controller, one at a time (60_exceptions.md R262). -/
inductive HostInput where
  /-- a command record -/
  | command (r : Record)
  /-- the source image -/
  | source (img : SourceImage)
  deriving DecidableEq, Repr

/-- The state of the machine (10_state.md). -/
structure State where
  /-- the platform's OPEN and run parameters (00_scope.md R9 to R12), constant -/
  platform : Platform
  /-- OUT_BITS (R21) -/
  outBits : PinMask
  /-- IN_BITS (R22) -/
  inBits : PinMask
  /-- SLOWDOWN (R23) -/
  slowdown : Word
  /-- RES (R24) -/
  res : Word
  /-- ROW_MASK (R25) -/
  rowMask : PinMask
  /-- TIMING[0 .. COLOR_DEPTH], nanoseconds (R26) -/
  timing : Vector Word 8
  /-- MODE (R27) -/
  mode : Mode
  /-- POS (R28) -/
  pos : Pos
  /-- the model's own: the place inside an operation (log entry 9) -/
  phase : Phase
  /-- STOP_REQ (R29, 60_exceptions.md R251) -/
  stopReq : Bool
  /-- SCROLL_EN (R29) -/
  scrollEn : Bool
  /-- ERR (R29) -/
  err : ErrCode
  /-- FSEL0, FSEL1, FSEL2 (R31) -/
  fsel : Vector Word 3
  /-- OUTLATCH (R36) -/
  outlatch : Word
  /-- CNT (R39) -/
  cnt : Word
  /-- GMAP (R42) -/
  gmap : Handle
  /-- TMAP (R42) -/
  tmap : Handle
  /-- FRAME (R43) -/
  frame : FrameGrid
  /-- CURSOR (R44), a count with no width of its own -/
  cursor : Nat
  /-- SRC, SRC_W, SRC_H (R45), where the host has supplied an image -/
  src : Option SourceImage
  /-- LAST_SCROLL (R46) -/
  lastScroll : Word
  /-- the informative panel observer (43_sequencer.md R200) -/
  panel : Panel
  /-- the model's own: every window access and coarse sleep so far, newest first (log entry 7) -/
  trace : List BusEvent
  /-- the environment's scripted choices (log entry 4) -/
  env : Env
  /-- the model's own: how many free values have been drawn (log entry 4) -/
  draws : Nat
  /-- what the host will hand the idle controller, in order (60_exceptions.md R262; log entry 10) -/
  inputs : List HostInput
  /-- after how many further steps the host sets STOP_REQ; none: never (60_exceptions.md R250; log entry 10) -/
  stopAfter : Option Nat
  deriving DecidableEq, Repr

/-- A start state: the reset values of 10_state.md R49, with what R49 leaves unspecified or host supplied as arguments
(70_reset_and_hazards.md R281). The last three arguments are the panel's own state (43_sequencer.md R200), the
environment's script and the host's inputs. -/
def State.start (platform : Platform) (fsel : Vector Word 3) (outlatch cnt : Word) (frame : FrameGrid)
    (src : Option SourceImage) (panel : Panel) (env : Env) (inputs : List HostInput) (stopAfter : Option Nat) : State :=
  { platform := platform, outBits := 0, inBits := 0, slowdown := 0, res := 0, rowMask := 0,
    timing := Vector.replicate 8 0, mode := .reset, pos := Pos.start, phase := .idle, stopReq := false,
    scrollEn := false, err := .none, fsel := fsel, outlatch := outlatch, cnt := cnt, gmap := .unmapped,
    tmap := .unmapped, frame := frame, cursor := 0, src := src, lastScroll := 0, panel := panel, trace := [],
    env := env, draws := 0, inputs := inputs, stopAfter := stopAfter }

/-- The machine right after reset: `State.start` with, where the spec gives no value, the values named in log entries 2
and 3 (zeros, a black frame, no source image, the example platform, nothing scripted, nothing handed in). -/
def State.reset : State :=
  State.start Platform.exPlatform (Vector.replicate 3 0) 0 0 FrameGrid.black none Panel.blank Env.unscripted [] none

end Sys2Proof.Machine
end

