-- ==== Sys2Proof/Machine/Operands.lean ====
section
/-! DEFINITION. Operand forms and the pure functions of registers and operands: pin masks (00_scope.md R14),
index operands (30_encoding.md R96, R103), the row address decoder (40_gpio.md R125, R126), the shift-register
multiplexer (42_frame.md R161), the function-select word (30_encoding.md R91), the timing table (10_state.md R26), the
counter's arithmetic (41_timer.md R141, R142), and the reads of FRAME and SRC (20_memory.md R80, R81). -/

namespace Sys2Proof.Machine

/-- bit(k) = 1 << k (00_scope.md R14). -/
def pinBit (k : PinIndex) : PinMask := 1#32 <<< k.val

/-- COLOR_MASK (00_scope.md R14). -/
def colorMask (p : PinTable) : PinMask :=
  pinBit p.r1 ||| pinBit p.g1 ||| pinBit p.b1 ||| pinBit p.r2 ||| pinBit p.g2 ||| pinBit p.b2

/-- CC_MASK, "color+clock lines" (00_scope.md R14). -/
def ccMask (p : PinTable) : PinMask := colorMask p ||| pinBit p.clk

/-- row_mask_for(G) (40_gpio.md R125): each wider tier adds exactly one more address pin. -/
def rowMaskFor (p : PinTable) (groups : Nat) : PinMask :=
  let m := pinBit p.a
  let m := if 2 < groups then m ||| pinBit p.b else m
  let m := if 4 < groups then m ||| pinBit p.c else m
  let m := if 8 < groups then m ||| pinBit p.d else m
  if 16 < groups then m ||| pinBit p.e else m

/-- want, the pins INIT configures: OE | CLK | LAT | COLOR_MASK | ROW_MASK (44_system.md R222). -/
def initWant (p : PinTable) (rowMask : PinMask) : PinMask :=
  pinBit p.oe ||| pinBit p.clk ||| pinBit p.lat ||| colorMask p ||| rowMask

/-- A mask if a condition holds, else no pin. -/
def maskIf (b : Bool) (m : PinMask) : PinMask := if b then m else 0

/-- row_address_bits(double_row), masked against ROW_MASK (40_gpio.md R126). -/
def rowAddressBits (p : PinTable) (rowMask : PinMask) (dr : Nat) : PinMask :=
  (maskIf (dr.testBit 0) (pinBit p.a) ||| maskIf (dr.testBit 1) (pinBit p.b) ||| maskIf (dr.testBit 2) (pinBit p.c)
    ||| maskIf (dr.testBit 3) (pinBit p.d) ||| maskIf (dr.testBit 4) (pinBit p.e)) &&& rowMask

/-- plane_bits(top, bottom, p): each colour line depends on one bit of one channel (42_frame.md R161). -/
def planeBits (p : PinTable) (top bottom : Pixel) (plane : Nat) : PinMask :=
  maskIf (top.r.getLsbD plane) (pinBit p.r1) ||| maskIf (top.g.getLsbD plane) (pinBit p.g1)
    ||| maskIf (top.b.getLsbD plane) (pinBit p.b1) ||| maskIf (bottom.r.getLsbD plane) (pinBit p.r2)
    ||| maskIf (bottom.g.getLsbD plane) (pinBit p.g2) ||| maskIf (bottom.b.getLsbD plane) (pinBit p.b2)

/-- CFGOUT1's operand as a pin index, refused above 27 (40_gpio.md R120, decision D34). -/
def pinOperand (p : PinOperand) : Except Refusal PinIndex :=
  if h : p.raw.toNat < 28 then .ok ⟨p.raw.toNat, h⟩ else .error .pinIndexOutOfRange

/-- A double-row or bitplane operand, 0 to 7 (43_sequencer.md R182, R185, R186). -/
def octalOperand (v : Nat) : Except Refusal (Fin 8) :=
  if h : v < 8 then .ok ⟨v, h⟩ else .error .indexOutOfRange

/-- A column operand, 0 to 31 (43_sequencer.md R182). -/
def columnOperand (v : Nat) : Except Refusal (Fin 32) :=
  if h : v < 32 then .ok ⟨v, h⟩ else .error .indexOutOfRange

/-- The function-select word of a pin: pin / 10 (10_state.md R31). -/
def fselWordOf (k : PinIndex) : Fin 3 := ⟨k.val / 10, by omega⟩

/-- The position of a pin's field in its word: (pin % 10) * 3 (10_state.md R31). -/
def fselShiftOf (k : PinIndex) : Nat := (k.val % 10) * 3

/-- A pin's 3-bit function-select field (10_state.md R31). -/
def fselField (fsel : Vector Word 3) (k : PinIndex) : BitVec 3 := (fsel[fselWordOf k]).extractLsb' (fselShiftOf k) 3

/-- (old & ~(0b111 << s)) | (0b001 << s): the word with a pin's field set to output (40_gpio.md R120). -/
def fselWithOutput (old : Word) (k : PinIndex) : Word :=
  (old &&& ~~~(0b111#32 <<< fselShiftOf k)) ||| (0b001#32 <<< fselShiftOf k)

/-- A pin is an output exactly when its field is 0b001 (10_state.md R32, R37). -/
def isOutput (fsel : Vector Word 3) (k : PinIndex) : Bool := fselField fsel k == Config.fselOutput

/-- The mask of all pins whose field is the output code (10_state.md R37). -/
def outputPins (fsel : Vector Word 3) : PinMask :=
  (List.finRange 28).foldl (fun m k => m ||| maskIf (isOutput fsel k) (pinBit k)) 0

/-- GPLEV: the latch on output pins, the environment's draw on every other bit (10_state.md R37). -/
def pinLevels (fsel : Vector Word 3) (outlatch drawn : Word) : Word :=
  (outlatch &&& outputPins fsel) ||| (drawn &&& ~~~(outputPins fsel))

/-- TIMING[k] = BASE_DWELL << k, what INIT writes (10_state.md R26, 44_system.md R222). -/
def timingTable : Vector Word 8 := Vector.ofFn fun k => BitVec.ofNat 32 (Config.baseDwell <<< k.val)

/-- elapsed(pre, post), the wrap-corrected tick difference, adding the counter's maximum value (41_timer.md R141). -/
def elapsed (pre post : Word) : Nat :=
  if pre.toNat ≤ post.toNat then post.toNat - pre.toNat else (Config.counterMax - pre.toNat) + post.toNat

/-- ns_to_ticks(n), floor division (41_timer.md R142). -/
def nsToTicks (n : Nat) : Nat := n / Config.nsPerTick

/-- SRC[r][c] (10_state.md R45); only reads inside the grid occur (20_memory.md R81). -/
def SourceImage.pixel (img : SourceImage) (r c : Nat) : Pixel := (img.rows.getD r []).getD c Pixel.black

/-- The grid has the declared shape: "well-formed rows" (00_scope.md R13, 60_exceptions.md R244). -/
def SourceImage.wf (img : SourceImage) : Bool :=
  decide (img.rows.length = img.height) && img.rows.all fun row => decide (row.length = img.width)

/-- A source image ADVANCE accepts: SRC_W >= 32 and SRC_H >= 16 (42_frame.md R160), with well-formed rows. -/
def SourceImage.usable (img : SourceImage) : Bool :=
  decide (Config.cols ≤ img.width) && decide (Config.rows ≤ img.height) && img.wf

/-- The frame that ADVANCE loads: FRAME[r][c] <- SRC[r][(CURSOR + c) % SRC_W] (42_frame.md R160, 20_memory.md R81). -/
def SourceImage.visible (img : SourceImage) (cursor : Nat) : FrameGrid :=
  Vector.ofFn fun r => Vector.ofFn fun c => img.pixel r.val ((cursor + c.val) % img.width)

/-- The top pixel of a double-row's column: FRAME[dr][col] (20_memory.md R80). -/
def topPixel (frame : FrameGrid) (dr : Fin 8) (col : Fin 32) : Pixel := (frame[dr.val])[col.val]

/-- The bottom pixel: FRAME[dr + ROWS/2][col] (20_memory.md R80). -/
def bottomPixel (frame : FrameGrid) (dr : Fin 8) (col : Fin 32) : Pixel := (frame[dr.val + 8])[col.val]

/-- The STEP number, 1 to 6 (10_state.md R28). -/
def SeqStep.number : SeqStep → Nat
  | .clearBefore => 1
  | .shift => 2
  | .clearAfter => 3
  | .address => 4
  | .latch => 5
  | .dwell => 6

/-- Where POS stands when the six steps of row-plane (dr, pl) are done: the next row-plane's first step, or, after
(7, 7), where the sweep ended (43_sequencer.md R191, 10_state.md R28; log entry 8). -/
def Pos.afterRowPlane (dr pl : Fin 8) : Pos :=
  if h : pl.val < 7 then { dr := dr, pl := ⟨pl.val + 1, by omega⟩, col := 0, step := .clearBefore }
  else if h' : dr.val < 7 then { dr := ⟨dr.val + 1, by omega⟩, pl := 0, col := 0, step := .clearBefore }
  else { dr := dr, pl := pl, col := 0, step := .dwell }

/-- How POS advances after the micro-operation it names (43_sequencer.md R191). -/
def Pos.next (p : Pos) : Pos :=
  match p.step with
  | .clearBefore => { p with col := 0, step := .shift }
  | .shift =>
    if h : p.col.val < 31 then { p with col := ⟨p.col.val + 1, by omega⟩ } else { p with col := 0, step := .clearAfter }
  | .clearAfter => { p with step := .address }
  | .address => { p with step := .latch }
  | .latch => { p with step := .dwell }
  | .dwell => Pos.afterRowPlane p.dr p.pl

/-- The micro-operation at this position is the last of the sweep: (7, 7, *, 6) (10_state.md R28). -/
def Pos.endsSweep (p : Pos) : Bool :=
  match p.step with
  | .dwell => decide (p.dr = 7) && decide (p.pl = 7)
  | .clearBefore => false
  | .shift => false
  | .clearAfter => false
  | .address => false
  | .latch => false

/-- The physical byte address of a word of a window: the window is mapped at base_address + physical_offset, and a word
is four bytes (20_memory.md R61, R69). No rule depends on it. -/
def windowAddress (w : Window) (word : Nat) : Nat :=
  match w with
  | .gpio => Config.physBase + Config.gpioOffset + 4 * word
  | .timer => Config.physBase + Config.timerOffset + 4 * word

end Sys2Proof.Machine
end

