-- ==== Sys2Proof/Machine/Flags.lean ====
section
/-! DEFINITION. The GSC has no arithmetic flag (10_state.md R29). Its flags are STOP_REQ, SCROLL_EN and ERR, and what
decides whether an operation is accepted is MODE with the two handles (30_encoding.md R102). -/

namespace Sys2Proof.Machine

/-- The number of an ERR value (60_exceptions.md R245). -/
def ErrCode.code : ErrCode → Nat
  | .none => 0
  | .privilegeError => 1
  | .mapError => 2
  | .configurationInvariantViolation => 3

/-- MODE is Reset or Ready (30_encoding.md R102). -/
def State.inSetup (s : State) : Bool := s.mode == .reset || s.mode == .ready

/-- MODE is Reset, Ready or Stopped: MAPCLOSE and TEARDOWN (30_encoding.md R102). -/
def State.mayClose (s : State) : Bool := s.mode == .reset || s.mode == .ready || s.mode == .stopped

/-- Any MODE but Running and Faulted: the pure functions ROWADDR and PLANEBITS (30_encoding.md R102, conflict C13). -/
def State.mayCompute (s : State) : Bool := s.mode != .running && s.mode != .faulted

/-- MODE is Reset or Ready and a source image is present: ADVANCE (30_encoding.md R102). -/
def State.advanceAccepted (s : State) : Bool := s.inSetup && s.src.isSome

/-- GMAP = Mapped and MODE is Reset or Ready: CFGOUT1, CFGOUTS, SET, CLR, WRM, RDLEV (30_encoding.md R102). -/
def State.gpioAccepted (s : State) : Bool := s.gmap == .mapped && s.inSetup

/-- TMAP = Mapped and MODE is Reset or Ready: TREAD, SLEEPNS (30_encoding.md R102). -/
def State.timerAccepted (s : State) : Bool := s.tmap == .mapped && s.inSetup

/-- MODE = Ready: the sequencer operations (30_encoding.md R102). -/
def State.isReady (s : State) : Bool := s.mode == .ready

/-- The handle of a window: GMAP or TMAP (10_state.md R42). -/
def State.handle (s : State) : Window → Handle
  | .gpio => s.gmap
  | .timer => s.tmap

/-- Write the handle of a window. -/
def State.setHandle (s : State) (w : Window) (h : Handle) : State :=
  match w with
  | .gpio => { s with gmap := h }
  | .timer => { s with tmap := h }

/-- "INIT has completed", equivalent to TIMING[0] = 1000 (44_system.md R223). -/
def State.initCompleted (s : State) : Bool := s.timing[0] == BitVec.ofNat 32 Config.baseDwell

/-- The host's one asynchronous input: STOP_REQ <- true, which changes nothing when it is already true
(60_exceptions.md R250, R251). -/
def State.requestStop (s : State) : State := { s with stopReq := true }

/-- The host's part of a step: when its moment has come it sets STOP_REQ, once (60_exceptions.md R250; log entry 10). -/
def State.hostTick (s : State) : State :=
  match s.stopAfter with
  | none => s
  | some 0 => { s.requestStop with stopAfter := none }
  | some (n + 1) => { s with stopAfter := some n }

end Sys2Proof.Machine
end

