-- ==== Sys2Proof/Machine/Panel.lean ====
section
/-! DEFINITION. The informative panel observer (43_sequencer.md R200 to R203). The panel is outside the GSC; the observer
binds nothing in it and is fed by every change of OUTLATCH (log entry 16). -/

namespace Sys2Proof.Machine

/-- The six colour lines as a latch value shows them (R201). -/
def SixLines.ofLatch (p : PinTable) (latch : Word) : SixLines :=
  { r1 := latch.getLsbD p.r1.val, g1 := latch.getLsbD p.g1.val, b1 := latch.getLsbD p.b1.val,
    r2 := latch.getLsbD p.r2.val, g2 := latch.getLsbD p.g2.val, b2 := latch.getLsbD p.b2.val }

/-- A rising clock edge: OUTLATCH[PIN_CLK] goes from 0 to 1 (R201). -/
def clockRises (p : PinTable) (before after : Word) : Bool := !before.getLsbD p.clk.val && after.getLsbD p.clk.val

/-- Every entry moves one place and SHIFT[0] takes the colour lines (R201). -/
def shiftIn (v : Vector SixLines 32) (x : SixLines) : Vector SixLines 32 :=
  Vector.ofFn fun i => if i.val = 0 then x else v[i.val - 1]

/-- The value on the address lines in ROW_MASK, as a number: A is bit 0, B bit 1, and so on (R202). -/
def addressOnLines (p : PinTable) (rowMask : PinMask) (latch : Word) : BitVec 5 :=
  BitVec.ofBoolListLE ([p.a, p.b, p.c, p.d, p.e].map fun k => (latch &&& rowMask).getLsbD k.val)

/-- One change of OUTLATCH as the panel sees it: first the clock edge (R201), then, while LAT is high, the latch (R202). -/
def Panel.observe (p : PinTable) (rowMask : PinMask) (before after : Word) (panel : Panel) : Panel :=
  let shifted :=
    if clockRises p before after then shiftIn panel.shift (SixLines.ofLatch p after) else panel.shift
  if after.getLsbD p.lat.val then
    { shift := shifted, latched := shifted, latchedAddr := addressOnLines p rowMask after }
  else { panel with shift := shifted }

/-- Which of the colours red, green and blue are lit at position i of a panel row (R203): none while OE is high; else, in
row LATCHED_ADDR as the latched r1 g1 b1 say (top sub-panel), in row LATCHED_ADDR + 8 as r2 g2 b2 say (bottom sub-panel),
and none in every other row. -/
def State.lit (s : State) (row : Fin 16) (i : Fin 32) : Bool × Bool × Bool :=
  if s.outlatch.getLsbD s.platform.pins.oe.val then (false, false, false)
  else if row.val = s.panel.latchedAddr.toNat then (s.panel.latched[i].r1, s.panel.latched[i].g1, s.panel.latched[i].b1)
  else if row.val = s.panel.latchedAddr.toNat + 8 then
    (s.panel.latched[i].r2, s.panel.latched[i].g2, s.panel.latched[i].b2)
  else (false, false, false)

end Sys2Proof.Machine
end

