-- ==== Sys2Proof/Machine/Ops.lean ====
section
/-! DEFINITION. The shared operations: the two window accesses with the whole address map (20_memory.md R60 to R82), the
pin operations built from them (40_gpio.md R120 to R124), the delay (41_timer.md R143 to R145), the scroll load
(42_frame.md R160), opening a window (44_system.md R220), and fault entry (60_exceptions.md R246). An operation either
answers a state or is refused, and a refused operation has no effect (60_exceptions.md R248). -/

namespace Sys2Proof.Machine

/-- Go on only if a condition holds; else refuse. -/
def require (ok : Bool) (r : Refusal) : Except Refusal Unit := if ok then .ok () else .error r

/-- Refuse an operation that needs a window which is not Mapped (10_state.md R42, 44_system.md R221). -/
def requireMapped (w : Window) (s : State) : Except Refusal Unit := require (s.handle w == .mapped) (.windowNotMapped w)

/-- The outcome of an operation. -/
def complete : Except Refusal State → Host.Outcome State Fault Refusal
  | .ok s => .next s
  | .error r => .refused r

/-- The counter's advance before an access: the next scripted number of ticks, or a free one (10_state.md R40). -/
def State.tickAmount (s : State) : Nat :=
  match s.env.ticks with
  | d :: _ => d
  | [] => Config.freeTick s.draws

/-- Between two accesses CNT advances by some d >= 0 ticks: CNT <- (CNT + d) % 2^32 (10_state.md R40). -/
def State.tick (s : State) : State :=
  { s with
    cnt := s.cnt + BitVec.ofNat 32 s.tickAmount
    env := { s.env with ticks := s.env.ticks.tail }
    draws := s.draws + 1 }

/-- Add an event to the trace. -/
def State.record (s : State) (e : BusEvent) : State := { s with trace := e :: s.trace }

/-- A new value of OUTLATCH, seen by the panel observer (10_state.md R36, 43_sequencer.md R201). -/
def State.drive (s : State) (latch : Word) : State :=
  { s with outlatch := latch, panel := s.panel.observe s.platform.pins s.rowMask s.outlatch latch }

/-- The level the environment shows on pins that are not outputs: scripted, or free (10_state.md R37). -/
def State.drawnLevels (s : State) : Word :=
  match s.env.levels with
  | v :: _ => v
  | [] => Config.freeLevels s.draws

/-- One drawn level word is used up. -/
def State.afterLevels (s : State) : State :=
  { s with env := { s.env with levels := s.env.levels.tail }, draws := s.draws + 1 }

/-- RegRead at this moment, once the counter has advanced: the map of both windows (20_memory.md R67, R68, R82). -/
def regReadNow (w : Window) (word : Nat) (s : State) : Except Refusal (Word × State) :=
  if s.handle w = .mapped then
    match w with
    | .gpio =>
      if h : word < 3 then .ok (s.fsel[word], s.record (.read .gpio word s.fsel[word]))
      else if word = Config.setWord ∨ word = Config.clrWord then .error (.readOfWriteOnly word)
      else if word = Config.levWord then
        let v := pinLevels s.fsel s.outlatch s.drawnLevels
        .ok (v, s.afterLevels.record (.read .gpio word v))
      else .error (.undescribedWord .gpio word)
    | .timer =>
      if word = s.platform.timerWord then .ok (s.cnt, s.record (.read .timer word s.cnt))
      else .error (.undescribedWord .timer word)
  else .error (.windowNotMapped w)

/-- RegWrite at this moment, once the counter has advanced (20_memory.md R67, R68, R82; 10_state.md R31, R33, R34). -/
def regWriteNow (w : Window) (word : Nat) (v : Word) (s : State) : Except Refusal State :=
  if s.handle w = .mapped then
    match w with
    | .gpio =>
      if h : word < 3 then .ok ({ s with fsel := s.fsel.set word v }.record (.write .gpio word v))
      else if word = Config.setWord then .ok ((s.drive (s.outlatch ||| v)).record (.write .gpio word v))
      else if word = Config.clrWord then .ok ((s.drive (s.outlatch &&& ~~~v)).record (.write .gpio word v))
      else if word = Config.levWord then .error (.writeOfReadOnly .gpio word)
      else .error (.undescribedWord .gpio word)
    | .timer =>
      if word = s.platform.timerWord then .error (.writeOfReadOnly .timer word)
      else .error (.undescribedWord .timer word)
  else .error (.windowNotMapped w)

/-- RegRead(blk, w): exactly one read of the device (00_scope.md R16, 20_memory.md R72). -/
def regRead (w : Window) (word : Nat) (s : State) : Except Refusal (Word × State) := regReadNow w word s.tick

/-- RegWrite(blk, w, v): exactly one write of the device (00_scope.md R16, 20_memory.md R72). -/
def regWrite (w : Window) (word : Nat) (v : Word) (s : State) : Except Refusal State := regWriteNow w word v s.tick

/-- n separate identical writes, never merged (20_memory.md R71). -/
def regWriteTimes (w : Window) (word : Nat) (v : Word) : Nat → State → Except Refusal State
  | 0, s => .ok s
  | n + 1, s => do
    let s ← regWrite w word v s
    regWriteTimes w word v n s

/-- set(mask): 1 + SLOWDOWN writes of word 7 (40_gpio.md R122). -/
def setPins (mask : PinMask) (s : State) : Except Refusal State :=
  regWriteTimes .gpio Config.setWord mask (1 + s.slowdown.toNat) s

/-- clear(mask): 1 + SLOWDOWN writes of word 10 (40_gpio.md R123). -/
def clearPins (mask : PinMask) (s : State) : Except Refusal State :=
  regWriteTimes .gpio Config.clrWord mask (1 + s.slowdown.toNat) s

/-- write_masked(value, mask): clear, then set (40_gpio.md R124, 70_reset_and_hazards.md R291). -/
def writeMasked (value mask : PinMask) (s : State) : Except Refusal State := do
  let s ← clearPins (~~~value &&& mask) s
  setPins (value &&& mask) s

/-- configure_as_output(pin): one read and one write of the pin's function-select word (40_gpio.md R120). -/
def configureAsOutput (k : PinIndex) (s : State) : Except Refusal State := do
  let (old, s) ← regRead .gpio (fselWordOf k).val s
  regWrite .gpio (fselWordOf k).val (fselWithOutput old k) s

/-- The pins of a list that are in a mask, configured one after another (40_gpio.md R121). -/
def configurePins (m : PinMask) : List PinIndex → State → Except Refusal State
  | [], s => .ok s
  | k :: ks, s =>
    if m.getLsbD k.val then do
      let s ← configureAsOutput k s
      configurePins m ks s
    else configurePins m ks s

/-- The pins configure_outputs will newly configure: valid, and not configured already (40_gpio.md R121). -/
def State.newPins (s : State) (mask : PinMask) : PinMask :=
  mask &&& s.platform.validPins &&& ~~~(s.outBits ||| s.inBits)

/-- What configure_outputs records once the pins of m are configured (40_gpio.md R121). -/
def State.nowConfigured (s : State) (m : PinMask) : State := { s with outBits := s.outBits ||| m, res := m }

/-- configure_outputs(mask): ascending pin order, k = 0 to 27 (40_gpio.md R121). -/
def configureOutputs (mask : PinMask) (s : State) : Except Refusal State := do
  let m := s.newPins mask
  let s ← configurePins m (List.finRange 28) s
  .ok (s.nowConfigured m)

/-- TimerRead(): one read of CNT (41_timer.md R140). -/
def timerRead (s : State) : Except Refusal (Word × State) := regRead .timer s.platform.timerWord s

/-- CoarseSleep(d): no access; CNT advances by a drawn number of ticks, scripted or free (41_timer.md R144). -/
def coarseSleep (ns : Nat) (s : State) : State :=
  let ticks := match s.env.coarse with
    | t :: _ => t
    | [] => Config.freeCoarse s.draws
  { s with
    cnt := s.cnt + BitVec.ofNat 32 ticks
    env := { s.env with coarse := s.env.coarse.tail }
    draws := s.draws + 1
    trace := .coarseSleep ns :: s.trace }

/-- The counter's fairness (10_state.md R40): an advance that takes the elapsed count to the target, the drawn one where
it is enough, else by a free number of ticks beyond it (41_timer.md R145; log entry 5). -/
def State.tickPast (start : Word) (target : Nat) (s : State) : State :=
  if target ≤ elapsed start s.tick.cnt then s.tick
  else
    let extra := Config.freeOvershoot s.draws % (Config.counterMax - target)
    { s.tick with cnt := start + BitVec.ofNat 32 (target + 1 + extra) }

/-- The loop of BusyWait: read the counter until the elapsed count reaches the target. The fuel is the number of reads
after which fairness ends the wait (41_timer.md R145; log entry 5). -/
def busyWaitLoop (start : Word) (target : Nat) : Nat → State → Except Refusal State
  | 0, s => do
    let (_, s) ← regReadNow .timer s.platform.timerWord (s.tickPast start target)
    .ok s
  | fuel + 1, s => do
    let (now, s) ← timerRead s
    if target ≤ elapsed start now then .ok s else busyWaitLoop start target fuel s

/-- BusyWait(target) (41_timer.md R145). -/
def busyWait (target : Nat) (s : State) : Except Refusal State := do
  let (start, s) ← timerRead s
  busyWaitLoop start target (Config.freeWaitReads s.draws + s.env.ticks.length) s

/-- A coarse sleep between two readings of the counter: the ticks that elapsed, wrap-corrected (41_timer.md R143). -/
def measuredCoarseSleep (ns : Nat) (s : State) : Except Refusal (Nat × State) := do
  let (pre, s) ← timerRead s
  let (post, s) ← timerRead (coarseSleep ns s)
  .ok (elapsed pre post, s)

/-- sleep_nanos(n) (41_timer.md R143): for a long request a coarse sleep of n less the allowance, the actual elapsed time
taken off the budget, and a return at once if it meets the request; then the busy-wait tail. -/
def sleepNanos (n : Nat) (s : State) : Except Refusal State :=
  if s.platform.sleepThresholdNs < n then do
    let (ticks, s) ← measuredCoarseSleep (n - s.platform.jitterAllowanceNs) s
    let elNs := ticks * Config.nsPerTick
    if n ≤ elNs then .ok s else busyWait (nsToTicks (n - elNs)) s
  else busyWait (nsToTicks n) s

/-- advance_from_source (42_frame.md R160): the copy uses the cursor before the increment. -/
def advanceFrame (s : State) : Except Refusal State :=
  match s.src with
  | none => .error .noUsableSource
  | some img =>
    if img.usable then
      .ok { s with frame := img.visible s.cursor, cursor := (s.cursor + 1) % img.width }
    else .error .noUsableSource

/-- A mapping that is Mapped becomes Released; any other stays (60_exceptions.md R246). -/
def Handle.release : Handle → Handle
  | .mapped => .released
  | .unmapped => .unmapped
  | .released => .released

/-- Fault entry, `raise E` (60_exceptions.md R246): ERR takes the error, every mapping is released, MODE becomes Faulted.
Nothing is saved. There is no return from it: Faulted is terminal (R247). -/
def raise (e : ErrCode) (s : State) : State :=
  { s with err := e, gmap := s.gmap.release, tmap := s.tmap.release, mode := .faulted }

/-- MAP_OK(w) (44_system.md R220). -/
def State.mapOk (s : State) : Window → Bool
  | .gpio => s.platform.mapOkGpio
  | .timer => s.platform.mapOkTimer

/-- open(physical_offset): the error it raises, or the state with the window mapped; the privilege check comes first
(44_system.md R220, 60_exceptions.md R249 (b)). -/
def openWindow (w : Window) (s : State) : Except ErrCode State :=
  if s.platform.privileged then
    if s.mapOk w then .ok (s.setHandle w .mapped) else .error .mapError
  else .error .privilegeError

end Sys2Proof.Machine
end

