-- ==== Sys2Proof/Machine/Sequencer.lean ====
section
/-! DEFINITION. The sequencer (43_sequencer.md): the steps of a row-plane as shared pieces, the sequencer commands CLRCC,
SHIFTCOL, ADDR, LATCH, DWELL, ROWPLANE, SWEEP, SCROLLCHK and RUN, each as the whole of what it does; Machine/Access.lean
takes them access by access. -/

namespace Sys2Proof.Machine

/-- "Clear color+clock lines": clear(CC_MASK) (43_sequencer.md R181). -/
def clearColourClock (s : State) : Except Refusal State := clearPins (ccMask s.platform.pins) s

/-- Shift one column: clear, write the plane bits against CC_MASK, raise the clock (43_sequencer.md R182). -/
def shiftColumn (dr pl : Fin 8) (col : Fin 32) (s : State) : Except Refusal State := do
  let s ← clearColourClock s
  let pb := planeBits s.platform.pins (topPixel s.frame dr col) (bottomPixel s.frame dr col) pl.val
  let s ← writeMasked pb (ccMask s.platform.pins) s
  setPins (pinBit s.platform.pins.clk) s

/-- Put the row address on the address lines; RES is not written (43_sequencer.md R183). -/
def putAddress (dr : Nat) (s : State) : Except Refusal State :=
  writeMasked (rowAddressBits s.platform.pins s.rowMask dr) s.rowMask s

/-- Pulse the latch, high then immediately low (43_sequencer.md R184). -/
def pulseLatch (s : State) : Except Refusal State := do
  let s ← setPins (pinBit s.platform.pins.lat) s
  clearPins (pinBit s.platform.pins.lat) s

/-- Unblank, dwell for the bitplane's time, blank (43_sequencer.md R185). -/
def dwellPlane (pl : Fin 8) (s : State) : Except Refusal State := do
  let s ← clearPins (pinBit s.platform.pins.oe) s
  let s ← sleepNanos (s.timing[pl]).toNat s
  setPins (pinBit s.platform.pins.oe) s

/-- Shift a list of columns, in its order (43_sequencer.md R186, step 2). -/
def shiftColumns (dr pl : Fin 8) : List (Fin 32) → State → Except Refusal State
  | [], s => .ok s
  | col :: cols, s => do
    let s ← shiftColumn dr pl col s
    shiftColumns dr pl cols s

/-- Steps 1 to 5 of a row-plane: shift the 32 columns, clear, address, latch (43_sequencer.md R186). -/
def rowPlaneShift (dr pl : Fin 8) (s : State) : Except Refusal State := do
  let s ← clearColourClock s
  let s ← shiftColumns dr pl (List.finRange 32) s
  let s ← clearColourClock s
  let s ← putAddress dr.val s
  pulseLatch s

/-- The six steps for one double-row and one bitplane; POS ends where R191 takes it (43_sequencer.md R186, R191;
log entry 8). -/
def rowPlane (dr pl : Fin 8) (s : State) : Except Refusal State := do
  let s ← rowPlaneShift dr pl s
  let s ← dwellPlane pl s
  .ok { s with pos := Pos.afterRowPlane dr pl }

/-- The row-planes of a list of bitplanes of one double-row. -/
def rowPlanes (dr : Fin 8) : List (Fin 8) → State → Except Refusal State
  | [], s => .ok s
  | pl :: pls, s => do
    let s ← rowPlane dr pl s
    rowPlanes dr pls s

/-- The row-planes of a list of double-rows: double-rows outside, bitplanes inside, ascending. -/
def doubleRows : List (Fin 8) → State → Except Refusal State
  | [], s => .ok s
  | dr :: drs, s => do
    let s ← rowPlanes dr (List.finRange 8) s
    doubleRows drs s

/-- One full-panel sweep: all row-planes, from POS = (0, 0, 0, 1) (43_sequencer.md R187, R191). -/
def sweepPanel (s : State) : Except Refusal State := doubleRows (List.finRange 8) { s with pos := Pos.start }

/-- The step between sweeps (43_sequencer.md R188). -/
def scrollCheck (s : State) : Except Refusal State :=
  if s.scrollEn then do
    let (now, s) ← timerRead s
    if Config.scrollPeriodTicks ≤ elapsed s.lastScroll now then do
      let s ← advanceFrame s
      .ok { s with lastScroll := now }
    else .ok s
  else .ok s

/-- CLRCC (43_sequencer.md R181). -/
def execClrcc (s : State) : Host.Outcome State Fault Refusal := complete do
  require s.isReady .wrongState
  clearColourClock s

/-- SHIFTCOL (43_sequencer.md R182). -/
def execShiftcol (dr : Word) (pl col : Byte) (s : State) : Host.Outcome State Fault Refusal := complete do
  require s.isReady .wrongState
  let dr ← octalOperand dr.toNat
  let pl ← octalOperand pl.toNat
  let col ← columnOperand col.toNat
  shiftColumn dr pl col s

/-- ADDR (43_sequencer.md R183): no range is set for dr; its bits 5 and up are ignored (40_gpio.md R126). -/
def execAddr (dr : Word) (s : State) : Host.Outcome State Fault Refusal := complete do
  require s.isReady .wrongState
  putAddress dr.toNat s

/-- LATCH (43_sequencer.md R184). -/
def execLatch (s : State) : Host.Outcome State Fault Refusal := complete do
  require s.isReady .wrongState
  pulseLatch s

/-- DWELL (43_sequencer.md R185). -/
def execDwell (pl : Word) (s : State) : Host.Outcome State Fault Refusal := complete do
  require s.isReady .wrongState
  let pl ← octalOperand pl.toNat
  dwellPlane pl s

/-- ROWPLANE (43_sequencer.md R186). -/
def execRowplane (dr pl : Word) (s : State) : Host.Outcome State Fault Refusal := complete do
  require s.isReady .wrongState
  let dr ← octalOperand dr.toNat
  let pl ← octalOperand pl.toNat
  rowPlane dr pl s

/-- SWEEP (43_sequencer.md R187). -/
def execSweep (s : State) : Host.Outcome State Fault Refusal := complete do
  require s.isReady .wrongState
  sweepPanel s

/-- SCROLLCHK (43_sequencer.md R188): it needs TMAP = Mapped (R188) and, as every sequencer operation, a usable GPIO
window (44_system.md R221; log entry 13). -/
def execScrollchk (s : State) : Host.Outcome State Fault Refusal := complete do
  require s.isReady .wrongState
  requireMapped .gpio s
  requireMapped .timer s
  scrollCheck s

/-- RUN (43_sequencer.md R189): what comes before its loop; the loop is the controller's own, in Machine/Access.lean
(log entry 9). -/
def execRun (scrollEn : Bool) (s : State) : Host.Outcome State Fault Refusal := complete do
  require s.isReady .wrongState
  requireMapped .gpio s
  requireMapped .timer s
  let (now, s) ← timerRead { s with scrollEn := scrollEn }
  .ok { s with lastScroll := now, mode := .running, pos := Pos.start, phase := .poll }

end Sys2Proof.Machine
end

