-- ==== Sys2Proof/Machine/System.lean ====
section
/-! DEFINITION. The system operations: MAPOPEN, MAPCLOSE, INIT, TINIT, TEARDOWN (44_system.md). They are the only
operations that raise a fault, and a fault is taken: the next state is the one fault entry leaves (60_exceptions.md R246). -/

namespace Sys2Proof.Machine

/-- MAPOPEN (44_system.md R220). -/
def execMapopen (w : Window) (s : State) : Host.Outcome State Fault Refusal := complete do
  require (s.mode == .reset && s.handle w == .unmapped) .wrongState
  match openWindow w s with
  | .error e => .ok (raise e s)
  | .ok s => .ok s

/-- MAPCLOSE (44_system.md R221). -/
def execMapclose (w : Window) (s : State) : Host.Outcome State Fault Refusal := complete do
  require (s.mayClose && s.handle w == .mapped) .wrongState
  .ok (s.setHandle w .released)

/-- MODE becomes Ready when the second of the two constructions completes (44_system.md R222, R223). -/
def readyIf (both : Bool) (s : State) : State := if both then { s with mode := .ready } else s

/-- INIT's holding registers, written before its pins are configured (44_system.md R222). -/
def State.withHoldings (s : State) (slowdown : Word) : State :=
  { s with slowdown := slowdown, rowMask := rowMaskFor s.platform.pins Config.doubleRows }

/-- INIT's end: the check that exactly the requested set was configured, then the timing table (44_system.md R222). -/
def finishInit (want : PinMask) (s : State) : State :=
  if s.res = want then readyIf (s.tmap == .mapped) { s with timing := timingTable }
  else raise .configurationInvariantViolation s

/-- INIT's work once the GPIO window is open (44_system.md R222). -/
def constructGpio (slowdown : Word) (s : State) : Except Refusal State := do
  let s := s.withHoldings slowdown
  let want := initWant s.platform.pins s.rowMask
  let s ← configureOutputs want s
  .ok (finishInit want s)

/-- INIT (44_system.md R222). -/
def execInit (slowdown : Word) (s : State) : Host.Outcome State Fault Refusal := complete do
  require (s.mode == .reset && s.gmap == .unmapped) .wrongState
  match openWindow .gpio s with
  | .error e => .ok (raise e s)
  | .ok s => constructGpio slowdown s

/-- TINIT (44_system.md R223). -/
def execTinit (s : State) : Host.Outcome State Fault Refusal := complete do
  require (s.mode == .reset && s.tmap == .unmapped) .wrongState
  match openWindow .timer s with
  | .error e => .ok (raise e s)
  | .ok s => .ok (readyIf (s.gmap == .mapped && s.initCompleted) s)

/-- TEARDOWN (44_system.md R224): each window that is Mapped is released, no register is written. -/
def execTeardown (s : State) : Host.Outcome State Fault Refusal := complete do
  require s.mayClose .wrongState
  .ok { s with gmap := s.gmap.release, tmap := s.tmap.release }

end Sys2Proof.Machine
end

