-- ==== Sys2Proof/Machine/Access.lean ====
section
/-! DEFINITION. The controller access by access: one step makes one register access, one coarse sleep or one scroll load
(92_eei_decisions.md D36). For every operation of more than one access, the list of its accesses in program order, what each
one leaves still to do, and what the last one completes; and RUN's loop (43_sequencer.md R189). exec says the whole of what
an operation does; Laws/Access.lean proves that these steps do the same, access by access. -/

namespace Sys2Proof.Machine

/-! ### The accesses of an operation, in program order -/

/-- The accesses of set(mask) (40_gpio.md R122). -/
def State.setting (s : State) (mask : PinMask) : List Access := [.set mask s.slowdown.toNat]

/-- The accesses of clear(mask) (40_gpio.md R123). -/
def State.clearing (s : State) (mask : PinMask) : List Access := [.clear mask s.slowdown.toNat]

/-- The accesses of write_masked(value, mask) (40_gpio.md R124). -/
def State.writing (s : State) (value mask : PinMask) : List Access :=
  s.clearing (~~~value &&& mask) ++ s.setting (value &&& mask)

/-- The pins of a mask in ascending order (40_gpio.md R121). -/
def pinsOf (m : PinMask) : List PinIndex := (List.finRange 28).filter fun k => m.getLsbD k.val

/-- The accesses that configure the pins of a mask (40_gpio.md R120, R121). -/
def configuring (m : PinMask) : List Access := (pinsOf m).map .configure

/-- The accesses of sleep_nanos(n) (41_timer.md R143). -/
def State.sleeping (s : State) (n : Nat) : List Access :=
  if s.platform.sleepThresholdNs < n then [.sleepPre n] else [.waitStart (nsToTicks n)]

/-- The accesses of CLRCC (43_sequencer.md R181). -/
def State.clearingColourClock (s : State) : List Access := s.clearing (ccMask s.platform.pins)

/-- The accesses of SHIFTCOL (43_sequencer.md R182). -/
def State.shiftingColumn (s : State) (dr pl : Fin 8) (col : Fin 32) : List Access :=
  let pb := planeBits s.platform.pins (topPixel s.frame dr col) (bottomPixel s.frame dr col) pl.val
  s.clearingColourClock ++ (s.writing pb (ccMask s.platform.pins) ++ s.setting (pinBit s.platform.pins.clk))

/-- The accesses of ADDR (43_sequencer.md R183). -/
def State.puttingAddress (s : State) (dr : Nat) : List Access :=
  s.writing (rowAddressBits s.platform.pins s.rowMask dr) s.rowMask

/-- The accesses of LATCH (43_sequencer.md R184). -/
def State.pulsingLatch (s : State) : List Access :=
  s.setting (pinBit s.platform.pins.lat) ++ s.clearing (pinBit s.platform.pins.lat)

/-- The accesses of DWELL (43_sequencer.md R185). -/
def State.dwelling (s : State) (pl : Fin 8) : List Access :=
  s.clearing (pinBit s.platform.pins.oe) ++
    (s.sleeping (s.timing[pl]).toNat ++ s.setting (pinBit s.platform.pins.oe))

/-- The accesses of the micro-operation at a position (43_sequencer.md R186, R191). -/
def State.microAccesses (s : State) (p : Pos) : List Access :=
  match p.step with
  | .clearBefore => s.clearingColourClock
  | .shift => s.shiftingColumn p.dr p.pl p.col
  | .clearAfter => s.clearingColourClock
  | .address => s.puttingAddress p.dr.val
  | .latch => s.pulsingLatch
  | .dwell => s.dwelling p.pl

/-! ### One access -/

/-- One access, or one coarse sleep: what it does, and the accesses that it has made necessary and that come next. -/
def perform (a : Access) (s : State) : Except Refusal (List Access × State) :=
  match a with
  | .set mask 0 => do
    let s ← regWrite .gpio Config.setWord mask s
    .ok ([], s)
  | .set mask (left + 1) => do
    let s ← regWrite .gpio Config.setWord mask s
    .ok ([.set mask left], s)
  | .clear mask 0 => do
    let s ← regWrite .gpio Config.clrWord mask s
    .ok ([], s)
  | .clear mask (left + 1) => do
    let s ← regWrite .gpio Config.clrWord mask s
    .ok ([.clear mask left], s)
  | .configure k => do
    let (old, s) ← regRead .gpio (fselWordOf k).val s
    .ok ([.configureWrite k old], s)
  | .configureWrite k old => do
    let s ← regWrite .gpio (fselWordOf k).val (fselWithOutput old k) s
    .ok ([], s)
  | .sleepPre n => do
    let (pre, s) ← timerRead s
    .ok ([.coarse n pre], s)
  | .coarse n pre => .ok ([.sleepPost n pre], coarseSleep (n - s.platform.jitterAllowanceNs) s)
  | .sleepPost n pre => do
    let (post, s) ← timerRead s
    let elNs := elapsed pre post * Config.nsPerTick
    .ok (if n ≤ elNs then [] else [.waitStart (nsToTicks (n - elNs))], s)
  | .waitStart target => do
    let (start, s) ← timerRead s
    .ok ([.wait start target (Config.freeWaitReads s.draws + s.env.ticks.length)], s)
  | .wait start target 0 => do
    let (_, s) ← regReadNow .timer s.platform.timerWord (s.tickPast start target)
    .ok ([], s)
  | .wait start target (fuel + 1) => do
    let (now, s) ← timerRead s
    .ok (if target ≤ elapsed start now then [] else [.wait start target fuel], s)

/-! ### What the last access completes -/

/-- Inside a task with these accesses to make; with none, idle. -/
def Phase.ofAccesses (task : Task) : List Access → Phase
  | [] => .idle
  | a :: rest => .busy task a rest

/-- At the micro-operation of a position, before its first access. -/
def State.microPhase (s : State) (task : Task) (p : Pos) : Phase := Phase.ofAccesses task (s.microAccesses p)

/-- After the scroll step: RUN's loop goes on to its test, SCROLLCHK is over (43_sequencer.md R188, R189). -/
def State.phaseAfterScroll (s : State) : Phase := if s.mode = .running then .poll else .idle

/-- After a sweep: in RUN's loop the scroll step comes next, which does nothing without SCROLL_EN (43_sequencer.md R188,
R189); SWEEP is over. -/
def State.phaseAfterSweep (s : State) : Phase :=
  if s.mode = .running then if s.scrollEn then .scroll else .poll else .idle

/-- What a task does with its last access made: nothing more, what CFGOUTS and INIT record, POS on to the next
micro-operation (43_sequencer.md R191), or MODE = Stopped (R190). -/
def completeTask (task : Task) (s : State) : State :=
  match task with
  | .plain => { s with phase := .idle }
  | .outputs m => { s.nowConfigured m with phase := .idle }
  | .init m => { finishInit (initWant s.platform.pins s.rowMask) (s.nowConfigured m) with phase := .idle }
  | .rowPlane =>
    { s with pos := s.pos.next, phase := if s.pos.step = .dwell then .idle else s.microPhase .rowPlane s.pos.next }
  | .sweep =>
    { s with
      pos := s.pos.next, phase := if s.pos.endsSweep then s.phaseAfterSweep else s.microPhase .sweep s.pos.next }
  | .stop => { s with mode := .stopped, phase := .idle }

/-- On to the next access of a task, or, with none left, its completion. -/
def carryOn (task : Task) (s : State) : List Access → State
  | [] => completeTask task s
  | a :: rest => { s with phase := .busy task a rest }

/-- One step inside a task: its next access. -/
def proceed (task : Task) (a : Access) (rest : List Access) (s : State) : Except Refusal State := do
  let (more, s) ← perform a s
  .ok (carryOn task s (more ++ rest))

/-- The first step of a task: its first access; a task without one is complete at once. -/
def start (task : Task) (accesses : List Access) (s : State) : Except Refusal State :=
  match accesses with
  | [] => .ok (completeTask task s)
  | a :: rest => proceed task a rest s

/-! ### Sweep boundary and scroll step -/

/-- The sweep boundary: the only place STOP_REQ is read. With it set, stop entry begins, the exit action set(OE) and then
MODE = Stopped; else a sweep begins at (0, 0, 0, 1) (43_sequencer.md R189, R190; 60_exceptions.md R252, R253). The test makes
no access of its own and is taken with the access that follows it. -/
def pollStep (s : State) : Except Refusal State :=
  if s.stopReq then start .stop (s.setting (pinBit s.platform.pins.oe)) s
  else start .sweep (s.microAccesses Pos.start) { s with pos := Pos.start }

/-- The counter read of the scroll step with SCROLL_EN set (43_sequencer.md R188). -/
def scrollStep (s : State) : Except Refusal State := do
  let (now, s) ← timerRead s
  .ok { s with
    phase := if Config.scrollPeriodTicks ≤ elapsed s.lastScroll now then .load now else s.phaseAfterScroll }

/-- The scroll load, one step as a whole (43_sequencer.md R188, 92_eei_decisions.md D36). -/
def loadStep (now : Word) (s : State) : Except Refusal State := do
  let s ← advanceFrame s
  .ok { s with lastScroll := now, phase := s.phaseAfterScroll }

/-! ### An operation's first step -/

/-- An accepted operation's first step, where the operation may take more than one; none: it makes at most one access, or
raises a mapping fault before any. -/
def firstStep (i : Instr) (s : State) : Option (Except Refusal State) :=
  match i with
  | .mapopen _ => none
  | .mapclose _ => none
  | .init slowdown =>
    match openWindow .gpio s with
    | .error _ => none
    | .ok s =>
      let s := s.withHoldings slowdown
      let m := s.newPins (initWant s.platform.pins s.rowMask)
      some (start (.init m) (configuring m) s)
  | .tinit => none
  | .teardown => none
  | .run _ => none
  | .cfgout1 pin => some do
    let k ← pinOperand pin
    start .plain [.configure k] s
  | .cfgouts mask => some (start (.outputs (s.newPins mask)) (configuring (s.newPins mask)) s)
  | .set mask => some (start .plain (s.setting mask) s)
  | .clr mask => some (start .plain (s.clearing mask) s)
  | .wrm value mask => some (start .plain (s.writing value mask) s)
  | .rowaddr _ => none
  | .rdlev => none
  | .tread => none
  | .sleepns n => some (start .plain (s.sleeping n.toNat) s)
  | .advance => none
  | .planebits _ _ _ => none
  | .clrcc => some (start .plain s.clearingColourClock s)
  | .shiftcol dr pl col => some do
    let dr ← octalOperand dr.toNat
    let pl ← octalOperand pl.toNat
    let col ← columnOperand col.toNat
    start .plain (s.shiftingColumn dr pl col) s
  | .addr dr => some (start .plain (s.puttingAddress dr.toNat) s)
  | .latch => some (start .plain s.pulsingLatch s)
  | .dwell pl => some do
    let pl ← octalOperand pl.toNat
    start .plain (s.dwelling pl) s
  | .rowplane dr pl => some do
    let dr ← octalOperand dr.toNat
    let pl ← octalOperand pl.toNat
    let p : Pos := { dr := dr, pl := pl, col := 0, step := .clearBefore }
    start .rowPlane (s.microAccesses p) { s with pos := p }
  | .sweep => some (start .sweep (s.microAccesses Pos.start) { s with pos := Pos.start })
  | .scrollchk => if s.scrollEn then some (scrollStep s) else none

/-! ### Phase and MODE -/

/-- The phases that occur in a MODE (43_sequencer.md R189, 30_encoding.md R102): while Running the controller is in RUN's
loop and takes nothing; a command of several accesses is under way in the states that accept it (log entry 9). -/
def Phase.fits (ph : Phase) (m : Mode) : Bool :=
  match ph with
  | .idle => m != .running
  | .poll => m == .running
  | .scroll => m == .ready || m == .running
  | .load _ => m == .ready || m == .running
  | .busy .plain _ _ => m == .reset || m == .ready
  | .busy (.outputs _) _ _ => m == .reset || m == .ready
  | .busy (.init _) _ _ => m == .reset
  | .busy .rowPlane _ _ => m == .ready
  | .busy .sweep _ _ => m == .ready || m == .running
  | .busy .stop _ _ => m == .running

end Sys2Proof.Machine
end

