-- ==== Sys2Proof/Machine/FrameOps.lean ====
section
/-! DEFINITION. The frame operations: ADVANCE, PLANEBITS (42_frame.md). -/

namespace Sys2Proof.Machine

/-- ADVANCE (42_frame.md R160): accepted in Reset and Ready with a source image present (30_encoding.md R102); one that is
too small or ill-formed is refused by a name of its own (log entry 12). -/
def execAdvance (s : State) : Host.Outcome State Fault Refusal := complete do
  require s.advanceAccepted .wrongState
  advanceFrame s

/-- PLANEBITS (42_frame.md R162): a pure function of its operands, left in RES. -/
def execPlanebits (top : Pixel) (plane : Byte) (bottom : Pixel) (s : State) : Host.Outcome State Fault Refusal :=
  complete do
    require s.mayCompute .wrongState
    .ok { s with res := planeBits s.platform.pins top bottom plane.toNat }

end Sys2Proof.Machine
end

