-- ==== Sys2Proof/Machine/Gpio.lean ====
section
/-! DEFINITION. The GPIO operations: CFGOUT1, CFGOUTS, SET, CLR, WRM, ROWADDR, RDLEV (40_gpio.md). -/

namespace Sys2Proof.Machine

/-- CFGOUT1 (40_gpio.md R120): the mode first, then the operand's range (60_exceptions.md R249 (a)). -/
def execCfgout1 (pin : PinOperand) (s : State) : Host.Outcome State Fault Refusal := complete do
  require s.gpioAccepted .wrongState
  let k ← pinOperand pin
  configureAsOutput k s

/-- CFGOUTS (40_gpio.md R121). -/
def execCfgouts (mask : PinMask) (s : State) : Host.Outcome State Fault Refusal := complete do
  require s.gpioAccepted .wrongState
  configureOutputs mask s

/-- SET (40_gpio.md R122). -/
def execSet (mask : PinMask) (s : State) : Host.Outcome State Fault Refusal := complete do
  require s.gpioAccepted .wrongState
  setPins mask s

/-- CLR (40_gpio.md R123). -/
def execClr (mask : PinMask) (s : State) : Host.Outcome State Fault Refusal := complete do
  require s.gpioAccepted .wrongState
  clearPins mask s

/-- WRM (40_gpio.md R124). -/
def execWrm (value mask : PinMask) (s : State) : Host.Outcome State Fault Refusal := complete do
  require s.gpioAccepted .wrongState
  writeMasked value mask s

/-- ROWADDR (40_gpio.md R126): a pure function of dr and ROW_MASK, left in RES. -/
def execRowaddr (dr : Word) (s : State) : Host.Outcome State Fault Refusal := complete do
  require s.mayCompute .wrongState
  .ok { s with res := rowAddressBits s.platform.pins s.rowMask dr.toNat }

/-- RDLEV (40_gpio.md R127): one read of the level-register, left in RES. -/
def execRdlev (s : State) : Host.Outcome State Fault Refusal := complete do
  require s.gpioAccepted .wrongState
  let (v, s) ← regRead .gpio Config.levWord s
  .ok { s with res := v }

end Sys2Proof.Machine
end

