-- ==== Sys2Proof/Machine/Timer.lean ====
section
/-! DEFINITION. The timer operations: TREAD, SLEEPNS (41_timer.md). -/

namespace Sys2Proof.Machine

/-- TREAD (41_timer.md R140): one read of CNT, left in RES. -/
def execTread (s : State) : Host.Outcome State Fault Refusal := complete do
  require s.timerAccepted .wrongState
  let (v, s) ← timerRead s
  .ok { s with res := v }

/-- SLEEPNS (41_timer.md R143). -/
def execSleepns (n : Word) (s : State) : Host.Outcome State Fault Refusal := complete do
  require s.timerAccepted .wrongState
  sleepNanos n.toNat s

end Sys2Proof.Machine
end

