-- ==== Sys2Proof/Machine/Dispatch.lean ====
section
/-! DEFINITION. The dispatch: one arm per operation of 30_encoding.md R100. -/

namespace Sys2Proof.Machine

def exec (i : Instr) (s : State) : Host.Outcome State Fault Refusal :=
  match i with
  | .mapopen w => Sys2Proof.Machine.execMapopen w s
  | .mapclose w => Sys2Proof.Machine.execMapclose w s
  | .init slowdown => Sys2Proof.Machine.execInit slowdown s
  | .tinit => Sys2Proof.Machine.execTinit s
  | .teardown => Sys2Proof.Machine.execTeardown s
  | .run scrollEn => Sys2Proof.Machine.execRun scrollEn s
  | .cfgout1 pin => Sys2Proof.Machine.execCfgout1 pin s
  | .cfgouts mask => Sys2Proof.Machine.execCfgouts mask s
  | .set mask => Sys2Proof.Machine.execSet mask s
  | .clr mask => Sys2Proof.Machine.execClr mask s
  | .wrm value mask => Sys2Proof.Machine.execWrm value mask s
  | .rowaddr dr => Sys2Proof.Machine.execRowaddr dr s
  | .rdlev => Sys2Proof.Machine.execRdlev s
  | .tread => Sys2Proof.Machine.execTread s
  | .sleepns n => Sys2Proof.Machine.execSleepns n s
  | .advance => Sys2Proof.Machine.execAdvance s
  | .planebits top plane bottom => Sys2Proof.Machine.execPlanebits top plane bottom s
  | .clrcc => Sys2Proof.Machine.execClrcc s
  | .shiftcol dr pl col => Sys2Proof.Machine.execShiftcol dr pl col s
  | .addr dr => Sys2Proof.Machine.execAddr dr s
  | .latch => Sys2Proof.Machine.execLatch s
  | .dwell pl => Sys2Proof.Machine.execDwell pl s
  | .rowplane dr pl => Sys2Proof.Machine.execRowplane dr pl s
  | .sweep => Sys2Proof.Machine.execSweep s
  | .scrollchk => Sys2Proof.Machine.execScrollchk s

end Sys2Proof.Machine
end

