-- ==== Sys2Proof/Machine/HostPort.lean ====
section
/-! DEFINITION. The host interface (60_exceptions.md R262): what the idle controller takes from the host, one input at a
time, and how a command record is fetched, decoded and run. -/

namespace Sys2Proof.Machine

/-- The host supplies the source image; one that would leave CURSOR out of [0, SRC_W) is refused (10_state.md R44, R45;
log entry 11). -/
def supplySource (img : SourceImage) (s : State) : Host.Outcome State Fault Refusal :=
  if s.cursor < img.width then .next { s with src := some img } else .refused .sourceRejected

/-- One operation: refused as a whole before its first access, if at all (60_exceptions.md R248); else its first step, which
is all of it where it makes at most one access (92_eei_decisions.md D36; log entry 1). -/
def runOperation (i : Instr) (s : State) : Host.Outcome State Fault Refusal :=
  match exec i s with
  | .next t =>
    match firstStep i s with
    | some x => complete x
    | none => .next t
  | .fault f => .fault f
  | .refused r => .refused r

/-- One command record: decoding comes first, then the operation (60_exceptions.md R249 (a)). -/
def runRecord (r : Record) (s : State) : Host.Outcome State Fault Refusal :=
  match decode r with
  | .ok i => runOperation i s
  | .error _ => .refused .illegalCommand

/-- The idle controller takes the host's next input, or waits (60_exceptions.md R262; log entry 10). -/
def takeInput (s : State) : Host.Outcome State Fault Refusal :=
  match s.inputs with
  | [] => .next s
  | .command r :: rest => runRecord r { s with inputs := rest }
  | .source img :: rest => supplySource img { s with inputs := rest }

/-- One step of the controller: the next access of the operation under way, or of RUN's loop; else the host's next input
(10_state.md R20, 92_eei_decisions.md D36). -/
def controllerStep (s : State) : Host.Outcome State Fault Refusal :=
  if s.phase.fits s.mode then
    match s.phase with
    | .idle => takeInput s
    | .poll => complete (pollStep s)
    | .scroll => complete (scrollStep s)
    | .load now => complete (loadStep now s)
    | .busy task a rest => complete (proceed task a rest s)
  else .refused .wrongState

/-- A command record handed in as the host's next input. -/
def State.withRecord (s : State) (r : Record) : State := { s with inputs := .command r :: s.inputs }

end Sys2Proof.Machine
end

