-- ==== Sys2Proof/Machine/Step.lean ====
section
/-! DEFINITION. One step of the machine: the host's part, which may set STOP_REQ between any two steps of the controller
(60_exceptions.md R250), and one step of the controller, which makes at most one access (92_eei_decisions.md D36). -/

namespace Sys2Proof.Machine

/-- One step. -/
def step (s : State) : Host.Outcome State Fault Refusal := controllerStep s.hostTick

/-- The state with a table word handed in as the host's next command record: the GSC has no program counter that fetches,
its operations come from the host, and an idle controller takes this one in its very next step (60_exceptions.md R262;
log entry 10). -/
def State.withFetchWord (s : State) (nbits w : Nat) : State := s.withRecord (recordOfTableWord nbits w)

end Sys2Proof.Machine
end

