-- ==== Sys2Proof/Safety.lean ====
section
/-! DEFINITION. What counts as a safe run, and the terms the statements use: the acceptance table (30_encoding.md R102),
the invariant (10_state.md R48, 70_reset_and_hazards.md R283), the transitions of MODE and of a mapping (10_state.md R27,
R42), what an operation leaves unchanged, and what it adds to the trace of window accesses. -/

namespace Sys2Proof.Machine

/-- A safe run: a proof about the GSC is a proof about runs without refusals (60_exceptions.md R248). -/
def SafeRun (n : Nat) (s : State) : Prop := ∃ t, Host.Core.run Sys2Proof.core n s = .next t

/-- The acceptance table of 30_encoding.md R102, row by row. -/
def acceptedIn (i : Instr) (s : State) : Bool :=
  match i with
  | .mapopen w => s.mode == .reset && s.handle w == .unmapped
  | .mapclose w => (s.mode == .reset || s.mode == .ready || s.mode == .stopped) && s.handle w == .mapped
  | .init _ => s.mode == .reset && s.gmap == .unmapped
  | .tinit => s.mode == .reset && s.tmap == .unmapped
  | .teardown => s.mode == .reset || s.mode == .ready || s.mode == .stopped
  | .cfgout1 _ => s.gmap == .mapped && (s.mode == .reset || s.mode == .ready)
  | .cfgouts _ => s.gmap == .mapped && (s.mode == .reset || s.mode == .ready)
  | .set _ => s.gmap == .mapped && (s.mode == .reset || s.mode == .ready)
  | .clr _ => s.gmap == .mapped && (s.mode == .reset || s.mode == .ready)
  | .wrm _ _ => s.gmap == .mapped && (s.mode == .reset || s.mode == .ready)
  | .rdlev => s.gmap == .mapped && (s.mode == .reset || s.mode == .ready)
  | .rowaddr _ => s.mode != .running && s.mode != .faulted
  | .planebits _ _ _ => s.mode != .running && s.mode != .faulted
  | .tread => s.tmap == .mapped && (s.mode == .reset || s.mode == .ready)
  | .sleepns _ => s.tmap == .mapped && (s.mode == .reset || s.mode == .ready)
  | .advance => (s.mode == .reset || s.mode == .ready) && s.src.isSome
  | .clrcc => s.mode == .ready
  | .shiftcol _ _ _ => s.mode == .ready
  | .addr _ => s.mode == .ready
  | .latch => s.mode == .ready
  | .dwell _ => s.mode == .ready
  | .rowplane _ _ => s.mode == .ready
  | .sweep => s.mode == .ready
  | .scrollchk => s.mode == .ready
  | .run _ => s.mode == .ready

/-- A usable source image is present (42_frame.md R160). -/
def State.hasSource (s : State) : Bool :=
  match s.src with
  | none => false
  | some img => img.usable

/-- Both windows are mapped. -/
def State.bothMapped (s : State) : Bool := s.gmap == .mapped && s.tmap == .mapped

/-- Only the latch, what the panel observer sees of it, the trace and the passing of time differ. -/
def PinsAside (s t : State) : Prop :=
  t = { s with outlatch := t.outlatch, panel := t.panel, trace := t.trace, cnt := t.cnt, env := t.env, draws := t.draws }

/-- Only the trace and the passing of time differ. -/
def TimeAside (s t : State) : Prop := t = { s with trace := t.trace, cnt := t.cnt, env := t.env, draws := t.draws }

/-- Only the function-select words, the trace and the passing of time differ. -/
def FselAside (s t : State) : Prop :=
  t = { s with fsel := t.fsel, trace := t.trace, cnt := t.cnt, env := t.env, draws := t.draws }

/-- What one `set` or `clear` adds to the trace: 1 + SLOWDOWN separate identical writes (40_gpio.md R122, R123). -/
def writeBurst (s : State) (word : Nat) (mask : PinMask) : List BusEvent :=
  List.replicate (1 + s.slowdown.toNat) (.write .gpio word mask)

/-- An event is a read of the counter or a coarse sleep: all a delay ever does (20_memory.md R64). -/
def BusEvent.isDelay (p : Platform) : BusEvent → Bool
  | .read w word _ => w == .timer && word == p.timerWord
  | .write _ _ _ => false
  | .coarseSleep _ => true

/-- An event is a write of the GPIO window's word `word`. -/
def BusEvent.isWriteTo (word : Nat) : BusEvent → Bool
  | .read _ _ _ => false
  | .write w k _ => w == .gpio && k == word
  | .coarseSleep _ => false

/-- An event is a write of the GPIO window. -/
def BusEvent.isGpioWrite : BusEvent → Bool
  | .read _ _ _ => false
  | .write w _ _ => w == .gpio
  | .coarseSleep _ => false

/-- An event is a read of the GPIO window. -/
def BusEvent.isGpioRead : BusEvent → Bool
  | .read w _ _ => w == .gpio
  | .write _ _ _ => false
  | .coarseSleep _ => false

/-- The transitions of MODE (10_state.md R27). -/
def Mode.mayBecome : Mode → Mode → Bool
  | .reset, t => t == .reset || t == .ready || t == .faulted
  | .ready, t => t == .ready || t == .running
  | .running, t => t == .running || t == .stopped
  | .stopped, t => t == .stopped
  | .faulted, t => t == .faulted

/-- The order of a mapping's life: Unmapped, Mapped, Released (10_state.md R42). -/
def Handle.age : Handle → Nat
  | .unmapped => 0
  | .mapped => 1
  | .released => 2

/-- MODE is Ready, Running or Stopped: both constructions have completed (10_state.md R27). -/
def State.constructed (s : State) : Bool := s.mode == .ready || s.mode == .running || s.mode == .stopped

/-- The accesses under way, the next one first. -/
def Phase.accesses : Phase → List Access
  | .idle => []
  | .poll => []
  | .scroll => []
  | .load _ => []
  | .busy _ a rest => a :: rest

/-- The pins that a CFGOUTS or INIT under way is configuring. -/
def Phase.configuredPins : Phase → PinMask
  | .idle => 0
  | .poll => 0
  | .scroll => 0
  | .load _ => 0
  | .busy .plain _ _ => 0
  | .busy (.outputs m) _ _ => m
  | .busy (.init m) _ _ => m
  | .busy .rowPlane _ _ => 0
  | .busy .sweep _ _ => 0
  | .busy .stop _ _ => 0

/-- INIT is under way. -/
def Phase.inInit : Phase → Bool
  | .idle => false
  | .poll => false
  | .scroll => false
  | .load _ => false
  | .busy .plain _ _ => false
  | .busy (.outputs _) _ _ => false
  | .busy (.init _) _ _ => true
  | .busy .rowPlane _ _ => false
  | .busy .sweep _ _ => false
  | .busy .stop _ _ => false

/-- The controller is inside the micro-operation at POS, of a ROWPLANE command or of a sweep. -/
def Phase.inMicro : Phase → Bool
  | .idle => false
  | .poll => false
  | .scroll => false
  | .load _ => false
  | .busy .plain _ _ => false
  | .busy (.outputs _) _ _ => false
  | .busy (.init _) _ _ => false
  | .busy .rowPlane _ _ => true
  | .busy .sweep _ _ => true
  | .busy .stop _ _ => false

/-- The controller is inside step 6 of a row-plane, where alone OE is low. -/
def State.inDwell (s : State) : Bool := s.phase.inMicro && s.pos.step == .dwell

/-- The invariant every step keeps (10_state.md R22, R28, R42, R44, R48; 60_exceptions.md R246, R247;
70_reset_and_hazards.md R283); its last nine parts say what is left of an operation that is under way. -/
structure State.Inv (s : State) : Prop where
  /-- IN_BITS keeps 0 for ever (R22). -/
  inBits_zero : s.inBits = 0
  /-- COL is 0 in every step but step 2 (43_sequencer.md R191). -/
  col_zero : s.pos.step ≠ .shift → s.pos.col = 0
  /-- ERR records an error exactly in Faulted (R246). -/
  err_iff_faulted : s.err ≠ .none ↔ s.mode = .faulted
  /-- In Faulted nothing is mapped (R246). -/
  faulted_unmapped : s.mode = .faulted → s.gmap ≠ .mapped ∧ s.tmap ≠ .mapped
  /-- While Running both windows are mapped (R298). -/
  running_mapped : s.mode = .running → s.gmap = .mapped ∧ s.tmap = .mapped
  /-- OUT_BITS is a subset of VALID_PINS (R48 (d)). -/
  outBits_valid : s.outBits &&& ~~~s.platform.validPins = 0
  /-- Every pin of OUT_BITS has the output code in its field (R48 (c)). -/
  outBits_output : ∀ k : PinIndex, s.outBits.getLsbD k.val = true → isOutput s.fsel k = true
  /-- Nothing is configured before the GPIO window is mapped (R121). -/
  unmapped_untouched : s.gmap = .unmapped → s.outBits = 0
  /-- Ready, Running and Stopped come after a complete INIT (R27). -/
  constructed_init : s.constructed = true → s.initCompleted = true
  /-- After a complete INIT: ROW_MASK, the timing table, and every pin of `want` configured (R283). -/
  after_init : s.initCompleted = true →
    s.rowMask = rowMaskFor s.platform.pins Config.doubleRows ∧ s.timing = timingTable ∧
      initWant s.platform.pins s.rowMask &&& ~~~s.outBits = 0
  /-- 0 <= CURSOR < SRC_W (R44). -/
  cursor_range : ∀ img, s.src = some img → s.cursor < img.width
  /-- The phase is one of MODE's (R189, 30_encoding.md R102). -/
  phase_fits : s.phase.fits s.mode = true
  /-- A function-select word is written back only right after it was read. -/
  write_back_last : ∀ k old, .configureWrite k old ∉ s.phase.accesses.tail
  /-- It is written back with nothing but the pin's field changed (40_gpio.md R120). -/
  write_back_fresh : ∀ k old, s.phase.accesses.head? = some (.configureWrite k old) → old = s.fsel[fselWordOf k]
  /-- Only valid pins are being configured (40_gpio.md R121). -/
  configured_valid : s.phase.configuredPins &&& ~~~s.platform.validPins = 0
  /-- They are configured through the GPIO window, which is mapped (40_gpio.md R121). -/
  configured_mapped : s.phase.configuredPins ≠ 0 → s.gmap = .mapped
  /-- Each of them is an output or still to come. -/
  configured_output : ∀ k : PinIndex, s.phase.configuredPins.getLsbD k.val = true →
    isOutput s.fsel k = true ∨ .configure k ∈ s.phase.accesses ∨ ∃ old, .configureWrite k old ∈ s.phase.accesses
  /-- INIT has written ROW_MASK before it configures pins (44_system.md R222). -/
  init_rowMask : s.phase.inInit = true → s.rowMask = rowMaskFor s.platform.pins Config.doubleRows
  /-- Inside a micro-operation the clears to come are that micro-operation's, and a dwell's last access raises OE
  (43_sequencer.md R181 to R186). -/
  micro_accesses : s.phase.inMicro = true →
    (∀ mask left, .clear mask left ∈ s.phase.accesses → ∃ n, .clear mask n ∈ s.microAccesses s.pos) ∧
    (s.pos.step = .dwell → ∃ left, s.phase.accesses.getLast? = some (.set (pinBit s.platform.pins.oe) left))
  /-- Stop entry has nothing to do but to raise OE (43_sequencer.md R190). -/
  stop_accesses : ∀ a rest, s.phase = .busy .stop a rest → rest = [] ∧ ∃ left, a = .set (pinBit s.platform.pins.oe) left

/-- The same operation n times, one after another. -/
def execTimes (i : Instr) : Nat → State → Host.Outcome State Fault Refusal
  | 0, s => .next s
  | n + 1, s =>
    match exec i s with
    | .next s => execTimes i n s
    | .fault f => .fault f
    | .refused r => .refused r

/-- The bits of function-select word n that are no pin's field: 31:30, and in word 2 the fields of pins 28 and 29
(10_state.md R31). -/
def fselOutside (n : Fin 3) : Word := if n = 2 then 0xFF000000#32 else 0xC0000000#32

/-- The function-select words with pin k made an output (40_gpio.md R120). -/
def withOutput (fsel : Vector Word 3) (k : PinIndex) : Vector Word 3 :=
  fsel.set (fselWordOf k).val (fselWithOutput fsel[(fselWordOf k).val] k)

/-- What configuring pins one after another adds to the trace, oldest first: for each pin a read of word pin / 10 and then
the write of that word with the pin's field set to output (40_gpio.md R120, R121). -/
def configureEvents (fsel : Vector Word 3) : List PinIndex → List BusEvent
  | [] => []
  | k :: ks =>
    .read .gpio (k.val / 10) fsel[fselWordOf k] ::
      .write .gpio (k.val / 10) (fselWithOutput fsel[fselWordOf k] k) :: configureEvents (withOutput fsel k) ks

/-- A write of the GPIO window as (word, value). -/
def BusEvent.gpioWrite? : BusEvent → Option (Nat × Word)
  | .read _ _ _ => none
  | .write .gpio word v => some (word, v)
  | .write .timer _ _ => none
  | .coarseSleep _ => none

/-- The writes of the GPIO window among some events (newest first), in the order they were made. -/
def gpioWrites (evs : List BusEvent) : List (Nat × Word) := evs.reverse.filterMap BusEvent.gpioWrite?

/-- From s to t the controller made exactly the writes ws to the GPIO window, in this order, and read no word of it. -/
def Wrote (s t : State) (ws : List (Nat × Word)) : Prop :=
  ∃ evs, t.trace = evs ++ s.trace ∧ gpioWrites evs = ws ∧ evs.all (fun e => !e.isGpioRead) = true

/-- Each write of a list issued 1 + SLOWDOWN times (40_gpio.md R122, R123). -/
def repeated (s : State) (ws : List (Nat × Word)) : List (Nat × Word) :=
  ws.flatMap fun w => List.replicate (1 + s.slowdown.toNat) w

/-- The register writes of SHIFTCOL (43_sequencer.md R182), each issued 1 + SLOWDOWN times. -/
def columnWrites (s : State) (dr pl : Fin 8) (col : Fin 32) : List (Nat × Word) :=
  let cc := ccMask s.platform.pins
  let pb := planeBits s.platform.pins (topPixel s.frame dr col) (bottomPixel s.frame dr col) pl.val
  [(10, cc), (10, ~~~pb &&& cc), (7, pb), (7, pinBit s.platform.pins.clk)]

/-- The register writes of a row-plane, in the order of its six steps (43_sequencer.md R181 to R186), each issued
1 + SLOWDOWN times; the dwell's delay lies between the last two. -/
def rowPlaneWrites (s : State) (dr pl : Fin 8) : List (Nat × Word) :=
  let cc := ccMask s.platform.pins
  let address := rowAddressBits s.platform.pins s.rowMask dr.val
  [(10, cc)] ++ (List.finRange 32).flatMap (columnWrites s dr pl) ++ [(10, cc)]
    ++ [(10, ~~~address &&& s.rowMask), (7, address)]
    ++ [(7, pinBit s.platform.pins.lat), (10, pinBit s.platform.pins.lat)]
    ++ [(10, pinBit s.platform.pins.oe), (7, pinBit s.platform.pins.oe)]

/-- The register writes of a sweep: double-rows outside, bitplanes inside, both ascending (43_sequencer.md R187). -/
def sweepWrites (s : State) : List (Nat × Word) :=
  (List.finRange 8).flatMap fun dr => (List.finRange 8).flatMap (rowPlaneWrites s dr)

/-- The latch after a row-plane of double-row dr, from a start value: colour, clock and latch lines low, the address
lines show dr, OE high (43_sequencer.md R186). -/
def rowPlaneLatch (s : State) (dr : Nat) : Word :=
  ((s.outlatch &&& ~~~ccMask s.platform.pins &&& ~~~s.rowMask ||| rowAddressBits s.platform.pins s.rowMask dr)
    &&& ~~~pinBit s.platform.pins.lat) ||| pinBit s.platform.pins.oe

/-- What a busy-wait adds to the trace, newest first: readings of the counter and nothing else; the last has reached the
target, counted from the first, and no earlier one had (41_timer.md R145). -/
def BusyWaitEvents (p : Platform) (target : Nat) (evs : List BusEvent) : Prop :=
  ∃ first last mid,
    evs = .read .timer p.timerWord last :: mid ++ [.read .timer p.timerWord first] ∧
    target ≤ elapsed first last ∧
    ∀ e ∈ mid, ∃ v, e = .read .timer p.timerWord v ∧ elapsed first v < target

/-- What sleep_nanos(n) adds to the trace, newest first: up to the threshold a busy-wait of n / 1000 ticks; above it a
coarse sleep of n less the allowance between two readings, and then, unless they show that the request is met, a busy-wait
of what remains (41_timer.md R143). -/
def SleepEvents (p : Platform) (n : Nat) (evs : List BusEvent) : Prop :=
  (n ≤ p.sleepThresholdNs → BusyWaitEvents p (n / 1000) evs) ∧
  (p.sleepThresholdNs < n → ∃ pre post tail,
    evs = tail ++ [.read .timer p.timerWord post, .coarseSleep (n - p.jitterAllowanceNs), .read .timer p.timerWord pre] ∧
    (n ≤ elapsed pre post * 1000 → tail = []) ∧
    (elapsed pre post * 1000 < n → BusyWaitEvents p ((n - elapsed pre post * 1000) / 1000) tail))

/-- The sequencer operations (30_encoding.md R102, its last row). -/
def isSequencer : Instr → Bool
  | .mapopen _ => false
  | .mapclose _ => false
  | .init _ => false
  | .tinit => false
  | .teardown => false
  | .run _ => true
  | .cfgout1 _ => false
  | .cfgouts _ => false
  | .set _ => false
  | .clr _ => false
  | .wrm _ _ => false
  | .rowaddr _ => false
  | .rdlev => false
  | .tread => false
  | .sleepns _ => false
  | .advance => false
  | .planebits _ _ _ => false
  | .clrcc => true
  | .shiftcol _ _ _ => true
  | .addr _ => true
  | .latch => true
  | .dwell _ => true
  | .rowplane _ _ => true
  | .sweep => true
  | .scrollchk => true

/-- The sequencer operations that use the timer window (43_sequencer.md R185 to R189). -/
def usesTimer : Instr → Bool
  | .mapopen _ => false
  | .mapclose _ => false
  | .init _ => false
  | .tinit => false
  | .teardown => false
  | .run _ => true
  | .cfgout1 _ => false
  | .cfgouts _ => false
  | .set _ => false
  | .clr _ => false
  | .wrm _ _ => false
  | .rowaddr _ => false
  | .rdlev => false
  | .tread => false
  | .sleepns _ => false
  | .advance => false
  | .planebits _ _ _ => false
  | .clrcc => false
  | .shiftcol _ _ _ => false
  | .addr _ => false
  | .latch => false
  | .dwell _ => true
  | .rowplane _ _ => true
  | .sweep => true
  | .scrollchk => true

/-- The rows of spec/opcode_table.json as (match, mask): a record is legal exactly when it agrees with a row's match on
the row's mask (30_encoding.md R97, R98, R100). -/
def commandRows : List (Record × Record) :=
  [(0x010000000000000000#72, 0xFFFFFFFFFEFFFFFFFF#72),
   (0x020000000000000000#72, 0xFFFFFFFFFEFFFFFFFF#72),
   (0x030000000000000000#72, 0xFF00000000FFFFFFFF#72),
   (0x040000000000000000#72, 0xFFFFFFFFFFFFFFFFFF#72),
   (0x050000000000000000#72, 0xFFFFFFFFFFFFFFFFFF#72),
   (0x060000000000000000#72, 0xFFFFFFFFFEFFFFFFFF#72),
   (0x100000000000000000#72, 0xFF00000000FFFFFFFF#72),
   (0x110000000000000000#72, 0xFF00000000FFFFFFFF#72),
   (0x120000000000000000#72, 0xFF00000000FFFFFFFF#72),
   (0x130000000000000000#72, 0xFF00000000FFFFFFFF#72),
   (0x140000000000000000#72, 0xFF0000000000000000#72),
   (0x150000000000000000#72, 0xFF00000000FFFFFFFF#72),
   (0x160000000000000000#72, 0xFFFFFFFFFFFFFFFFFF#72),
   (0x200000000000000000#72, 0xFFFFFFFFFFFFFFFFFF#72),
   (0x210000000000000000#72, 0xFF00000000FFFFFFFF#72),
   (0x300000000000000000#72, 0xFFFFFFFFFFFFFFFFFF#72),
   (0x310000000000000000#72, 0xFFFF00000000000000#72),
   (0x400000000000000000#72, 0xFFFFFFFFFFFFFFFFFF#72),
   (0x410000000000000000#72, 0xFF00000000FFFF0000#72),
   (0x420000000000000000#72, 0xFF00000000FFFFFFFF#72),
   (0x430000000000000000#72, 0xFFFFFFFFFFFFFFFFFF#72),
   (0x440000000000000000#72, 0xFF00000000FFFFFFFF#72),
   (0x450000000000000000#72, 0xFF0000000000000000#72),
   (0x460000000000000000#72, 0xFFFFFFFFFFFFFFFFFF#72),
   (0x470000000000000000#72, 0xFFFFFFFFFFFFFFFFFF#72)]

/-- The six lines a column's pixel pair shows in a bitplane (42_frame.md R161, 43_sequencer.md R204). -/
def columnLines (frame : FrameGrid) (dr pl : Fin 8) (col : Fin 32) : SixLines :=
  { r1 := (topPixel frame dr col).r.getLsbD pl.val, g1 := (topPixel frame dr col).g.getLsbD pl.val,
    b1 := (topPixel frame dr col).b.getLsbD pl.val, r2 := (bottomPixel frame dr col).r.getLsbD pl.val,
    g2 := (bottomPixel frame dr col).g.getLsbD pl.val, b2 := (bottomPixel frame dr col).b.getLsbD pl.val }

end Sys2Proof.Machine
end

