-- ==== Sys2Proof/Certificates/Slice0/Obligations.lean ====
section
/-! DEFINITION. The statements for the provers, from the numbered rules of spec/. A free value (the counter's advance, a
coarse sleep's length, the level of a pin that is not an output) is nowhere fixed: where one enters a result, the statement
holds for every value of it. The trace holds the newest event first. -/

section
open Sys2Proof Sys2Proof.Machine

/-! ### Encoding -/

/-- Records written out from 30_encoding.md R95, R96, R100 decode to the operations they stand for, one or more of every
family; the last three are illegal commands (R97, R98). -/
def Obligations.WrittenRecordsDecode : Prop :=
  decodeTableWord 72 0x010000000100000000 = some (.mapopen .timer) ∧
  decodeTableWord 72 0x030000000100000000 = some (.init 1) ∧
  decodeTableWord 72 0x100000001100000000 = some (.cfgout1 ⟨17⟩) ∧
  decodeTableWord 72 0x140001004000833060 = some (.wrm 0x00010040#32 0x00833060#32) ∧
  decodeTableWord 72 0x210001F40000000000 = some (.sleepns 128000) ∧
  decodeTableWord 72 0x31008001000700FFAA =
    some (.planebits ⟨0x80#8, 0x01#8, 0x00#8⟩ 0x07#8 ⟨0x00#8, 0xFF#8, 0xAA#8⟩) ∧
  decodeTableWord 72 0x41000000070000071F = some (.shiftcol 7 7 31) ∧
  decodeTableWord 72 0x060000000100000000 = some (.run true) ∧
  decodeTableWord 72 0x000000000000000000 = none ∧
  decodeTableWord 72 0x120000001000000001 = none ∧
  decodeTableWord 72 0x060000000200000000 = none

/-- Decoding the record of an operation gives the operation back, for every operation and every operand value. -/
def Obligations.DecodeOfEncodeIsTheOperation : Prop := ∀ i : Instr, decode (encode i) = .ok i

/-- A legal record is the record of the operation it decodes to: no bit of a legal record is ignored. -/
def Obligations.EncodeOfDecodeIsTheRecord : Prop := ∀ (r : Record) (i : Instr), decode r = .ok i → encode i = r

/-- A record is a legal command exactly when it agrees with a row of the operation table: an opcode of the table, and
every reserved bit zero (30_encoding.md R97, R98, R100). -/
def Obligations.LegalRecordsAreTheTableRows : Prop :=
  ∀ r : Record, (∃ i, decode r = .ok i) ↔ ∃ row ∈ commandRows, r &&& row.2 = row.1

/-! ### Steps, the host and refusals -/

/-- One step makes at most one access: it adds one event to the trace or none. When the idle controller's next input is a
legal record, the operation it decodes to runs, access by access: if exec answers, n + 1 steps lead to exactly that answer,
and between them the operation is under way; if exec refuses the operation, the very next step refuses it and no access is
made. exec is taken at the state with the input taken and the host's clock advanced (STOP_REQ set when its moment has come);
each further step advances that clock once more. The queue of inputs and the schedule are the model's form of R262 and R250
(log entry 10); that an operation without an access takes one step too is log entry 1. -/
def Obligations.StepRunsTheDecodedOperation : Prop :=
  (∀ s t : State, step s = .next t → t.trace = s.trace ∨ ∃ e, t.trace = e :: s.trace) ∧
  ∀ (s : State) (r : Record) (rest : List HostInput) (i : Instr),
    s.phase = .idle → s.mode ≠ .running → s.inputs = .command r :: rest → decode r = .ok i →
    (let s' := { s with
       inputs := rest
       stopReq := s.stopReq || s.stopAfter == some 0
       stopAfter := s.stopAfter.bind fun n => if n = 0 then none else some (n - 1) }
     (∀ t, exec i s' = .next t →
       ∃ n, Host.Core.run Sys2Proof.core (n + 1) s = .next (Nat.repeat State.hostTick n t) ∧
        ∀ k, 0 < k → k ≤ n → ∃ u, Host.Core.run Sys2Proof.core k s = .next u ∧ u.phase ≠ .idle ∧ u.phase ≠ .poll) ∧
     (∀ why, exec i s' = .refused why → step s = .refused why))

/-- A step of the idle controller whose next input is not a legal record is refused as an illegal command. -/
def Obligations.IllegalRecordIsRefused : Prop :=
  ∀ (s : State) (r : Record) (rest : List HostInput),
    s.phase = .idle → s.mode ≠ .running → s.inputs = .command r :: rest → (∀ i, decode r ≠ .ok i) →
    step s = .refused .illegalCommand

/-- refuse(WrongState) is answered exactly outside the acceptance table: in no other case, and for no other reason. The
refusals that are not WrongState are the model's choices where the rules give no name: a source image that is present but
not usable (log entry 12), and SCROLLCHK or RUN in Ready with a window closed (log entry 13). -/
def Obligations.WrongStateExactlyOutsideTheTable : Prop :=
  ∀ (i : Instr) (s : State), exec i s = .refused .wrongState ↔ acceptedIn i s = false

/-- Once the mode is checked, the other refusals come by their own names: an operand out of range (CFGOUT1 above 27, and
SHIFTCOL, DWELL, ROWPLANE with dr or pl above 7 or col above 31); and, for a sequencer operation in Ready with operands in
range, a window it needs that is not Mapped: the GPIO window for all nine, the TIMER window for DWELL, ROWPLANE, SWEEP,
SCROLLCHK and RUN. That SCROLLCHK and RUN need both windows open is log entry 13; the window refusals' name is log entry 14. -/
def Obligations.OperandOutOfRangeIsRefused : Prop :=
  (∀ (i : Instr) (s : State), acceptedIn i s = true → i.wellFormed = false →
    exec i s = .refused (match i with | .cfgout1 _ => .pinIndexOutOfRange | _ => .indexOutOfRange)) ∧
  (∀ (i : Instr) (s : State), isSequencer i = true → s.mode = .ready → i.wellFormed = true → s.gmap ≠ .mapped →
    exec i s = .refused (.windowNotMapped .gpio)) ∧
  (∀ (i : Instr) (s : State), usesTimer i = true → s.mode = .ready → i.wellFormed = true → s.gmap = .mapped →
    s.tmap ≠ .mapped → exec i s = .refused (.windowNotMapped .timer))

/-- Reset leaves the values of 10_state.md R49, whatever the platform's registers, the frame, the source image, the panel,
the environment and the host's inputs are at the start. -/
def Obligations.ResetLeavesTheListedValues : Prop :=
  ∀ (pl : Platform) (fsel : Vector Word 3) (outlatch cnt : Word) (frame : FrameGrid) (src : Option SourceImage)
    (panel : Panel) (env : Env) (inputs : List HostInput) (stopAfter : Option Nat),
    let s := State.start pl fsel outlatch cnt frame src panel env inputs stopAfter
    s.outBits = 0 ∧ s.inBits = 0 ∧ s.slowdown = 0 ∧ s.res = 0 ∧ s.rowMask = 0 ∧ (∀ k : Fin 8, s.timing[k] = 0) ∧
      s.mode = .reset ∧ s.pos.dr = 0 ∧ s.pos.pl = 0 ∧ s.pos.col = 0 ∧ s.pos.step.number = 1 ∧ s.stopReq = false ∧
      s.scrollEn = false ∧ s.err = .none ∧ s.err.code = 0 ∧ s.gmap = .unmapped ∧ s.tmap = .unmapped ∧ s.cursor = 0 ∧
      s.lastScroll = 0 ∧ s.fsel = fsel ∧ s.outlatch = outlatch ∧ s.cnt = cnt ∧ s.frame = frame ∧ s.src = src ∧
      s.platform = pl ∧ s.trace = []

/-! ### Whole-machine rules -/

/-- Every start state meets the invariant, State.reset among them. -/
def Obligations.EveryStartStateMeetsTheInvariant : Prop :=
  State.reset.Inv ∧
  ∀ (pl : Platform) (fsel : Vector Word 3) (outlatch cnt : Word) (frame : FrameGrid) (panel : Panel) (env : Env)
    (inputs : List HostInput) (stopAfter : Option Nat) (src : Option SourceImage),
    (∀ img, src = some img → 0 < img.width) →
      (State.start pl fsel outlatch cnt frame src panel env inputs stopAfter).Inv

/-- From every state that meets the invariant, a step that answers gives a state that meets it. -/
def Obligations.EveryStepKeepsTheInvariant : Prop :=
  ∀ s t : State, s.Inv → step s = .next t → t.Inv

/-- MODE changes only along its diagram: Reset to Ready or Faulted, Ready to Running, Running to Stopped; Stopped and
Faulted have no exit. -/
def Obligations.ModeFollowsItsDiagram : Prop :=
  ∀ s t : State, step s = .next t → s.mode.mayBecome t.mode = true

/-- A mapping only goes from Unmapped to Mapped to Released, never back: it is released at most once. -/
def Obligations.MappingsAreReleasedOnce : Prop :=
  ∀ s t : State, step s = .next t → s.gmap.age ≤ t.gmap.age ∧ s.tmap.age ≤ t.tmap.age

/-- STOP_REQ is false at reset; a step sets it exactly when the host's moment has come and never clears it; the controller,
whatever it does, never writes it; setting it when it is true changes nothing. The host's moment is the model's schedule
(log entry 10). -/
def Obligations.StopRequestIsSetByTheHostOnly : Prop :=
  State.reset.stopReq = false ∧
  (∀ s t : State, step s = .next t → t.stopReq = (s.stopReq || s.stopAfter == some 0)) ∧
  (∀ s t : State, controllerStep s = .next t → t.stopReq = s.stopReq) ∧
  (∀ s : State, s.stopReq = true → s.requestStop = s)

/-- Only MAPOPEN, INIT and TINIT raise a fault; no step of the running loop does. -/
def Obligations.OnlyConstructionRaisesFaults : Prop :=
  (∀ (i : Instr) (s t : State), exec i s = .next t → t.mode = .faulted →
    (∃ w, i = .mapopen w) ∨ (∃ n, i = .init n) ∨ i = .tinit) ∧
  (∀ s t : State, s.mode = .running → step s = .next t → t.mode ≠ .faulted ∧ t.err = s.err)

/-- In Faulted no operation is accepted, and a step changes nothing but what the host hands in: ERR is not written again,
no register is, and no window is accessed. -/
def Obligations.FaultedIsTerminal : Prop :=
  ∀ s : State, s.mode = .faulted →
    (∀ i, exec i s = .refused .wrongState) ∧
    (∀ t, step s = .next t →
      t = { s with inputs := t.inputs, src := t.src, stopReq := t.stopReq, stopAfter := t.stopAfter })

/-- After Stopped the pins keep their last levels: no step writes a function-select word or the latch, and no window is
accessed. -/
def Obligations.StoppedKeepsThePins : Prop :=
  ∀ s t : State, s.mode = .stopped → step s = .next t →
    t.mode = .stopped ∧ t.fsel = s.fsel ∧ t.outlatch = s.outlatch ∧ t.panel = s.panel ∧ t.trace = s.trace ∧
      t.err = s.err ∧ t.frame = s.frame

/-- The frame changes only by a scroll load from the source image, which moves the cursor by one; while Running it changes
in the step of the scroll load alone, never inside a sweep. The source image changes only when the idle controller takes one
from the host, never while Running; taking one replaces the old one if the cursor stays in range, else it is refused (log
entry 11). -/
def Obligations.FrameChangesOnlyByScrollLoad : Prop :=
  (∀ s t : State, step s = .next t →
    (t.frame = s.frame ∧ t.cursor = s.cursor ∨
      ∃ img, s.src = some img ∧ img.usable = true ∧
        (∀ (r : Fin 16) (c : Fin 32), (t.frame[r])[c] = img.pixel r.val ((s.cursor + c.val) % img.width)) ∧
        t.cursor = (s.cursor + 1) % img.width) ∧
    (s.mode = .running → (∀ now, s.phase ≠ .load now) → t.frame = s.frame ∧ t.cursor = s.cursor) ∧
    (s.mode = .running → t.src = s.src) ∧
    (t.src = s.src ∨ ∃ img rest, s.phase = .idle ∧ s.inputs = .source img :: rest ∧ t.src = some img)) ∧
  (∀ (s : State) (img : SourceImage) (rest : List HostInput),
    s.phase = .idle → s.mode ≠ .running → s.inputs = .source img :: rest →
    step s = if s.cursor < img.width then .next { s.hostTick with inputs := rest, src := some img }
      else .refused .sourceRejected)

/-- From a state that meets the invariant: OUT_BITS never loses a bit, IN_BITS is never written, the platform's parameters
never change; a step leaves every pin's function-select field as it was or makes it the output code, and never touches the bits that are no pin's field. -/
def Obligations.ConfigurationOnlyGrows : Prop :=
  ∀ s t : State, s.Inv → step s = .next t →
    s.outBits &&& ~~~t.outBits = 0 ∧ t.inBits = s.inBits ∧ t.platform = s.platform ∧
    (∀ k : PinIndex, fselField t.fsel k = fselField s.fsel k ∨ fselField t.fsel k = 0b001#3) ∧
    (∀ n : Fin 3, t.fsel[n] &&& fselOutside n = s.fsel[n] &&& fselOutside n)

/-! ### The GPIO operations -/

/-- SET, accepted, completes: the named latch bits are 1, every other bit is as it was; 1 + SLOWDOWN writes of the mask to
word 7 and no other access; nothing else changes. -/
def Obligations.SetRaisesTheNamedPins : Prop :=
  ∀ (mask : PinMask) (s : State), acceptedIn (.set mask) s = true →
    ∃ t, exec (.set mask) s = .next t ∧ PinsAside s t ∧
      t.trace = List.replicate (1 + s.slowdown.toNat) (.write .gpio 7 mask) ++ s.trace ∧
      ∀ k < 32, t.outlatch.getLsbD k = (s.outlatch.getLsbD k || mask.getLsbD k)

/-- CLR, accepted, completes: the named latch bits are 0, every other bit is as it was; 1 + SLOWDOWN writes of the mask to
word 10 and no other access; nothing else changes. -/
def Obligations.ClrLowersTheNamedPins : Prop :=
  ∀ (mask : PinMask) (s : State), acceptedIn (.clr mask) s = true →
    ∃ t, exec (.clr mask) s = .next t ∧ PinsAside s t ∧
      t.trace = List.replicate (1 + s.slowdown.toNat) (.write .gpio 10 mask) ++ s.trace ∧
      ∀ k < 32, t.outlatch.getLsbD k = (s.outlatch.getLsbD k && !mask.getLsbD k)

/-- WRM, accepted, completes: latch bits in the mask take the value's bits, the others stay; first 1 + SLOWDOWN writes of
~value & mask to word 10, then 1 + SLOWDOWN writes of value & mask to word 7; nothing else changes. -/
def Obligations.WrmClearsThenSetsUnderTheMask : Prop :=
  ∀ (value mask : PinMask) (s : State), acceptedIn (.wrm value mask) s = true →
    ∃ t, exec (.wrm value mask) s = .next t ∧ PinsAside s t ∧
      t.trace = List.replicate (1 + s.slowdown.toNat) (.write .gpio 7 (value &&& mask)) ++
        (List.replicate (1 + s.slowdown.toNat) (.write .gpio 10 (~~~value &&& mask)) ++ s.trace) ∧
      ∀ k < 32, t.outlatch.getLsbD k = (if mask.getLsbD k then value.getLsbD k else s.outlatch.getLsbD k)

/-- The write-masked law with a read-back: after WRM and then RDLEV, RES shows, on every output pin, the value's bit inside
the mask and the latch's bit from before outside it; and the same WRM again leaves the latch as it is. -/
def Obligations.WriteMaskedLawOnReadBack : Prop :=
  ∀ (value mask : PinMask) (s : State), acceptedIn (.wrm value mask) s = true →
    ∃ t u v, exec (.wrm value mask) s = .next t ∧ exec .rdlev t = .next u ∧ exec (.wrm value mask) t = .next v ∧
      (∀ k : PinIndex, isOutput s.fsel k = true →
        u.res.getLsbD k.val = (if mask.getLsbD k.val then value.getLsbD k.val else s.outlatch.getLsbD k.val)) ∧
      v.outlatch = t.outlatch

/-- RDLEV, accepted, completes: RES shows the latch on every pin whose field is the output code (the other bits are draws);
one read of word 13; nothing else changes. -/
def Obligations.RdlevReadsTheOutputPins : Prop :=
  ∀ s : State, acceptedIn .rdlev s = true →
    ∃ t, exec .rdlev s = .next t ∧
      t = { s with res := t.res, trace := .read .gpio 13 t.res :: s.trace, cnt := t.cnt, env := t.env, draws := t.draws } ∧
      ∀ k : PinIndex, isOutput s.fsel k = true → t.res.getLsbD k.val = s.outlatch.getLsbD k.val

/-- CFGOUT1 with a pin 0 to 27, accepted, completes: the pin's field is the output code, every other field and every bit
outside the fields is as it was; one read and one write of word pin / 10, in that order; OUT_BITS is not written. -/
def Obligations.Cfgout1MakesThePinAnOutput : Prop :=
  ∀ (pin : PinOperand) (k : PinIndex) (s : State), acceptedIn (.cfgout1 pin) s = true → pin.raw.toNat = k.val →
    ∃ t old new, exec (.cfgout1 pin) s = .next t ∧ FselAside s t ∧
      t.trace = [.write .gpio (k.val / 10) new, .read .gpio (k.val / 10) old] ++ s.trace ∧
      fselField t.fsel k = 0b001#3 ∧
      (∀ j : PinIndex, j ≠ k → fselField t.fsel j = fselField s.fsel j) ∧
      (∀ n : Fin 3, t.fsel[n] &&& fselOutside n = s.fsel[n] &&& fselOutside n) ∧
      (∀ n : Fin 3, n.val = k.val / 10 → s.fsel[n] = old ∧ t.fsel[n] = new)

/-- CFGOUTS, accepted, completes: RES is the mask of the pins newly configured, which are the named pins that are valid and
in neither OUT_BITS nor IN_BITS; OUT_BITS takes them in; their fields are the output code and no other field changes. The
accesses it makes are, for each of these pins in ascending order, one read of word pin / 10 and then the write of that word
with the pin's field set to output, and no other. Doing it again configures nothing, makes no access, and leaves RES = 0. -/
def Obligations.CfgoutsConfiguresTheNewValidPins : Prop :=
  ∀ (mask : PinMask) (s : State), acceptedIn (.cfgouts mask) s = true →
    ∃ t, exec (.cfgouts mask) s = .next t ∧
      t = { s with
        res := mask &&& s.platform.validPins &&& ~~~(s.outBits ||| s.inBits)
        outBits := s.outBits ||| (mask &&& s.platform.validPins &&& ~~~(s.outBits ||| s.inBits))
        fsel := t.fsel, cnt := t.cnt, env := t.env, draws := t.draws
        trace := (configureEvents s.fsel ((List.finRange 28).filter fun k => t.res.getLsbD k.val)).reverse ++ s.trace } ∧
      (∀ k : PinIndex, t.res.getLsbD k.val = true → fselField t.fsel k = 0b001#3) ∧
      (∀ k : PinIndex, t.res.getLsbD k.val = false → fselField t.fsel k = fselField s.fsel k) ∧
      (∀ n : Fin 3, t.fsel[n] &&& fselOutside n = s.fsel[n] &&& fselOutside n) ∧
      exec (.cfgouts mask) t = .next { t with res := 0 }

/-- ROWADDR, accepted, completes: RES has exactly the bits of ROW_MASK that are the address pin A to E of a set bit 0 to 4
of the index; nothing else changes. -/
def Obligations.RowaddrSelectsTheAddressPins : Prop :=
  ∀ (dr : Word) (s : State), acceptedIn (.rowaddr dr) s = true →
    ∃ t, exec (.rowaddr dr) s = .next t ∧ t = { s with res := t.res } ∧
      ∀ k < 32, t.res.getLsbD k = (s.rowMask.getLsbD k &&
        (dr.getLsbD 0 && s.platform.pins.a.val == k || dr.getLsbD 1 && s.platform.pins.b.val == k ||
          dr.getLsbD 2 && s.platform.pins.c.val == k || dr.getLsbD 3 && s.platform.pins.d.val == k ||
          dr.getLsbD 4 && s.platform.pins.e.val == k))

/-- With pairwise different pins and the row mask of this geometry, the eight double-rows have eight different addresses,
and double-row 7 has all three address pins. -/
def Obligations.DoubleRowsHaveDistinctAddresses : Prop :=
  ∀ p : PinTable, p.disjoint = true →
    rowMaskFor p 8 = pinBit p.a ||| pinBit p.b ||| pinBit p.c ∧
    (∀ d e : Fin 8, rowAddressBits p (rowMaskFor p 8) d.val = rowAddressBits p (rowMaskFor p 8) e.val → d = e) ∧
    rowAddressBits p (rowMaskFor p 8) 7 = pinBit p.a ||| pinBit p.b ||| pinBit p.c

/-! ### The timer operations -/

/-- TREAD, accepted, completes: RES is the count at that moment, one read of the counter; nothing else changes. -/
def Obligations.TreadReadsTheCounter : Prop :=
  ∀ s : State, acceptedIn .tread s = true →
    ∃ t, exec .tread s = .next t ∧
      t = { s with
        res := t.cnt, trace := .read .timer s.platform.timerWord t.cnt :: s.trace, cnt := t.cnt, env := t.env,
        draws := t.draws }

/-- The wrap-corrected difference: post - pre when post is not smaller, else (0xFFFFFFFF - pre) + post; equal readings give
0; across fewer than 2^32 true ticks it is exact without a wrap and one tick less across one wrap. -/
def Obligations.ElapsedIsWrapCorrected : Prop :=
  (∀ pre post : Word, pre ≤ post → elapsed pre post = post.toNat - pre.toNat) ∧
  (∀ pre post : Word, post < pre → elapsed pre post = (0xFFFFFFFF - pre.toNat) + post.toNat ∧
    elapsed pre post = post.toNat + 0xFFFFFFFF - pre.toNat) ∧
  (∀ pre : Word, elapsed pre pre = 0) ∧
  (∀ (pre : Word) (ticks : Nat), ticks < 2 ^ 32 →
    elapsed pre (pre + BitVec.ofNat 32 ticks) = if pre.toNat + ticks < 2 ^ 32 then ticks else ticks - 1)

/-- SLEEPNS, accepted, completes for every request: time passes, and the only events are counter reads and coarse sleeps. -/
def Obligations.SleepnsAlwaysReturns : Prop :=
  ∀ (n : Word) (s : State), acceptedIn (.sleepns n) s = true →
    ∃ t evs, exec (.sleepns n) s = .next t ∧ TimeAside s t ∧ t.trace = evs ++ s.trace ∧ evs ≠ [] ∧
      ∀ e ∈ evs, (∃ v, e = .read .timer s.platform.timerWord v) ∨ ∃ d, e = .coarseSleep d

/-- A request not above the threshold is a busy-wait only: the counter is read until the elapsed count reaches n / 1000
ticks, no earlier reading having reached it, and the last reading is the count the operation leaves. -/
def Obligations.ShortSleepWaitsTheWholeRequest : Prop :=
  ∀ (n : Word) (s : State), acceptedIn (.sleepns n) s = true → n.toNat ≤ s.platform.sleepThresholdNs →
    ∃ t start mid, exec (.sleepns n) s = .next t ∧
      t.trace = .read .timer s.platform.timerWord t.cnt :: mid ++ (.read .timer s.platform.timerWord start :: s.trace) ∧
      n.toNat / 1000 ≤ elapsed start t.cnt ∧
      ∀ e ∈ mid, ∃ v, e = .read .timer s.platform.timerWord v ∧ elapsed start v < n.toNat / 1000

/-- A request above the threshold takes a coarse sleep of n less the allowance between two readings; if the elapsed time
they show meets the request it returns at once, else a busy-wait takes the remainder: the counter is read, and nothing else,
until the elapsed count reaches it, no earlier reading having done so. On a platform whose allowance exceeds the request, so
above the threshold against R12, the coarse sleep's length is cut off at 0 (log entry 2); that the wait ends is fairness (log
entry 5). -/
def Obligations.LongSleepTakesOffTheCoarseSleep : Prop :=
  ∀ (n : Word) (s : State), acceptedIn (.sleepns n) s = true → s.platform.sleepThresholdNs < n.toNat →
    ∃ t pre post, exec (.sleepns n) s = .next t ∧
      (let head := [BusEvent.read .timer s.platform.timerWord post,
          .coarseSleep (n.toNat - s.platform.jitterAllowanceNs), .read .timer s.platform.timerWord pre]
       (n.toNat ≤ elapsed pre post * 1000 → t.trace = head ++ s.trace) ∧
       (elapsed pre post * 1000 < n.toNat → ∃ start mid,
          t.trace = .read .timer s.platform.timerWord t.cnt :: mid ++
            (.read .timer s.platform.timerWord start :: (head ++ s.trace)) ∧
          (n.toNat - elapsed pre post * 1000) / 1000 ≤ elapsed start t.cnt ∧
          ∀ e ∈ mid, ∃ v, e = .read .timer s.platform.timerWord v ∧
            elapsed start v < (n.toNat - elapsed pre post * 1000) / 1000))

/-! ### The frame operations -/

/-- ADVANCE in Reset or Ready with a source image: with a usable one it completes, the frame shows the image's columns from
the cursor on, cyclically, the cursor moves by one, and nothing else changes; with one that is too small or ill-formed it is
refused, by a name that is the model's choice (log entry 12). -/
def Obligations.AdvanceLoadsTheScrolledFrame : Prop :=
  ∀ s : State, acceptedIn .advance s = true →
    (∀ img, s.src = some img → img.usable = true →
      ∃ t, exec .advance s = .next t ∧
        t = { s with frame := t.frame, cursor := (s.cursor + 1) % img.width } ∧
        ∀ (r : Fin 16) (c : Fin 32), (t.frame[r])[c] = img.pixel r.val ((s.cursor + c.val) % img.width)) ∧
    (s.hasSource = false → exec .advance s = .refused .noUsableSource)

/-- The scroll is cyclic: from CURSOR = 0, ADVANCE number j loads the frame with source columns (j - 1 + c) % SRC_W and
leaves CURSOR = j % SRC_W; so SRC_W of them bring the cursor back to 0 and one more loads the frame of the first; and one
ADVANCE of an all-black image leaves the frame all black and the cursor 1. -/
def Obligations.ScrollIsCyclic : Prop :=
  ∀ (s : State) (img : SourceImage), acceptedIn .advance s = true → s.src = some img → img.usable = true →
    s.cursor = 0 →
    (∀ j, 1 ≤ j → ∃ t, execTimes .advance j s = .next t ∧ t.cursor = j % img.width ∧
      ∀ (r : Fin 16) (c : Fin 32), (t.frame[r])[c] = img.pixel r.val ((j - 1 + c.val) % img.width)) ∧
    (∃ first whole more, execTimes .advance 1 s = .next first ∧ execTimes .advance img.width s = .next whole ∧
      execTimes .advance (img.width + 1) s = .next more ∧
      first.cursor = 1 ∧ whole.cursor = 0 ∧ more.cursor = first.cursor ∧ more.frame = first.frame) ∧
    ((∀ r c, img.pixel r c = Pixel.black) →
      ∃ t, exec .advance s = .next t ∧ t.frame = FrameGrid.black ∧ t.cursor = 1)

/-- plane_bits: for pairwise different pins, each colour line shows the plane's bit of its own channel, independent of the
others, and no other pin is ever set; for a plane of 8 or more it is 0. -/
def Obligations.PlaneBitsMapChannelsToPins : Prop :=
  ∀ (p : PinTable) (top bottom : Pixel) (plane : Nat), p.disjoint = true →
    let r := planeBits p top bottom plane
    r.getLsbD p.r1.val = top.r.getLsbD plane ∧ r.getLsbD p.g1.val = top.g.getLsbD plane ∧
      r.getLsbD p.b1.val = top.b.getLsbD plane ∧ r.getLsbD p.r2.val = bottom.r.getLsbD plane ∧
      r.getLsbD p.g2.val = bottom.g.getLsbD plane ∧ r.getLsbD p.b2.val = bottom.b.getLsbD plane ∧
      r &&& ~~~colorMask p = 0 ∧ r.getLsbD p.clk.val = false ∧ (8 ≤ plane → r = 0)

/-- PLANEBITS, accepted, completes: RES is plane_bits of its operands; nothing else changes. -/
def Obligations.PlanebitsLeavesThePlaneBits : Prop :=
  ∀ (top : Pixel) (plane : Byte) (bottom : Pixel) (s : State), acceptedIn (.planebits top plane bottom) s = true →
    exec (.planebits top plane bottom) s =
      .next { s with res := planeBits s.platform.pins top bottom plane.toNat }

/-- Binary-code modulation is linear: a channel value v is commanded on for 1000 * v ns in one pass over the eight planes,
and the table doubles from plane to plane. -/
def Obligations.ModulatedDwellIsLinear : Prop :=
  (∀ v : Byte, ((List.finRange 8).map fun k => if v.getLsbD k.val then (timingTable[k]).toNat else 0).sum = 1000 * v.toNat) ∧
  (timingTable[0]).toNat = 1000 ∧
  (∀ k : Fin 7, (timingTable[k.val + 1]).toNat = 2 * (timingTable[k.val]).toNat)

/-! ### The sequencer -/

/-- CLRCC: its record; refused outside Ready; in Ready with the window mapped it completes: the six colour lines and CLK
are low, every other pin unchanged, 1 + SLOWDOWN writes of CC_MASK to word 10 also when they are low already. -/
def Obligations.ClrccLowersColourAndClock : Prop :=
  encode .clrcc = 0x400000000000000000#72 ∧
  (∀ s : State, s.mode ≠ .ready → exec .clrcc s = .refused .wrongState) ∧
  (∀ s : State, s.mode = .ready → s.gmap = .mapped →
    ∃ t, exec .clrcc s = .next t ∧ PinsAside s t ∧ t.outlatch = s.outlatch &&& ~~~ccMask s.platform.pins ∧
      t.trace = List.replicate (1 + s.slowdown.toNat) (.write .gpio 10 (ccMask s.platform.pins)) ++ s.trace ∧
      (∀ k, k ∈ [s.platform.pins.r1, s.platform.pins.g1, s.platform.pins.b1, s.platform.pins.r2, s.platform.pins.g2,
        s.platform.pins.b2, s.platform.pins.clk] → t.outlatch.getLsbD k.val = false))

/-- SHIFTCOL with operands in range, in Ready with the window mapped, completes: the colour lines show the plane bits of the
two pixels, CLK is high, every other pin is unchanged; the four bursts of writes in their order; nothing else changes. -/
def Obligations.ShiftcolShiftsOneColumn : Prop :=
  ∀ (dr : Word) (pl col : Byte) (d p : Fin 8) (c : Fin 32) (s : State), s.mode = .ready → s.gmap = .mapped →
    dr.toNat = d.val → pl.toNat = p.val → col.toNat = c.val →
    ∃ t, exec (.shiftcol dr pl col) s = .next t ∧ PinsAside s t ∧
      t.outlatch = s.outlatch &&& ~~~ccMask s.platform.pins |||
        planeBits s.platform.pins ((s.frame[d.val])[c]) ((s.frame[d.val + 8])[c]) p.val ||| pinBit s.platform.pins.clk ∧
      Wrote s t (repeated s
        (let pb := planeBits s.platform.pins ((s.frame[d.val])[c]) ((s.frame[d.val + 8])[c]) p.val
         [(10, ccMask s.platform.pins), (10, ~~~pb &&& ccMask s.platform.pins), (7, pb),
          (7, pinBit s.platform.pins.clk)]))

/-- ADDR, in Ready with the window mapped, completes for every index: the address pins in ROW_MASK show the row address,
all other pins are unchanged, RES is not written; the clear half before the set half. -/
def Obligations.AddrShowsTheRowAddress : Prop :=
  ∀ (dr : Word) (s : State), s.mode = .ready → s.gmap = .mapped →
    ∃ t, exec (.addr dr) s = .next t ∧ PinsAside s t ∧
      t.outlatch = s.outlatch &&& ~~~s.rowMask ||| rowAddressBits s.platform.pins s.rowMask dr.toNat ∧
      Wrote s t (repeated s [(10, ~~~rowAddressBits s.platform.pins s.rowMask dr.toNat &&& s.rowMask),
        (7, rowAddressBits s.platform.pins s.rowMask dr.toNat)])

/-- LATCH: its record; refused outside Ready; in Ready with the window mapped it completes: LAT is pulsed high then
immediately low, ends low, 1 + SLOWDOWN writes each, and nothing is placed between them. -/
def Obligations.LatchPulsesHighThenLow : Prop :=
  encode .latch = 0x430000000000000000#72 ∧
  (∀ s : State, s.mode ≠ .ready → exec .latch s = .refused .wrongState) ∧
  (∀ s : State, s.mode = .ready → s.gmap = .mapped →
    ∃ t, exec .latch s = .next t ∧ PinsAside s t ∧ t.outlatch = s.outlatch &&& ~~~pinBit s.platform.pins.lat ∧
      t.trace = List.replicate (1 + s.slowdown.toNat) (.write .gpio 10 (pinBit s.platform.pins.lat)) ++
        (List.replicate (1 + s.slowdown.toNat) (.write .gpio 7 (pinBit s.platform.pins.lat)) ++ s.trace))

/-- DWELL with a plane 0 to 7, in Ready with both windows mapped, completes: OE is lowered, then comes the delay
sleep_nanos(TIMING[pl]) and nothing else, then OE is raised and ends high; every other pin is unchanged. That the delay's
busy-wait ends is fairness (log entry 5). -/
def Obligations.DwellUnblanksThenBlanks : Prop :=
  ∀ (pl : Word) (p : Fin 8) (s : State), s.mode = .ready → s.gmap = .mapped → s.tmap = .mapped → pl.toNat = p.val →
    ∃ t evs, exec (.dwell pl) s = .next t ∧ PinsAside s t ∧ t.outlatch = s.outlatch ||| pinBit s.platform.pins.oe ∧
      t.trace = List.replicate (1 + s.slowdown.toNat) (.write .gpio 7 (pinBit s.platform.pins.oe)) ++
        (evs ++ (List.replicate (1 + s.slowdown.toNat) (.write .gpio 10 (pinBit s.platform.pins.oe)) ++ s.trace)) ∧
      SleepEvents s.platform (s.timing[p]).toNat evs

/-- ROWPLANE with operands in range, in Ready with both windows mapped, completes: colour, clock and latch lines low, the
address lines show dr, OE high, every other pin unchanged; it makes exactly the writes of the six steps, in their order,
each 1 + SLOWDOWN times, and reads nothing of the GPIO window; apart from the pins and POS nothing changes. Where POS ends
is the model's reading of R191 (log entry 8). -/
def Obligations.RowplaneMakesTheSixStepsInOrder : Prop :=
  ∀ (dr pl : Word) (d p : Fin 8) (s : State), s.mode = .ready → s.gmap = .mapped → s.tmap = .mapped →
    dr.toNat = d.val → pl.toNat = p.val →
    ∃ t, exec (.rowplane dr pl) s = .next t ∧ PinsAside { s with pos := Pos.afterRowPlane d p } t ∧
      t.outlatch = ((s.outlatch &&& ~~~ccMask s.platform.pins &&& ~~~s.rowMask |||
        rowAddressBits s.platform.pins s.rowMask d.val) &&& ~~~pinBit s.platform.pins.lat) ||| pinBit s.platform.pins.oe ∧
      Wrote s t (repeated s (rowPlaneWrites s d p))

/-- How many writes an executed ROWPLANE makes: 69 (1 + s) to word 10 and 67 (1 + s) to word 7; and an executed SWEEP:
4416 (1 + s) and 4288 (1 + s), 8704 (1 + s) in all; neither writes any other word of the GPIO window. -/
def Obligations.RowPlaneAndSweepWriteCounts : Prop :=
  (∀ (dr pl : Word) (s t : State), exec (.rowplane dr pl) s = .next t →
    t.trace.countP (BusEvent.isWriteTo 10) = s.trace.countP (BusEvent.isWriteTo 10) + 69 * (1 + s.slowdown.toNat) ∧
    t.trace.countP (BusEvent.isWriteTo 7) = s.trace.countP (BusEvent.isWriteTo 7) + 67 * (1 + s.slowdown.toNat) ∧
    t.trace.countP BusEvent.isGpioWrite = s.trace.countP BusEvent.isGpioWrite + 136 * (1 + s.slowdown.toNat)) ∧
  (∀ s t : State, exec .sweep s = .next t →
    t.trace.countP (BusEvent.isWriteTo 10) = s.trace.countP (BusEvent.isWriteTo 10) + 4416 * (1 + s.slowdown.toNat) ∧
    t.trace.countP (BusEvent.isWriteTo 7) = s.trace.countP (BusEvent.isWriteTo 7) + 4288 * (1 + s.slowdown.toNat) ∧
    t.trace.countP BusEvent.isGpioWrite = s.trace.countP BusEvent.isGpioWrite + 8704 * (1 + s.slowdown.toNat))

/-- SWEEP, in Ready with both windows mapped, completes: the writes of all 64 row-planes, double-rows outside and planes
inside, both ascending; it ends with colour, clock and latch lines low, the address of double-row 7, OE high; the frame and
everything else but the pins and POS are unchanged. -/
def Obligations.SweepShowsEveryRowPlaneInOrder : Prop :=
  ∀ s : State, s.mode = .ready → s.gmap = .mapped → s.tmap = .mapped →
    ∃ t p, exec .sweep s = .next t ∧ PinsAside { s with pos := p } t ∧
      t.outlatch = ((s.outlatch &&& ~~~ccMask s.platform.pins &&& ~~~s.rowMask |||
        rowAddressBits s.platform.pins s.rowMask 7) &&& ~~~pinBit s.platform.pins.lat) ||| pinBit s.platform.pins.oe ∧
      Wrote s t (repeated s (sweepWrites s))

/-- SCROLLCHK, in Ready with both windows mapped: with SCROLL_EN false it completes and changes nothing; with SCROLL_EN
true it reads the counter once, and from 10000 elapsed ticks on, with a usable source image, completes with the frame
advanced and LAST_SCROLL the value read; below, it completes and only the read has happened. -/
def Obligations.ScrollchkAdvancesAfterTenMilliseconds : Prop :=
  ∀ s : State, s.mode = .ready → s.gmap = .mapped → s.tmap = .mapped →
    (s.scrollEn = false → exec .scrollchk s = .next s) ∧
    (s.scrollEn = true → s.hasSource = true →
      ∃ t, exec .scrollchk s = .next t ∧
        t.trace = .read .timer s.platform.timerWord t.cnt :: s.trace ∧
        (elapsed s.lastScroll t.cnt < 10000 → TimeAside s t) ∧
        (10000 ≤ elapsed s.lastScroll t.cnt → ∃ img, s.src = some img ∧
          TimeAside { s with
            lastScroll := t.cnt, frame := img.visible s.cursor, cursor := (s.cursor + 1) % img.width } t))

/-- RUN, in Ready with both windows mapped, completes its entry: SCROLL_EN is its operand, LAST_SCROLL the counter's value,
one counter read, MODE = Running, POS = (0, 0, 0, 1); STOP_REQ has not been looked at and no pin has been written. The phase
is the model's own (log entry 9). -/
def Obligations.RunEntersTheLoop : Prop :=
  ∀ (e : Bool) (s : State), s.mode = .ready → s.gmap = .mapped → s.tmap = .mapped →
    ∃ t, exec (.run e) s = .next t ∧
      t = { s with
        scrollEn := e, lastScroll := t.cnt, mode := .running, pos := Pos.start, phase := .poll,
        trace := .read .timer s.platform.timerWord t.cnt :: s.trace, cnt := t.cnt, env := t.env, draws := t.draws }

/-- At a sweep boundary with STOP_REQ set, the running loop makes the stop entry, one write a step: OE is forced high by
1 + SLOWDOWN writes, MODE is Running until the last of them and then Stopped, every other pin and register keeps its value,
ERR too. The phase is the model's own (log entry 9). -/
def Obligations.StopRequestBlanksAndStops : Prop :=
  ∀ s : State, s.mode = .running → s.phase = .poll → s.stopReq = true → s.stopAfter = none → s.gmap = .mapped →
    ∃ t, Host.Core.run Sys2Proof.core (1 + s.slowdown.toNat) s = .next t ∧
      PinsAside { s with mode := .stopped, phase := .idle } t ∧
      t.outlatch = s.outlatch ||| pinBit s.platform.pins.oe ∧
      t.trace = List.replicate (1 + s.slowdown.toNat) (.write .gpio 7 (pinBit s.platform.pins.oe)) ++ s.trace ∧
      ∀ k, 0 < k → k < 1 + s.slowdown.toNat → ∃ u, Host.Core.run Sys2Proof.core k s = .next u ∧ u.mode = .running ∧
        u.trace = List.replicate k (.write .gpio 7 (pinBit s.platform.pins.oe)) ++ s.trace

/-- STOP_REQ is looked at only at a sweep boundary: at any other place of the running loop a step does the same whether or
not it is set, and, unless it is one of the stop entry's writes, leaves MODE = Running. The phase is the model's own (log
entry 9). -/
def Obligations.StopRequestIsReadAtSweepBoundariesOnly : Prop :=
  ∀ s t : State, s.mode = .running → s.phase ≠ .poll → step s = .next t →
    ((∀ a rest, s.phase ≠ .busy .stop a rest) → t.mode = .running) ∧
    step { s with stopReq := true } = .next { t with stopReq := true }

/-- One turn of the running loop, access by access, is exactly a sweep and then the scroll step: from a sweep boundary with
no stop request, some number of steps leads to the next boundary, in the state that SWEEP's work followed by SCROLLCHK's
leaves, and no step between them stands at a boundary. Where a step ends is D36 with log entry 1, where POS stands after the
sweep is log entry 8, and the phase is the model's own (log entry 9). -/
def Obligations.RunningLoopIsSweepThenScroll : Prop :=
  ∀ s t u : State, s.mode = .running → s.phase = .poll → s.stopReq = false → s.stopAfter = none →
    sweepPanel s = .ok t → scrollCheck t = .ok u →
    ∃ n, 0 < n ∧ Host.Core.run Sys2Proof.core n s = .next u ∧ u.phase = .poll ∧
      ∀ k, 0 < k → k < n → ∃ v, Host.Core.run Sys2Proof.core k s = .next v ∧ v.phase ≠ .poll

/-- While Running, from a state that meets the invariant and with pairwise different pins: outside step 6 of a row-plane no
write lowers OE, so a blanked panel stays blanked, access by access; and when a step ends step 6, OE is high. -/
def Obligations.PanelIsBlankedOutsideTheDwell : Prop :=
  ∀ s t : State, s.Inv → s.mode = .running → s.platform.pins.disjoint = true → step s = .next t →
    (s.inDwell = false →
      (∃ evs, t.trace = evs ++ s.trace ∧ ∀ v, .write .gpio 10 v ∈ evs → v.getLsbD s.platform.pins.oe.val = false) ∧
      (s.outlatch.getLsbD s.platform.pins.oe.val = true → t.outlatch.getLsbD s.platform.pins.oe.val = true)) ∧
    (s.inDwell = true → t.inDwell = false → t.outlatch.getLsbD s.platform.pins.oe.val = true)

/-- The panel observer, informative (log entry 16): when OE falls in step 6 of row-plane (dr, pl), the panel has latched
double-row dr and, for every column, the six lines of its pixel pair in plane pl; the dwell leaves it so. So while OE is low
the row dr is lit as plane pl of its own pixels says, the row dr + 8 as plane pl of its own, and every other row is dark;
while OE is high every row is dark. -/
def Obligations.PanelShowsTheRowPlane : Prop :=
  ∀ (dr pl : Fin 8) (s : State), s.platform.pins.disjoint = true → s.rowMask = rowMaskFor s.platform.pins 8 →
    s.gmap = .mapped → s.tmap = .mapped →
    ∃ t u, rowPlaneShift dr pl s = .ok t ∧ dwellPlane pl t = .ok u ∧
      rowPlane dr pl s = .ok { u with pos := Pos.afterRowPlane dr pl } ∧
      t.panel.latchedAddr = BitVec.ofNat 5 dr.val ∧
      (∀ col : Fin 32, t.panel.latched[31 - col.val] = columnLines s.frame dr pl col) ∧
      u.panel = t.panel ∧
      ∀ v : State, v.platform = s.platform → v.panel = t.panel →
        (v.outlatch.getLsbD s.platform.pins.oe.val = false → ∀ (row : Fin 16) (col : Fin 32),
          v.lit row ⟨31 - col.val, by omega⟩ =
            if row.val = dr.val ∨ row.val = dr.val + 8 then
              (((s.frame[row])[col]).r.getLsbD pl.val, ((s.frame[row])[col]).g.getLsbD pl.val,
                ((s.frame[row])[col]).b.getLsbD pl.val)
            else (false, false, false)) ∧
        (v.outlatch.getLsbD s.platform.pins.oe.val = true → ∀ (row : Fin 16) (i : Fin 32),
          v.lit row i = (false, false, false))

/-! ### The system operations -/

/-- PrivilegeError: without the privilege, MAPOPEN, INIT and TINIT, where accepted, raise it as the first check: ERR records
it, mapped windows are released, MODE is Faulted; no register has been read or written and nothing else is recorded. -/
def Obligations.WithoutPrivilegeNothingIsTouched : Prop :=
  ∀ (i : Instr) (s : State), ((∃ w, i = .mapopen w) ∨ (∃ n, i = .init n) ∨ i = .tinit) → acceptedIn i s = true →
    s.platform.privileged = false →
    exec i s = .next { s with
      err := .privilegeError, mode := .faulted
      gmap := if s.gmap = .mapped then .released else s.gmap
      tmap := if s.tmap = .mapped then .released else s.tmap }

/-- MapError: with the privilege but a failing mapping call for the window being opened, MAPOPEN, INIT and TINIT raise it
after the privilege check; no register is accessed. -/
def Obligations.FailedMappingRaisesMapError : Prop :=
  ∀ (i : Instr) (w : Window) (s : State), (i = .mapopen w ∨ (∃ n, i = .init n ∧ w = .gpio) ∨ (i = .tinit ∧ w = .timer)) →
    acceptedIn i s = true → s.platform.privileged = true →
    (match w with | .gpio => s.platform.mapOkGpio | .timer => s.platform.mapOkTimer) = false →
    exec i s = .next { s with
      err := .mapError, mode := .faulted
      gmap := if s.gmap = .mapped then .released else s.gmap
      tmap := if s.tmap = .mapped then .released else s.tmap }

/-- MAPOPEN with the privilege and a mapping call that succeeds, accepted, completes: the window's handle is Mapped and
nothing else changes. -/
def Obligations.MapopenMapsTheWindow : Prop :=
  ∀ s : State, s.mode = .reset → s.platform.privileged = true →
    (s.gmap = .unmapped → s.platform.mapOkGpio = true → exec (.mapopen .gpio) s = .next { s with gmap := .mapped }) ∧
    (s.tmap = .unmapped → s.platform.mapOkTimer = true → exec (.mapopen .timer) s = .next { s with tmap := .mapped })

/-- MAPCLOSE and TEARDOWN, in Reset, Ready or Stopped, complete: MAPCLOSE releases the mapped window it names, TEARDOWN each
window that is mapped; no register of a window is touched and MODE is unchanged. -/
def Obligations.ReleaseTouchesNoRegister : Prop :=
  ∀ s : State, s.mode = .reset ∨ s.mode = .ready ∨ s.mode = .stopped →
    (s.gmap = .mapped → exec (.mapclose .gpio) s = .next { s with gmap := .released }) ∧
    (s.tmap = .mapped → exec (.mapclose .timer) s = .next { s with tmap := .released }) ∧
    exec .teardown s = .next { s with
      gmap := if s.gmap = .mapped then .released else s.gmap
      tmap := if s.tmap = .mapped then .released else s.tmap }

/-- INIT in Reset with the GPIO window never mapped, from a state that meets the invariant, where the mapping succeeds and
every pin it needs is valid, completes: SLOWDOWN, ROW_MASK = A | B | C, OUT_BITS = RES = want, the timing table, GMAP =
Mapped, MODE = Ready exactly if TMAP is Mapped; every wanted pin is an output and no other field changes. The accesses it
makes are, for each wanted pin in ascending order, one read and one write of word pin / 10, and no other: no pin level is
written. -/
def Obligations.InitConfiguresExactlyTheWantedPins : Prop :=
  ∀ (n : Word) (s : State), s.Inv → s.mode = .reset → s.gmap = .unmapped → s.platform.privileged = true →
    s.platform.mapOkGpio = true →
    (let row := pinBit s.platform.pins.a ||| pinBit s.platform.pins.b ||| pinBit s.platform.pins.c
     let want := initWant s.platform.pins row
     let evs := configureEvents s.fsel ((List.finRange 28).filter fun k => want.getLsbD k.val)
     want &&& ~~~s.platform.validPins = 0 →
     ∃ t, exec (.init n) s = .next t ∧
      t = { s with
        gmap := .mapped, slowdown := n, rowMask := row, outBits := want, res := want, timing := t.timing
        mode := if s.tmap = .mapped then .ready else .reset
        fsel := t.fsel, trace := evs.reverse ++ s.trace, cnt := t.cnt, env := t.env, draws := t.draws } ∧
      (∀ k : Fin 8, (t.timing[k]).toNat = 1000 * 2 ^ k.val) ∧
      (∀ k : PinIndex, want.getLsbD k.val = true → fselField t.fsel k = 0b001#3) ∧
      (∀ k : PinIndex, want.getLsbD k.val = false → fselField t.fsel k = fselField s.fsel k) ∧
      (∀ word v, (word = 7 ∨ word = 10) → .write .gpio word v ∉ evs))

/-- ConfigurationInvariantViolation: if a wanted pin is not valid, INIT raises it after the other pins have been configured,
in ascending order: RES and OUT_BITS hold the pins that could be configured, their fields are outputs, GMAP is released,
TIMING is as before. -/
def Obligations.InitFaultsOnAnInvalidPin : Prop :=
  ∀ (n : Word) (s : State), s.Inv → s.mode = .reset → s.gmap = .unmapped → s.platform.privileged = true →
    s.platform.mapOkGpio = true →
    (let row := pinBit s.platform.pins.a ||| pinBit s.platform.pins.b ||| pinBit s.platform.pins.c
     let want := initWant s.platform.pins row
     let got := want &&& s.platform.validPins
     let evs := configureEvents s.fsel ((List.finRange 28).filter fun k => got.getLsbD k.val)
     want &&& ~~~s.platform.validPins ≠ 0 →
     ∃ t, exec (.init n) s = .next t ∧
      t = { s with
        gmap := .released, tmap := if s.tmap = .mapped then .released else s.tmap
        slowdown := n, rowMask := row, outBits := got, res := got
        err := .configurationInvariantViolation, mode := .faulted
        fsel := t.fsel, trace := evs.reverse ++ s.trace, cnt := t.cnt, env := t.env, draws := t.draws } ∧
      (∀ k : PinIndex, got.getLsbD k.val = true → fselField t.fsel k = 0b001#3) ∧
      (∀ k : PinIndex, got.getLsbD k.val = false → fselField t.fsel k = fselField s.fsel k))

/-- TINIT in Reset with the TIMER window never mapped, where the mapping succeeds, completes: TMAP is Mapped, MODE becomes
Ready exactly if the GPIO window is mapped and INIT has completed (TIMING[0] = 1000), nothing else changes. -/
def Obligations.TinitCompletesTheConstruction : Prop :=
  ∀ s : State, s.mode = .reset → s.tmap = .unmapped → s.platform.privileged = true → s.platform.mapOkTimer = true →
    exec .tinit s = .next { s with
      tmap := .mapped
      mode := if s.gmap = .mapped ∧ s.timing[0] = 1000#32 then .ready else .reset }

end
end

