-- ==== Sys2Proof/Laws/State.lean ====
section
/-! SUPPORT. One lemma per field per named update of the state, each true by rfl, so that no later proof unfolds a record
update. -/

namespace Sys2Proof.Machine

@[simp] theorem State.tick_platform (s : State) : (s.tick).platform = s.platform := rfl
@[simp] theorem State.tick_outBits (s : State) : (s.tick).outBits = s.outBits := rfl
@[simp] theorem State.tick_inBits (s : State) : (s.tick).inBits = s.inBits := rfl
@[simp] theorem State.tick_slowdown (s : State) : (s.tick).slowdown = s.slowdown := rfl
@[simp] theorem State.tick_res (s : State) : (s.tick).res = s.res := rfl
@[simp] theorem State.tick_rowMask (s : State) : (s.tick).rowMask = s.rowMask := rfl
@[simp] theorem State.tick_timing (s : State) : (s.tick).timing = s.timing := rfl
@[simp] theorem State.tick_mode (s : State) : (s.tick).mode = s.mode := rfl
@[simp] theorem State.tick_pos (s : State) : (s.tick).pos = s.pos := rfl
@[simp] theorem State.tick_phase (s : State) : (s.tick).phase = s.phase := rfl
@[simp] theorem State.tick_stopReq (s : State) : (s.tick).stopReq = s.stopReq := rfl
@[simp] theorem State.tick_scrollEn (s : State) : (s.tick).scrollEn = s.scrollEn := rfl
@[simp] theorem State.tick_err (s : State) : (s.tick).err = s.err := rfl
@[simp] theorem State.tick_fsel (s : State) : (s.tick).fsel = s.fsel := rfl
@[simp] theorem State.tick_outlatch (s : State) : (s.tick).outlatch = s.outlatch := rfl
@[simp] theorem State.tick_gmap (s : State) : (s.tick).gmap = s.gmap := rfl
@[simp] theorem State.tick_tmap (s : State) : (s.tick).tmap = s.tmap := rfl
@[simp] theorem State.tick_frame (s : State) : (s.tick).frame = s.frame := rfl
@[simp] theorem State.tick_cursor (s : State) : (s.tick).cursor = s.cursor := rfl
@[simp] theorem State.tick_src (s : State) : (s.tick).src = s.src := rfl
@[simp] theorem State.tick_lastScroll (s : State) : (s.tick).lastScroll = s.lastScroll := rfl
@[simp] theorem State.tick_panel (s : State) : (s.tick).panel = s.panel := rfl
@[simp] theorem State.tick_trace (s : State) : (s.tick).trace = s.trace := rfl
@[simp] theorem State.tick_inputs (s : State) : (s.tick).inputs = s.inputs := rfl
@[simp] theorem State.tick_stopAfter (s : State) : (s.tick).stopAfter = s.stopAfter := rfl

@[simp] theorem State.record_platform (s : State) (e : BusEvent) : (s.record e).platform = s.platform := rfl
@[simp] theorem State.record_outBits (s : State) (e : BusEvent) : (s.record e).outBits = s.outBits := rfl
@[simp] theorem State.record_inBits (s : State) (e : BusEvent) : (s.record e).inBits = s.inBits := rfl
@[simp] theorem State.record_slowdown (s : State) (e : BusEvent) : (s.record e).slowdown = s.slowdown := rfl
@[simp] theorem State.record_res (s : State) (e : BusEvent) : (s.record e).res = s.res := rfl
@[simp] theorem State.record_rowMask (s : State) (e : BusEvent) : (s.record e).rowMask = s.rowMask := rfl
@[simp] theorem State.record_timing (s : State) (e : BusEvent) : (s.record e).timing = s.timing := rfl
@[simp] theorem State.record_mode (s : State) (e : BusEvent) : (s.record e).mode = s.mode := rfl
@[simp] theorem State.record_pos (s : State) (e : BusEvent) : (s.record e).pos = s.pos := rfl
@[simp] theorem State.record_phase (s : State) (e : BusEvent) : (s.record e).phase = s.phase := rfl
@[simp] theorem State.record_stopReq (s : State) (e : BusEvent) : (s.record e).stopReq = s.stopReq := rfl
@[simp] theorem State.record_scrollEn (s : State) (e : BusEvent) : (s.record e).scrollEn = s.scrollEn := rfl
@[simp] theorem State.record_err (s : State) (e : BusEvent) : (s.record e).err = s.err := rfl
@[simp] theorem State.record_fsel (s : State) (e : BusEvent) : (s.record e).fsel = s.fsel := rfl
@[simp] theorem State.record_outlatch (s : State) (e : BusEvent) : (s.record e).outlatch = s.outlatch := rfl
@[simp] theorem State.record_cnt (s : State) (e : BusEvent) : (s.record e).cnt = s.cnt := rfl
@[simp] theorem State.record_gmap (s : State) (e : BusEvent) : (s.record e).gmap = s.gmap := rfl
@[simp] theorem State.record_tmap (s : State) (e : BusEvent) : (s.record e).tmap = s.tmap := rfl
@[simp] theorem State.record_frame (s : State) (e : BusEvent) : (s.record e).frame = s.frame := rfl
@[simp] theorem State.record_cursor (s : State) (e : BusEvent) : (s.record e).cursor = s.cursor := rfl
@[simp] theorem State.record_src (s : State) (e : BusEvent) : (s.record e).src = s.src := rfl
@[simp] theorem State.record_lastScroll (s : State) (e : BusEvent) : (s.record e).lastScroll = s.lastScroll := rfl
@[simp] theorem State.record_panel (s : State) (e : BusEvent) : (s.record e).panel = s.panel := rfl
@[simp] theorem State.record_trace (s : State) (e : BusEvent) : (s.record e).trace = e :: s.trace := rfl
@[simp] theorem State.record_env (s : State) (e : BusEvent) : (s.record e).env = s.env := rfl
@[simp] theorem State.record_draws (s : State) (e : BusEvent) : (s.record e).draws = s.draws := rfl
@[simp] theorem State.record_inputs (s : State) (e : BusEvent) : (s.record e).inputs = s.inputs := rfl
@[simp] theorem State.record_stopAfter (s : State) (e : BusEvent) : (s.record e).stopAfter = s.stopAfter := rfl

@[simp] theorem State.drive_platform (s : State) (v : Word) : (s.drive v).platform = s.platform := rfl
@[simp] theorem State.drive_outBits (s : State) (v : Word) : (s.drive v).outBits = s.outBits := rfl
@[simp] theorem State.drive_inBits (s : State) (v : Word) : (s.drive v).inBits = s.inBits := rfl
@[simp] theorem State.drive_slowdown (s : State) (v : Word) : (s.drive v).slowdown = s.slowdown := rfl
@[simp] theorem State.drive_res (s : State) (v : Word) : (s.drive v).res = s.res := rfl
@[simp] theorem State.drive_rowMask (s : State) (v : Word) : (s.drive v).rowMask = s.rowMask := rfl
@[simp] theorem State.drive_timing (s : State) (v : Word) : (s.drive v).timing = s.timing := rfl
@[simp] theorem State.drive_mode (s : State) (v : Word) : (s.drive v).mode = s.mode := rfl
@[simp] theorem State.drive_pos (s : State) (v : Word) : (s.drive v).pos = s.pos := rfl
@[simp] theorem State.drive_phase (s : State) (v : Word) : (s.drive v).phase = s.phase := rfl
@[simp] theorem State.drive_stopReq (s : State) (v : Word) : (s.drive v).stopReq = s.stopReq := rfl
@[simp] theorem State.drive_scrollEn (s : State) (v : Word) : (s.drive v).scrollEn = s.scrollEn := rfl
@[simp] theorem State.drive_err (s : State) (v : Word) : (s.drive v).err = s.err := rfl
@[simp] theorem State.drive_fsel (s : State) (v : Word) : (s.drive v).fsel = s.fsel := rfl
@[simp] theorem State.drive_outlatch (s : State) (v : Word) : (s.drive v).outlatch = v := rfl
@[simp] theorem State.drive_cnt (s : State) (v : Word) : (s.drive v).cnt = s.cnt := rfl
@[simp] theorem State.drive_gmap (s : State) (v : Word) : (s.drive v).gmap = s.gmap := rfl
@[simp] theorem State.drive_tmap (s : State) (v : Word) : (s.drive v).tmap = s.tmap := rfl
@[simp] theorem State.drive_frame (s : State) (v : Word) : (s.drive v).frame = s.frame := rfl
@[simp] theorem State.drive_cursor (s : State) (v : Word) : (s.drive v).cursor = s.cursor := rfl
@[simp] theorem State.drive_src (s : State) (v : Word) : (s.drive v).src = s.src := rfl
@[simp] theorem State.drive_lastScroll (s : State) (v : Word) : (s.drive v).lastScroll = s.lastScroll := rfl
@[simp] theorem State.drive_panel (s : State) (v : Word) : (s.drive v).panel = s.panel.observe s.platform.pins s.rowMask s.outlatch v := rfl
@[simp] theorem State.drive_trace (s : State) (v : Word) : (s.drive v).trace = s.trace := rfl
@[simp] theorem State.drive_env (s : State) (v : Word) : (s.drive v).env = s.env := rfl
@[simp] theorem State.drive_draws (s : State) (v : Word) : (s.drive v).draws = s.draws := rfl
@[simp] theorem State.drive_inputs (s : State) (v : Word) : (s.drive v).inputs = s.inputs := rfl
@[simp] theorem State.drive_stopAfter (s : State) (v : Word) : (s.drive v).stopAfter = s.stopAfter := rfl

@[simp] theorem State.afterLevels_platform (s : State) : (s.afterLevels).platform = s.platform := rfl
@[simp] theorem State.afterLevels_outBits (s : State) : (s.afterLevels).outBits = s.outBits := rfl
@[simp] theorem State.afterLevels_inBits (s : State) : (s.afterLevels).inBits = s.inBits := rfl
@[simp] theorem State.afterLevels_slowdown (s : State) : (s.afterLevels).slowdown = s.slowdown := rfl
@[simp] theorem State.afterLevels_res (s : State) : (s.afterLevels).res = s.res := rfl
@[simp] theorem State.afterLevels_rowMask (s : State) : (s.afterLevels).rowMask = s.rowMask := rfl
@[simp] theorem State.afterLevels_timing (s : State) : (s.afterLevels).timing = s.timing := rfl
@[simp] theorem State.afterLevels_mode (s : State) : (s.afterLevels).mode = s.mode := rfl
@[simp] theorem State.afterLevels_pos (s : State) : (s.afterLevels).pos = s.pos := rfl
@[simp] theorem State.afterLevels_phase (s : State) : (s.afterLevels).phase = s.phase := rfl
@[simp] theorem State.afterLevels_stopReq (s : State) : (s.afterLevels).stopReq = s.stopReq := rfl
@[simp] theorem State.afterLevels_scrollEn (s : State) : (s.afterLevels).scrollEn = s.scrollEn := rfl
@[simp] theorem State.afterLevels_err (s : State) : (s.afterLevels).err = s.err := rfl
@[simp] theorem State.afterLevels_fsel (s : State) : (s.afterLevels).fsel = s.fsel := rfl
@[simp] theorem State.afterLevels_outlatch (s : State) : (s.afterLevels).outlatch = s.outlatch := rfl
@[simp] theorem State.afterLevels_cnt (s : State) : (s.afterLevels).cnt = s.cnt := rfl
@[simp] theorem State.afterLevels_gmap (s : State) : (s.afterLevels).gmap = s.gmap := rfl
@[simp] theorem State.afterLevels_tmap (s : State) : (s.afterLevels).tmap = s.tmap := rfl
@[simp] theorem State.afterLevels_frame (s : State) : (s.afterLevels).frame = s.frame := rfl
@[simp] theorem State.afterLevels_cursor (s : State) : (s.afterLevels).cursor = s.cursor := rfl
@[simp] theorem State.afterLevels_src (s : State) : (s.afterLevels).src = s.src := rfl
@[simp] theorem State.afterLevels_lastScroll (s : State) : (s.afterLevels).lastScroll = s.lastScroll := rfl
@[simp] theorem State.afterLevels_panel (s : State) : (s.afterLevels).panel = s.panel := rfl
@[simp] theorem State.afterLevels_trace (s : State) : (s.afterLevels).trace = s.trace := rfl
@[simp] theorem State.afterLevels_inputs (s : State) : (s.afterLevels).inputs = s.inputs := rfl
@[simp] theorem State.afterLevels_stopAfter (s : State) : (s.afterLevels).stopAfter = s.stopAfter := rfl

@[simp] theorem State.requestStop_platform (s : State) : (s.requestStop).platform = s.platform := rfl
@[simp] theorem State.requestStop_outBits (s : State) : (s.requestStop).outBits = s.outBits := rfl
@[simp] theorem State.requestStop_inBits (s : State) : (s.requestStop).inBits = s.inBits := rfl
@[simp] theorem State.requestStop_slowdown (s : State) : (s.requestStop).slowdown = s.slowdown := rfl
@[simp] theorem State.requestStop_res (s : State) : (s.requestStop).res = s.res := rfl
@[simp] theorem State.requestStop_rowMask (s : State) : (s.requestStop).rowMask = s.rowMask := rfl
@[simp] theorem State.requestStop_timing (s : State) : (s.requestStop).timing = s.timing := rfl
@[simp] theorem State.requestStop_mode (s : State) : (s.requestStop).mode = s.mode := rfl
@[simp] theorem State.requestStop_pos (s : State) : (s.requestStop).pos = s.pos := rfl
@[simp] theorem State.requestStop_phase (s : State) : (s.requestStop).phase = s.phase := rfl
@[simp] theorem State.requestStop_stopReq (s : State) : (s.requestStop).stopReq = true := rfl
@[simp] theorem State.requestStop_scrollEn (s : State) : (s.requestStop).scrollEn = s.scrollEn := rfl
@[simp] theorem State.requestStop_err (s : State) : (s.requestStop).err = s.err := rfl
@[simp] theorem State.requestStop_fsel (s : State) : (s.requestStop).fsel = s.fsel := rfl
@[simp] theorem State.requestStop_outlatch (s : State) : (s.requestStop).outlatch = s.outlatch := rfl
@[simp] theorem State.requestStop_cnt (s : State) : (s.requestStop).cnt = s.cnt := rfl
@[simp] theorem State.requestStop_gmap (s : State) : (s.requestStop).gmap = s.gmap := rfl
@[simp] theorem State.requestStop_tmap (s : State) : (s.requestStop).tmap = s.tmap := rfl
@[simp] theorem State.requestStop_frame (s : State) : (s.requestStop).frame = s.frame := rfl
@[simp] theorem State.requestStop_cursor (s : State) : (s.requestStop).cursor = s.cursor := rfl
@[simp] theorem State.requestStop_src (s : State) : (s.requestStop).src = s.src := rfl
@[simp] theorem State.requestStop_lastScroll (s : State) : (s.requestStop).lastScroll = s.lastScroll := rfl
@[simp] theorem State.requestStop_panel (s : State) : (s.requestStop).panel = s.panel := rfl
@[simp] theorem State.requestStop_trace (s : State) : (s.requestStop).trace = s.trace := rfl
@[simp] theorem State.requestStop_env (s : State) : (s.requestStop).env = s.env := rfl
@[simp] theorem State.requestStop_draws (s : State) : (s.requestStop).draws = s.draws := rfl
@[simp] theorem State.requestStop_inputs (s : State) : (s.requestStop).inputs = s.inputs := rfl
@[simp] theorem State.requestStop_stopAfter (s : State) : (s.requestStop).stopAfter = s.stopAfter := rfl

@[simp] theorem State.tick_cnt (s : State) : s.tick.cnt = s.cnt + BitVec.ofNat 32 s.tickAmount := rfl
@[simp] theorem State.tick_draws (s : State) : s.tick.draws = s.draws + 1 := rfl

@[simp] theorem raise_platform (e : ErrCode) (s : State) : (raise e s).platform = s.platform := rfl
@[simp] theorem raise_outBits (e : ErrCode) (s : State) : (raise e s).outBits = s.outBits := rfl
@[simp] theorem raise_inBits (e : ErrCode) (s : State) : (raise e s).inBits = s.inBits := rfl
@[simp] theorem raise_slowdown (e : ErrCode) (s : State) : (raise e s).slowdown = s.slowdown := rfl
@[simp] theorem raise_res (e : ErrCode) (s : State) : (raise e s).res = s.res := rfl
@[simp] theorem raise_rowMask (e : ErrCode) (s : State) : (raise e s).rowMask = s.rowMask := rfl
@[simp] theorem raise_timing (e : ErrCode) (s : State) : (raise e s).timing = s.timing := rfl
@[simp] theorem raise_mode (e : ErrCode) (s : State) : (raise e s).mode = .faulted := rfl
@[simp] theorem raise_pos (e : ErrCode) (s : State) : (raise e s).pos = s.pos := rfl
@[simp] theorem raise_phase (e : ErrCode) (s : State) : (raise e s).phase = s.phase := rfl
@[simp] theorem raise_stopReq (e : ErrCode) (s : State) : (raise e s).stopReq = s.stopReq := rfl
@[simp] theorem raise_scrollEn (e : ErrCode) (s : State) : (raise e s).scrollEn = s.scrollEn := rfl
@[simp] theorem raise_err (e : ErrCode) (s : State) : (raise e s).err = e := rfl
@[simp] theorem raise_fsel (e : ErrCode) (s : State) : (raise e s).fsel = s.fsel := rfl
@[simp] theorem raise_outlatch (e : ErrCode) (s : State) : (raise e s).outlatch = s.outlatch := rfl
@[simp] theorem raise_cnt (e : ErrCode) (s : State) : (raise e s).cnt = s.cnt := rfl
@[simp] theorem raise_gmap (e : ErrCode) (s : State) : (raise e s).gmap = s.gmap.release := rfl
@[simp] theorem raise_tmap (e : ErrCode) (s : State) : (raise e s).tmap = s.tmap.release := rfl
@[simp] theorem raise_frame (e : ErrCode) (s : State) : (raise e s).frame = s.frame := rfl
@[simp] theorem raise_cursor (e : ErrCode) (s : State) : (raise e s).cursor = s.cursor := rfl
@[simp] theorem raise_src (e : ErrCode) (s : State) : (raise e s).src = s.src := rfl
@[simp] theorem raise_lastScroll (e : ErrCode) (s : State) : (raise e s).lastScroll = s.lastScroll := rfl
@[simp] theorem raise_panel (e : ErrCode) (s : State) : (raise e s).panel = s.panel := rfl
@[simp] theorem raise_trace (e : ErrCode) (s : State) : (raise e s).trace = s.trace := rfl
@[simp] theorem raise_env (e : ErrCode) (s : State) : (raise e s).env = s.env := rfl
@[simp] theorem raise_draws (e : ErrCode) (s : State) : (raise e s).draws = s.draws := rfl
@[simp] theorem raise_inputs (e : ErrCode) (s : State) : (raise e s).inputs = s.inputs := rfl
@[simp] theorem raise_stopAfter (e : ErrCode) (s : State) : (raise e s).stopAfter = s.stopAfter := rfl

@[simp] theorem State.hostTick_platform (s : State) : s.hostTick.platform = s.platform := by unfold State.hostTick; split <;> rfl
@[simp] theorem State.hostTick_outBits (s : State) : s.hostTick.outBits = s.outBits := by unfold State.hostTick; split <;> rfl
@[simp] theorem State.hostTick_inBits (s : State) : s.hostTick.inBits = s.inBits := by unfold State.hostTick; split <;> rfl
@[simp] theorem State.hostTick_slowdown (s : State) : s.hostTick.slowdown = s.slowdown := by unfold State.hostTick; split <;> rfl
@[simp] theorem State.hostTick_res (s : State) : s.hostTick.res = s.res := by unfold State.hostTick; split <;> rfl
@[simp] theorem State.hostTick_rowMask (s : State) : s.hostTick.rowMask = s.rowMask := by unfold State.hostTick; split <;> rfl
@[simp] theorem State.hostTick_timing (s : State) : s.hostTick.timing = s.timing := by unfold State.hostTick; split <;> rfl
@[simp] theorem State.hostTick_mode (s : State) : s.hostTick.mode = s.mode := by unfold State.hostTick; split <;> rfl
@[simp] theorem State.hostTick_pos (s : State) : s.hostTick.pos = s.pos := by unfold State.hostTick; split <;> rfl
@[simp] theorem State.hostTick_phase (s : State) : s.hostTick.phase = s.phase := by unfold State.hostTick; split <;> rfl
@[simp] theorem State.hostTick_scrollEn (s : State) : s.hostTick.scrollEn = s.scrollEn := by unfold State.hostTick; split <;> rfl
@[simp] theorem State.hostTick_err (s : State) : s.hostTick.err = s.err := by unfold State.hostTick; split <;> rfl
@[simp] theorem State.hostTick_fsel (s : State) : s.hostTick.fsel = s.fsel := by unfold State.hostTick; split <;> rfl
@[simp] theorem State.hostTick_outlatch (s : State) : s.hostTick.outlatch = s.outlatch := by unfold State.hostTick; split <;> rfl
@[simp] theorem State.hostTick_cnt (s : State) : s.hostTick.cnt = s.cnt := by unfold State.hostTick; split <;> rfl
@[simp] theorem State.hostTick_gmap (s : State) : s.hostTick.gmap = s.gmap := by unfold State.hostTick; split <;> rfl
@[simp] theorem State.hostTick_tmap (s : State) : s.hostTick.tmap = s.tmap := by unfold State.hostTick; split <;> rfl
@[simp] theorem State.hostTick_frame (s : State) : s.hostTick.frame = s.frame := by unfold State.hostTick; split <;> rfl
@[simp] theorem State.hostTick_cursor (s : State) : s.hostTick.cursor = s.cursor := by unfold State.hostTick; split <;> rfl
@[simp] theorem State.hostTick_src (s : State) : s.hostTick.src = s.src := by unfold State.hostTick; split <;> rfl
@[simp] theorem State.hostTick_lastScroll (s : State) : s.hostTick.lastScroll = s.lastScroll := by unfold State.hostTick; split <;> rfl
@[simp] theorem State.hostTick_panel (s : State) : s.hostTick.panel = s.panel := by unfold State.hostTick; split <;> rfl
@[simp] theorem State.hostTick_trace (s : State) : s.hostTick.trace = s.trace := by unfold State.hostTick; split <;> rfl
@[simp] theorem State.hostTick_env (s : State) : s.hostTick.env = s.env := by unfold State.hostTick; split <;> rfl
@[simp] theorem State.hostTick_draws (s : State) : s.hostTick.draws = s.draws := by unfold State.hostTick; split <;> rfl
@[simp] theorem State.hostTick_inputs (s : State) : s.hostTick.inputs = s.inputs := by unfold State.hostTick; split <;> rfl

@[simp] theorem State.setHandle_platform (s : State) (w : Window) (h : Handle) : (s.setHandle w h).platform = s.platform := by cases w <;> rfl
@[simp] theorem State.setHandle_outBits (s : State) (w : Window) (h : Handle) : (s.setHandle w h).outBits = s.outBits := by cases w <;> rfl
@[simp] theorem State.setHandle_inBits (s : State) (w : Window) (h : Handle) : (s.setHandle w h).inBits = s.inBits := by cases w <;> rfl
@[simp] theorem State.setHandle_slowdown (s : State) (w : Window) (h : Handle) : (s.setHandle w h).slowdown = s.slowdown := by cases w <;> rfl
@[simp] theorem State.setHandle_res (s : State) (w : Window) (h : Handle) : (s.setHandle w h).res = s.res := by cases w <;> rfl
@[simp] theorem State.setHandle_rowMask (s : State) (w : Window) (h : Handle) : (s.setHandle w h).rowMask = s.rowMask := by cases w <;> rfl
@[simp] theorem State.setHandle_timing (s : State) (w : Window) (h : Handle) : (s.setHandle w h).timing = s.timing := by cases w <;> rfl
@[simp] theorem State.setHandle_mode (s : State) (w : Window) (h : Handle) : (s.setHandle w h).mode = s.mode := by cases w <;> rfl
@[simp] theorem State.setHandle_pos (s : State) (w : Window) (h : Handle) : (s.setHandle w h).pos = s.pos := by cases w <;> rfl
@[simp] theorem State.setHandle_phase (s : State) (w : Window) (h : Handle) : (s.setHandle w h).phase = s.phase := by cases w <;> rfl
@[simp] theorem State.setHandle_stopReq (s : State) (w : Window) (h : Handle) : (s.setHandle w h).stopReq = s.stopReq := by cases w <;> rfl
@[simp] theorem State.setHandle_scrollEn (s : State) (w : Window) (h : Handle) : (s.setHandle w h).scrollEn = s.scrollEn := by cases w <;> rfl
@[simp] theorem State.setHandle_err (s : State) (w : Window) (h : Handle) : (s.setHandle w h).err = s.err := by cases w <;> rfl
@[simp] theorem State.setHandle_fsel (s : State) (w : Window) (h : Handle) : (s.setHandle w h).fsel = s.fsel := by cases w <;> rfl
@[simp] theorem State.setHandle_outlatch (s : State) (w : Window) (h : Handle) : (s.setHandle w h).outlatch = s.outlatch := by cases w <;> rfl
@[simp] theorem State.setHandle_cnt (s : State) (w : Window) (h : Handle) : (s.setHandle w h).cnt = s.cnt := by cases w <;> rfl
@[simp] theorem State.setHandle_frame (s : State) (w : Window) (h : Handle) : (s.setHandle w h).frame = s.frame := by cases w <;> rfl
@[simp] theorem State.setHandle_cursor (s : State) (w : Window) (h : Handle) : (s.setHandle w h).cursor = s.cursor := by cases w <;> rfl
@[simp] theorem State.setHandle_src (s : State) (w : Window) (h : Handle) : (s.setHandle w h).src = s.src := by cases w <;> rfl
@[simp] theorem State.setHandle_lastScroll (s : State) (w : Window) (h : Handle) : (s.setHandle w h).lastScroll = s.lastScroll := by cases w <;> rfl
@[simp] theorem State.setHandle_panel (s : State) (w : Window) (h : Handle) : (s.setHandle w h).panel = s.panel := by cases w <;> rfl
@[simp] theorem State.setHandle_trace (s : State) (w : Window) (h : Handle) : (s.setHandle w h).trace = s.trace := by cases w <;> rfl
@[simp] theorem State.setHandle_env (s : State) (w : Window) (h : Handle) : (s.setHandle w h).env = s.env := by cases w <;> rfl
@[simp] theorem State.setHandle_draws (s : State) (w : Window) (h : Handle) : (s.setHandle w h).draws = s.draws := by cases w <;> rfl
@[simp] theorem State.setHandle_inputs (s : State) (w : Window) (h : Handle) : (s.setHandle w h).inputs = s.inputs := by cases w <;> rfl
@[simp] theorem State.setHandle_stopAfter (s : State) (w : Window) (h : Handle) : (s.setHandle w h).stopAfter = s.stopAfter := by cases w <;> rfl

@[simp] theorem readyIf_platform (b : Bool) (s : State) : (readyIf b s).platform = s.platform := by cases b <;> rfl
@[simp] theorem readyIf_outBits (b : Bool) (s : State) : (readyIf b s).outBits = s.outBits := by cases b <;> rfl
@[simp] theorem readyIf_inBits (b : Bool) (s : State) : (readyIf b s).inBits = s.inBits := by cases b <;> rfl
@[simp] theorem readyIf_slowdown (b : Bool) (s : State) : (readyIf b s).slowdown = s.slowdown := by cases b <;> rfl
@[simp] theorem readyIf_res (b : Bool) (s : State) : (readyIf b s).res = s.res := by cases b <;> rfl
@[simp] theorem readyIf_rowMask (b : Bool) (s : State) : (readyIf b s).rowMask = s.rowMask := by cases b <;> rfl
@[simp] theorem readyIf_timing (b : Bool) (s : State) : (readyIf b s).timing = s.timing := by cases b <;> rfl
@[simp] theorem readyIf_pos (b : Bool) (s : State) : (readyIf b s).pos = s.pos := by cases b <;> rfl
@[simp] theorem readyIf_phase (b : Bool) (s : State) : (readyIf b s).phase = s.phase := by cases b <;> rfl
@[simp] theorem readyIf_stopReq (b : Bool) (s : State) : (readyIf b s).stopReq = s.stopReq := by cases b <;> rfl
@[simp] theorem readyIf_scrollEn (b : Bool) (s : State) : (readyIf b s).scrollEn = s.scrollEn := by cases b <;> rfl
@[simp] theorem readyIf_err (b : Bool) (s : State) : (readyIf b s).err = s.err := by cases b <;> rfl
@[simp] theorem readyIf_fsel (b : Bool) (s : State) : (readyIf b s).fsel = s.fsel := by cases b <;> rfl
@[simp] theorem readyIf_outlatch (b : Bool) (s : State) : (readyIf b s).outlatch = s.outlatch := by cases b <;> rfl
@[simp] theorem readyIf_cnt (b : Bool) (s : State) : (readyIf b s).cnt = s.cnt := by cases b <;> rfl
@[simp] theorem readyIf_gmap (b : Bool) (s : State) : (readyIf b s).gmap = s.gmap := by cases b <;> rfl
@[simp] theorem readyIf_tmap (b : Bool) (s : State) : (readyIf b s).tmap = s.tmap := by cases b <;> rfl
@[simp] theorem readyIf_frame (b : Bool) (s : State) : (readyIf b s).frame = s.frame := by cases b <;> rfl
@[simp] theorem readyIf_cursor (b : Bool) (s : State) : (readyIf b s).cursor = s.cursor := by cases b <;> rfl
@[simp] theorem readyIf_src (b : Bool) (s : State) : (readyIf b s).src = s.src := by cases b <;> rfl
@[simp] theorem readyIf_lastScroll (b : Bool) (s : State) : (readyIf b s).lastScroll = s.lastScroll := by cases b <;> rfl
@[simp] theorem readyIf_panel (b : Bool) (s : State) : (readyIf b s).panel = s.panel := by cases b <;> rfl
@[simp] theorem readyIf_trace (b : Bool) (s : State) : (readyIf b s).trace = s.trace := by cases b <;> rfl
@[simp] theorem readyIf_env (b : Bool) (s : State) : (readyIf b s).env = s.env := by cases b <;> rfl
@[simp] theorem readyIf_draws (b : Bool) (s : State) : (readyIf b s).draws = s.draws := by cases b <;> rfl
@[simp] theorem readyIf_inputs (b : Bool) (s : State) : (readyIf b s).inputs = s.inputs := by cases b <;> rfl
@[simp] theorem readyIf_stopAfter (b : Bool) (s : State) : (readyIf b s).stopAfter = s.stopAfter := by cases b <;> rfl
@[simp] theorem readyIf_mode (b : Bool) (s : State) : (readyIf b s).mode = if b then .ready else s.mode := by cases b <;> rfl

@[simp] theorem State.withHoldings_platform (s : State) (n : Word) : (s.withHoldings n).platform = s.platform := rfl
@[simp] theorem State.withHoldings_outBits (s : State) (n : Word) : (s.withHoldings n).outBits = s.outBits := rfl
@[simp] theorem State.withHoldings_inBits (s : State) (n : Word) : (s.withHoldings n).inBits = s.inBits := rfl
@[simp] theorem State.withHoldings_slowdown (s : State) (n : Word) : (s.withHoldings n).slowdown = n := rfl
@[simp] theorem State.withHoldings_res (s : State) (n : Word) : (s.withHoldings n).res = s.res := rfl
@[simp] theorem State.withHoldings_rowMask (s : State) (n : Word) : (s.withHoldings n).rowMask = rowMaskFor s.platform.pins Config.doubleRows := rfl
@[simp] theorem State.withHoldings_timing (s : State) (n : Word) : (s.withHoldings n).timing = s.timing := rfl
@[simp] theorem State.withHoldings_mode (s : State) (n : Word) : (s.withHoldings n).mode = s.mode := rfl
@[simp] theorem State.withHoldings_pos (s : State) (n : Word) : (s.withHoldings n).pos = s.pos := rfl
@[simp] theorem State.withHoldings_phase (s : State) (n : Word) : (s.withHoldings n).phase = s.phase := rfl
@[simp] theorem State.withHoldings_stopReq (s : State) (n : Word) : (s.withHoldings n).stopReq = s.stopReq := rfl
@[simp] theorem State.withHoldings_scrollEn (s : State) (n : Word) : (s.withHoldings n).scrollEn = s.scrollEn := rfl
@[simp] theorem State.withHoldings_err (s : State) (n : Word) : (s.withHoldings n).err = s.err := rfl
@[simp] theorem State.withHoldings_fsel (s : State) (n : Word) : (s.withHoldings n).fsel = s.fsel := rfl
@[simp] theorem State.withHoldings_outlatch (s : State) (n : Word) : (s.withHoldings n).outlatch = s.outlatch := rfl
@[simp] theorem State.withHoldings_cnt (s : State) (n : Word) : (s.withHoldings n).cnt = s.cnt := rfl
@[simp] theorem State.withHoldings_gmap (s : State) (n : Word) : (s.withHoldings n).gmap = s.gmap := rfl
@[simp] theorem State.withHoldings_tmap (s : State) (n : Word) : (s.withHoldings n).tmap = s.tmap := rfl
@[simp] theorem State.withHoldings_frame (s : State) (n : Word) : (s.withHoldings n).frame = s.frame := rfl
@[simp] theorem State.withHoldings_cursor (s : State) (n : Word) : (s.withHoldings n).cursor = s.cursor := rfl
@[simp] theorem State.withHoldings_src (s : State) (n : Word) : (s.withHoldings n).src = s.src := rfl
@[simp] theorem State.withHoldings_lastScroll (s : State) (n : Word) : (s.withHoldings n).lastScroll = s.lastScroll := rfl
@[simp] theorem State.withHoldings_panel (s : State) (n : Word) : (s.withHoldings n).panel = s.panel := rfl
@[simp] theorem State.withHoldings_trace (s : State) (n : Word) : (s.withHoldings n).trace = s.trace := rfl
@[simp] theorem State.withHoldings_env (s : State) (n : Word) : (s.withHoldings n).env = s.env := rfl
@[simp] theorem State.withHoldings_draws (s : State) (n : Word) : (s.withHoldings n).draws = s.draws := rfl
@[simp] theorem State.withHoldings_inputs (s : State) (n : Word) : (s.withHoldings n).inputs = s.inputs := rfl
@[simp] theorem State.withHoldings_stopAfter (s : State) (n : Word) : (s.withHoldings n).stopAfter = s.stopAfter := rfl

@[simp] theorem State.nowConfigured_platform (s : State) (m : PinMask) : (s.nowConfigured m).platform = s.platform := rfl
@[simp] theorem State.nowConfigured_outBits (s : State) (m : PinMask) : (s.nowConfigured m).outBits = s.outBits ||| m := rfl
@[simp] theorem State.nowConfigured_inBits (s : State) (m : PinMask) : (s.nowConfigured m).inBits = s.inBits := rfl
@[simp] theorem State.nowConfigured_slowdown (s : State) (m : PinMask) : (s.nowConfigured m).slowdown = s.slowdown := rfl
@[simp] theorem State.nowConfigured_res (s : State) (m : PinMask) : (s.nowConfigured m).res = m := rfl
@[simp] theorem State.nowConfigured_rowMask (s : State) (m : PinMask) : (s.nowConfigured m).rowMask = s.rowMask := rfl
@[simp] theorem State.nowConfigured_timing (s : State) (m : PinMask) : (s.nowConfigured m).timing = s.timing := rfl
@[simp] theorem State.nowConfigured_mode (s : State) (m : PinMask) : (s.nowConfigured m).mode = s.mode := rfl
@[simp] theorem State.nowConfigured_pos (s : State) (m : PinMask) : (s.nowConfigured m).pos = s.pos := rfl
@[simp] theorem State.nowConfigured_phase (s : State) (m : PinMask) : (s.nowConfigured m).phase = s.phase := rfl
@[simp] theorem State.nowConfigured_stopReq (s : State) (m : PinMask) : (s.nowConfigured m).stopReq = s.stopReq := rfl
@[simp] theorem State.nowConfigured_scrollEn (s : State) (m : PinMask) : (s.nowConfigured m).scrollEn = s.scrollEn := rfl
@[simp] theorem State.nowConfigured_err (s : State) (m : PinMask) : (s.nowConfigured m).err = s.err := rfl
@[simp] theorem State.nowConfigured_fsel (s : State) (m : PinMask) : (s.nowConfigured m).fsel = s.fsel := rfl
@[simp] theorem State.nowConfigured_outlatch (s : State) (m : PinMask) : (s.nowConfigured m).outlatch = s.outlatch := rfl
@[simp] theorem State.nowConfigured_cnt (s : State) (m : PinMask) : (s.nowConfigured m).cnt = s.cnt := rfl
@[simp] theorem State.nowConfigured_gmap (s : State) (m : PinMask) : (s.nowConfigured m).gmap = s.gmap := rfl
@[simp] theorem State.nowConfigured_tmap (s : State) (m : PinMask) : (s.nowConfigured m).tmap = s.tmap := rfl
@[simp] theorem State.nowConfigured_frame (s : State) (m : PinMask) : (s.nowConfigured m).frame = s.frame := rfl
@[simp] theorem State.nowConfigured_cursor (s : State) (m : PinMask) : (s.nowConfigured m).cursor = s.cursor := rfl
@[simp] theorem State.nowConfigured_src (s : State) (m : PinMask) : (s.nowConfigured m).src = s.src := rfl
@[simp] theorem State.nowConfigured_lastScroll (s : State) (m : PinMask) : (s.nowConfigured m).lastScroll = s.lastScroll := rfl
@[simp] theorem State.nowConfigured_panel (s : State) (m : PinMask) : (s.nowConfigured m).panel = s.panel := rfl
@[simp] theorem State.nowConfigured_trace (s : State) (m : PinMask) : (s.nowConfigured m).trace = s.trace := rfl
@[simp] theorem State.nowConfigured_env (s : State) (m : PinMask) : (s.nowConfigured m).env = s.env := rfl
@[simp] theorem State.nowConfigured_draws (s : State) (m : PinMask) : (s.nowConfigured m).draws = s.draws := rfl
@[simp] theorem State.nowConfigured_inputs (s : State) (m : PinMask) : (s.nowConfigured m).inputs = s.inputs := rfl
@[simp] theorem State.nowConfigured_stopAfter (s : State) (m : PinMask) : (s.nowConfigured m).stopAfter = s.stopAfter := rfl

/-- A state that differs only in time is unchanged in every other field. -/
theorem TimeAside.refl (s : State) : TimeAside s s := rfl

theorem TimeAside.trans {s t u : State} (h : TimeAside s t) (k : TimeAside t u) : TimeAside s u := by
  unfold TimeAside at *; rw [k, h]

theorem PinsAside.refl (s : State) : PinsAside s s := rfl

theorem PinsAside.trans {s t u : State} (h : PinsAside s t) (k : PinsAside t u) : PinsAside s u := by
  unfold PinsAside at *; rw [k, h]

theorem TimeAside.pinsAside {s t : State} (h : TimeAside s t) : PinsAside s t := by
  unfold TimeAside PinsAside at *; rw [h]

theorem FselAside.refl (s : State) : FselAside s s := rfl

theorem FselAside.trans {s t u : State} (h : FselAside s t) (k : FselAside t u) : FselAside s u := by
  unfold FselAside at *; rw [k, h]

theorem PinsAside.platform {s t : State} (h : PinsAside s t) : t.platform = s.platform := by rw [h]
theorem PinsAside.outBits {s t : State} (h : PinsAside s t) : t.outBits = s.outBits := by rw [h]
theorem PinsAside.inBits {s t : State} (h : PinsAside s t) : t.inBits = s.inBits := by rw [h]
theorem PinsAside.slowdown {s t : State} (h : PinsAside s t) : t.slowdown = s.slowdown := by rw [h]
theorem PinsAside.res {s t : State} (h : PinsAside s t) : t.res = s.res := by rw [h]
theorem PinsAside.rowMask {s t : State} (h : PinsAside s t) : t.rowMask = s.rowMask := by rw [h]
theorem PinsAside.timing {s t : State} (h : PinsAside s t) : t.timing = s.timing := by rw [h]
theorem PinsAside.mode {s t : State} (h : PinsAside s t) : t.mode = s.mode := by rw [h]
theorem PinsAside.pos {s t : State} (h : PinsAside s t) : t.pos = s.pos := by rw [h]
theorem PinsAside.phase {s t : State} (h : PinsAside s t) : t.phase = s.phase := by rw [h]
theorem PinsAside.stopReq {s t : State} (h : PinsAside s t) : t.stopReq = s.stopReq := by rw [h]
theorem PinsAside.scrollEn {s t : State} (h : PinsAside s t) : t.scrollEn = s.scrollEn := by rw [h]
theorem PinsAside.err {s t : State} (h : PinsAside s t) : t.err = s.err := by rw [h]
theorem PinsAside.fsel {s t : State} (h : PinsAside s t) : t.fsel = s.fsel := by rw [h]
theorem PinsAside.gmap {s t : State} (h : PinsAside s t) : t.gmap = s.gmap := by rw [h]
theorem PinsAside.tmap {s t : State} (h : PinsAside s t) : t.tmap = s.tmap := by rw [h]
theorem PinsAside.frame {s t : State} (h : PinsAside s t) : t.frame = s.frame := by rw [h]
theorem PinsAside.cursor {s t : State} (h : PinsAside s t) : t.cursor = s.cursor := by rw [h]
theorem PinsAside.src {s t : State} (h : PinsAside s t) : t.src = s.src := by rw [h]
theorem PinsAside.lastScroll {s t : State} (h : PinsAside s t) : t.lastScroll = s.lastScroll := by rw [h]
theorem PinsAside.inputs {s t : State} (h : PinsAside s t) : t.inputs = s.inputs := by rw [h]
theorem PinsAside.stopAfter {s t : State} (h : PinsAside s t) : t.stopAfter = s.stopAfter := by rw [h]

theorem TimeAside.platform {s t : State} (h : TimeAside s t) : t.platform = s.platform := by rw [h]
theorem TimeAside.outBits {s t : State} (h : TimeAside s t) : t.outBits = s.outBits := by rw [h]
theorem TimeAside.inBits {s t : State} (h : TimeAside s t) : t.inBits = s.inBits := by rw [h]
theorem TimeAside.slowdown {s t : State} (h : TimeAside s t) : t.slowdown = s.slowdown := by rw [h]
theorem TimeAside.res {s t : State} (h : TimeAside s t) : t.res = s.res := by rw [h]
theorem TimeAside.rowMask {s t : State} (h : TimeAside s t) : t.rowMask = s.rowMask := by rw [h]
theorem TimeAside.timing {s t : State} (h : TimeAside s t) : t.timing = s.timing := by rw [h]
theorem TimeAside.mode {s t : State} (h : TimeAside s t) : t.mode = s.mode := by rw [h]
theorem TimeAside.pos {s t : State} (h : TimeAside s t) : t.pos = s.pos := by rw [h]
theorem TimeAside.phase {s t : State} (h : TimeAside s t) : t.phase = s.phase := by rw [h]
theorem TimeAside.stopReq {s t : State} (h : TimeAside s t) : t.stopReq = s.stopReq := by rw [h]
theorem TimeAside.scrollEn {s t : State} (h : TimeAside s t) : t.scrollEn = s.scrollEn := by rw [h]
theorem TimeAside.err {s t : State} (h : TimeAside s t) : t.err = s.err := by rw [h]
theorem TimeAside.fsel {s t : State} (h : TimeAside s t) : t.fsel = s.fsel := by rw [h]
theorem TimeAside.outlatch {s t : State} (h : TimeAside s t) : t.outlatch = s.outlatch := by rw [h]
theorem TimeAside.gmap {s t : State} (h : TimeAside s t) : t.gmap = s.gmap := by rw [h]
theorem TimeAside.tmap {s t : State} (h : TimeAside s t) : t.tmap = s.tmap := by rw [h]
theorem TimeAside.frame {s t : State} (h : TimeAside s t) : t.frame = s.frame := by rw [h]
theorem TimeAside.cursor {s t : State} (h : TimeAside s t) : t.cursor = s.cursor := by rw [h]
theorem TimeAside.src {s t : State} (h : TimeAside s t) : t.src = s.src := by rw [h]
theorem TimeAside.lastScroll {s t : State} (h : TimeAside s t) : t.lastScroll = s.lastScroll := by rw [h]
theorem TimeAside.panel {s t : State} (h : TimeAside s t) : t.panel = s.panel := by rw [h]
theorem TimeAside.inputs {s t : State} (h : TimeAside s t) : t.inputs = s.inputs := by rw [h]
theorem TimeAside.stopAfter {s t : State} (h : TimeAside s t) : t.stopAfter = s.stopAfter := by rw [h]

theorem FselAside.platform {s t : State} (h : FselAside s t) : t.platform = s.platform := by rw [h]
theorem FselAside.outBits {s t : State} (h : FselAside s t) : t.outBits = s.outBits := by rw [h]
theorem FselAside.inBits {s t : State} (h : FselAside s t) : t.inBits = s.inBits := by rw [h]
theorem FselAside.slowdown {s t : State} (h : FselAside s t) : t.slowdown = s.slowdown := by rw [h]
theorem FselAside.res {s t : State} (h : FselAside s t) : t.res = s.res := by rw [h]
theorem FselAside.rowMask {s t : State} (h : FselAside s t) : t.rowMask = s.rowMask := by rw [h]
theorem FselAside.timing {s t : State} (h : FselAside s t) : t.timing = s.timing := by rw [h]
theorem FselAside.mode {s t : State} (h : FselAside s t) : t.mode = s.mode := by rw [h]
theorem FselAside.pos {s t : State} (h : FselAside s t) : t.pos = s.pos := by rw [h]
theorem FselAside.phase {s t : State} (h : FselAside s t) : t.phase = s.phase := by rw [h]
theorem FselAside.stopReq {s t : State} (h : FselAside s t) : t.stopReq = s.stopReq := by rw [h]
theorem FselAside.scrollEn {s t : State} (h : FselAside s t) : t.scrollEn = s.scrollEn := by rw [h]
theorem FselAside.err {s t : State} (h : FselAside s t) : t.err = s.err := by rw [h]
theorem FselAside.outlatch {s t : State} (h : FselAside s t) : t.outlatch = s.outlatch := by rw [h]
theorem FselAside.gmap {s t : State} (h : FselAside s t) : t.gmap = s.gmap := by rw [h]
theorem FselAside.tmap {s t : State} (h : FselAside s t) : t.tmap = s.tmap := by rw [h]
theorem FselAside.frame {s t : State} (h : FselAside s t) : t.frame = s.frame := by rw [h]
theorem FselAside.cursor {s t : State} (h : FselAside s t) : t.cursor = s.cursor := by rw [h]
theorem FselAside.src {s t : State} (h : FselAside s t) : t.src = s.src := by rw [h]
theorem FselAside.lastScroll {s t : State} (h : FselAside s t) : t.lastScroll = s.lastScroll := by rw [h]
theorem FselAside.panel {s t : State} (h : FselAside s t) : t.panel = s.panel := by rw [h]
theorem FselAside.inputs {s t : State} (h : FselAside s t) : t.inputs = s.inputs := by rw [h]
theorem FselAside.stopAfter {s t : State} (h : FselAside s t) : t.stopAfter = s.stopAfter := by rw [h]

end Sys2Proof.Machine
end

