-- ==== Sys2Proof/Laws/Ops.lean ====
section
/-! SUPPORT. For each shared operation, one lemma that says what it answers when its window is mapped, and one that says
when it is refused: later proofs cite these and unfold nothing. -/

namespace Sys2Proof.Machine

/-! ### The two ways an operation ends -/

@[simp] theorem ok_bind {α β : Type} (a : α) (f : α → Except Refusal β) : (Except.ok a >>= f) = f a := rfl

@[simp] theorem error_bind {α β : Type} (e : Refusal) (f : α → Except Refusal β) :
    ((Except.error e : Except Refusal α) >>= f) = .error e := rfl

@[simp] theorem complete_ok (s : State) : complete (.ok s) = .next s := rfl

@[simp] theorem complete_error (r : Refusal) : complete (.error r) = .refused r := rfl

@[simp] theorem require_true (r : Refusal) : require true r = .ok () := rfl

@[simp] theorem require_false (r : Refusal) : require false r = .error r := rfl

theorem complete_eq_next {x : Except Refusal State} {t : State} : complete x = .next t ↔ x = .ok t := by
  cases x <;> simp [complete]

theorem complete_eq_refused {x : Except Refusal State} {r : Refusal} : complete x = .refused r ↔ x = .error r := by
  cases x <;> simp [complete]

/-- A sequence answers exactly when its first part does and the rest answers from there. -/
theorem bind_eq_ok {α β : Type} {x : Except Refusal α} {f : α → Except Refusal β} {b : β} :
    (x >>= f) = .ok b ↔ ∃ a, x = .ok a ∧ f a = .ok b := by
  cases x <;> simp

theorem require_eq_ok {ok : Bool} {r : Refusal} {u : Unit} : require ok r = .ok u ↔ ok = true := by
  cases ok <;> simp

/-! ### The window accesses -/

theorem fselWordOf_lt (k : PinIndex) : (fselWordOf k).val < 3 := (fselWordOf k).isLt

theorem regWrite_set {s : State} (h : s.gmap = .mapped) (v : Word) :
    regWrite .gpio Config.setWord v s =
      .ok ((s.tick.drive (s.outlatch ||| v)).record (.write .gpio Config.setWord v)) := by
  simp [regWrite, regWriteNow, State.handle, h, Config.setWord]

theorem regWrite_clr {s : State} (h : s.gmap = .mapped) (v : Word) :
    regWrite .gpio Config.clrWord v s =
      .ok ((s.tick.drive (s.outlatch &&& ~~~v)).record (.write .gpio Config.clrWord v)) := by
  simp [regWrite, regWriteNow, State.handle, h, Config.setWord, Config.clrWord]

theorem regWrite_fsel {s : State} (h : s.gmap = .mapped) (w : Fin 3) (v : Word) :
    regWrite .gpio w.val v s =
      .ok ({ s.tick with fsel := s.fsel.set w.val v }.record (.write .gpio w.val v)) := by
  simp [regWrite, regWriteNow, State.handle, h]

theorem regRead_fsel {s : State} (h : s.gmap = .mapped) (w : Fin 3) :
    regRead .gpio w.val s = .ok (s.fsel[w.val], s.tick.record (.read .gpio w.val s.fsel[w.val])) := by
  simp [regRead, regReadNow, State.handle, h]

/-- The level-register's read: the latch on output pins, a draw elsewhere. -/
theorem regRead_lev {s : State} (h : s.gmap = .mapped) :
    regRead .gpio Config.levWord s =
      .ok (pinLevels s.fsel s.outlatch s.tick.drawnLevels,
        s.tick.afterLevels.record (.read .gpio Config.levWord (pinLevels s.fsel s.outlatch s.tick.drawnLevels))) := by
  simp [regRead, regReadNow, State.handle, h, Config.setWord, Config.clrWord, Config.levWord]

theorem regRead_unmapped {w : Window} {word : Nat} {s : State} (h : s.handle w ≠ .mapped) :
    regRead w word s = .error (.windowNotMapped w) := by
  have h' : s.tick.handle w ≠ .mapped := by cases w <;> simpa [State.handle] using h
  simp [regRead, regReadNow, h']

theorem regWrite_unmapped {w : Window} {word : Nat} {v : Word} {s : State} (h : s.handle w ≠ .mapped) :
    regWrite w word v s = .error (.windowNotMapped w) := by
  have h' : s.tick.handle w ≠ .mapped := by cases w <;> simpa [State.handle] using h
  simp [regWrite, regWriteNow, h']

/-- A word the map of the GPIO window does not place is refused, read or written (10_state.md R38). -/
theorem gpio_undescribed {s : State} (h : s.gmap = .mapped) {word : Nat} (h3 : 3 ≤ word) (h7 : word ≠ 7)
    (h10 : word ≠ 10) (h13 : word ≠ 13) (v : Word) :
    regRead .gpio word s = .error (.undescribedWord .gpio word) ∧
      regWrite .gpio word v s = .error (.undescribedWord .gpio word) := by
  have : ¬ word < 3 := by omega
  simp [regRead, regReadNow, regWrite, regWriteNow, State.handle, h, this, h7, h10, h13, Config.setWord,
    Config.clrWord, Config.levWord]

/-- TimerRead: the count at that moment, with no side effect (41_timer.md R140). -/
theorem timerRead_ok {s : State} (h : s.tmap = .mapped) :
    timerRead s = .ok (s.tick.cnt, s.tick.record (.read .timer s.platform.timerWord s.tick.cnt)) := by
  simp [timerRead, regRead, regReadNow, State.handle, h]

theorem timerRead_unmapped {s : State} (h : s.tmap ≠ .mapped) : timerRead s = .error (.windowNotMapped .timer) :=
  regRead_unmapped (w := .timer) h

theorem tick_timeAside (s : State) : TimeAside s s.tick := rfl

theorem record_timeAside (s : State) (e : BusEvent) : TimeAside s (s.record e) := rfl

/-! ### Panel: a repeated identical write shows the panel nothing new -/

theorem observe_repeat (p : PinTable) (m : PinMask) (x y : Word) (panel : Panel) :
    (panel.observe p m x y).observe p m y y = panel.observe p m x y := by
  unfold Panel.observe clockRises
  cases y.getLsbD p.clk.val <;> cases y.getLsbD p.lat.val <;> simp

/-! ### Bursts of identical writes -/

/-- n + 1 identical writes of the set-register: one change of the latch, n + 1 accesses. -/
theorem regWriteTimes_set (v : Word) (n : Nat) {s : State} (h : s.gmap = .mapped) :
    ∃ t, regWriteTimes .gpio Config.setWord v (n + 1) s = .ok t ∧ PinsAside s t ∧ t.outlatch = s.outlatch ||| v ∧
      t.panel = s.panel.observe s.platform.pins s.rowMask s.outlatch (s.outlatch ||| v) ∧
      t.trace = List.replicate (n + 1) (.write .gpio Config.setWord v) ++ s.trace := by
  induction n generalizing s with
  | zero =>
    refine ⟨(s.tick.drive (s.outlatch ||| v)).record (.write .gpio Config.setWord v), ?_, rfl, rfl, rfl, rfl⟩
    rw [regWriteTimes, regWrite_set h]; rfl
  | succ n ih =>
    let s1 := (s.tick.drive (s.outlatch ||| v)).record (.write .gpio Config.setWord v)
    have h1 : s1.gmap = .mapped := h
    obtain ⟨t, ht, ha, ho, hp, htr⟩ := ih h1
    have hor : s.outlatch ||| v ||| v = s.outlatch ||| v := by rw [BitVec.or_assoc, BitVec.or_self]
    refine ⟨t, ?_, PinsAside.trans (t := s1) rfl ha, ?_, ?_, ?_⟩
    · rw [regWriteTimes, regWrite_set h]; exact ht
    · rw [ho]; exact hor
    · rw [hp]
      show Panel.observe _ _ _ _ (s.panel.observe s.platform.pins s.rowMask s.outlatch (s.outlatch ||| v)) = _
      show Panel.observe s.platform.pins s.rowMask (s.outlatch ||| v) (s.outlatch ||| v ||| v) _ = _
      rw [hor, observe_repeat]
    · rw [htr]
      show _ ++ (BusEvent.write .gpio Config.setWord v :: s.trace) = _
      rw [List.replicate_succ' (n := n + 1), List.append_assoc]
      rfl

/-- n + 1 identical writes of the clear-register. -/
theorem regWriteTimes_clr (v : Word) (n : Nat) {s : State} (h : s.gmap = .mapped) :
    ∃ t, regWriteTimes .gpio Config.clrWord v (n + 1) s = .ok t ∧ PinsAside s t ∧ t.outlatch = s.outlatch &&& ~~~v ∧
      t.panel = s.panel.observe s.platform.pins s.rowMask s.outlatch (s.outlatch &&& ~~~v) ∧
      t.trace = List.replicate (n + 1) (.write .gpio Config.clrWord v) ++ s.trace := by
  induction n generalizing s with
  | zero =>
    refine ⟨(s.tick.drive (s.outlatch &&& ~~~v)).record (.write .gpio Config.clrWord v), ?_, rfl, rfl, rfl, rfl⟩
    rw [regWriteTimes, regWrite_clr h]; rfl
  | succ n ih =>
    let s1 := (s.tick.drive (s.outlatch &&& ~~~v)).record (.write .gpio Config.clrWord v)
    have h1 : s1.gmap = .mapped := h
    obtain ⟨t, ht, ha, ho, hp, htr⟩ := ih h1
    have hand : s.outlatch &&& ~~~v &&& ~~~v = s.outlatch &&& ~~~v := by rw [BitVec.and_assoc, BitVec.and_self]
    refine ⟨t, ?_, PinsAside.trans (t := s1) rfl ha, ?_, ?_, ?_⟩
    · rw [regWriteTimes, regWrite_clr h]; exact ht
    · rw [ho]; exact hand
    · rw [hp]
      show Panel.observe s.platform.pins s.rowMask (s.outlatch &&& ~~~v) (s.outlatch &&& ~~~v &&& ~~~v) _ = _
      rw [hand]
      exact observe_repeat ..
    · rw [htr]
      show _ ++ (BusEvent.write .gpio Config.clrWord v :: s.trace) = _
      rw [List.replicate_succ' (n := n + 1), List.append_assoc]
      rfl

/-- Everything `set` does (40_gpio.md R122). -/
theorem setPins_spec (mask : PinMask) {s : State} (h : s.gmap = .mapped) :
    ∃ t, setPins mask s = .ok t ∧ PinsAside s t ∧ t.outlatch = s.outlatch ||| mask ∧
      t.panel = s.panel.observe s.platform.pins s.rowMask s.outlatch (s.outlatch ||| mask) ∧
      t.trace = writeBurst s Config.setWord mask ++ s.trace := by
  have := regWriteTimes_set mask s.slowdown.toNat h
  rwa [Nat.add_comm s.slowdown.toNat 1] at this

/-- Everything `clear` does (40_gpio.md R123). -/
theorem clearPins_spec (mask : PinMask) {s : State} (h : s.gmap = .mapped) :
    ∃ t, clearPins mask s = .ok t ∧ PinsAside s t ∧ t.outlatch = s.outlatch &&& ~~~mask ∧
      t.panel = s.panel.observe s.platform.pins s.rowMask s.outlatch (s.outlatch &&& ~~~mask) ∧
      t.trace = writeBurst s Config.clrWord mask ++ s.trace := by
  have := regWriteTimes_clr mask s.slowdown.toNat h
  rwa [Nat.add_comm s.slowdown.toNat 1] at this

theorem setPins_unmapped {mask : PinMask} {s : State} (h : s.gmap ≠ .mapped) :
    setPins mask s = .error (.windowNotMapped .gpio) := by
  rw [setPins, Nat.add_comm, regWriteTimes, regWrite_unmapped (w := .gpio) h]; rfl

theorem clearPins_unmapped {mask : PinMask} {s : State} (h : s.gmap ≠ .mapped) :
    clearPins mask s = .error (.windowNotMapped .gpio) := by
  rw [clearPins, Nat.add_comm, regWriteTimes, regWrite_unmapped (w := .gpio) h]; rfl

/-- The net effect of clear-then-set on a latch value (40_gpio.md R124). -/
def maskedLatch (latch value mask : Word) : Word := latch &&& ~~~(~~~value &&& mask) ||| value &&& mask

theorem maskedLatch_eq (latch value mask : Word) :
    maskedLatch latch value mask = latch &&& ~~~mask ||| value &&& mask := by
  unfold maskedLatch
  ext i
  simp only [BitVec.getElem_or, BitVec.getElem_and, BitVec.getElem_not]
  cases latch[i] <;> cases value[i] <;> cases mask[i] <;> rfl

/-- Everything `write_masked` does (40_gpio.md R124): the clear half, then the set half. -/
theorem writeMasked_spec (value mask : PinMask) {s : State} (h : s.gmap = .mapped) :
    ∃ t, writeMasked value mask s = .ok t ∧ PinsAside s t ∧
      t.outlatch = s.outlatch &&& ~~~mask ||| value &&& mask ∧
      t.panel = (s.panel.observe s.platform.pins s.rowMask s.outlatch (s.outlatch &&& ~~~(~~~value &&& mask))).observe
        s.platform.pins s.rowMask (s.outlatch &&& ~~~(~~~value &&& mask)) (s.outlatch &&& ~~~mask ||| value &&& mask) ∧
      t.trace = writeBurst s Config.setWord (value &&& mask) ++
        (writeBurst s Config.clrWord (~~~value &&& mask) ++ s.trace) := by
  obtain ⟨s1, h1, a1, o1, p1, t1⟩ := clearPins_spec (~~~value &&& mask) h
  obtain ⟨s2, h2, a2, o2, p2, t2⟩ := setPins_spec (value &&& mask) (a1.gmap.trans h)
  refine ⟨s2, ?_, a1.trans a2, ?_, ?_, ?_⟩
  · rw [writeMasked, h1]; exact h2
  · rw [o2, o1]; exact maskedLatch_eq ..
  · rw [p2, p1, o1, a1.platform, a1.rowMask, ← maskedLatch_eq]; rfl
  · rw [t2, t1, writeBurst, a1.slowdown]; rfl

theorem writeMasked_unmapped {value mask : PinMask} {s : State} (h : s.gmap ≠ .mapped) :
    writeMasked value mask s = .error (.windowNotMapped .gpio) := by
  rw [writeMasked, clearPins_unmapped h]; rfl

/-! ### What an answered pin operation tells -/

theorem setPins_inv {mask : PinMask} {s t : State} (h : setPins mask s = .ok t) :
    s.gmap = .mapped ∧ PinsAside s t ∧ t.outlatch = s.outlatch ||| mask := by
  by_cases hm : s.gmap = .mapped
  · obtain ⟨u, hu, a, o, -⟩ := setPins_spec mask hm
    obtain rfl : u = t := by simpa [hu] using h
    exact ⟨hm, a, o⟩
  · simp [setPins_unmapped hm] at h

theorem clearPins_inv {mask : PinMask} {s t : State} (h : clearPins mask s = .ok t) :
    s.gmap = .mapped ∧ PinsAside s t ∧ t.outlatch = s.outlatch &&& ~~~mask := by
  by_cases hm : s.gmap = .mapped
  · obtain ⟨u, hu, a, o, -⟩ := clearPins_spec mask hm
    obtain rfl : u = t := by simpa [hu] using h
    exact ⟨hm, a, o⟩
  · simp [clearPins_unmapped hm] at h

theorem writeMasked_inv {value mask : PinMask} {s t : State} (h : writeMasked value mask s = .ok t) :
    s.gmap = .mapped ∧ PinsAside s t ∧ t.outlatch = s.outlatch &&& ~~~mask ||| value &&& mask := by
  by_cases hm : s.gmap = .mapped
  · obtain ⟨u, hu, a, o, -⟩ := writeMasked_spec value mask hm
    obtain rfl : u = t := by simpa [hu] using h
    exact ⟨hm, a, o⟩
  · simp [writeMasked_unmapped hm] at h

/-! ### Function select -/

/-- Everything `configure_as_output` does (40_gpio.md R120). -/
theorem configureAsOutput_spec (k : PinIndex) {s : State} (h : s.gmap = .mapped) :
    ∃ t, configureAsOutput k s = .ok t ∧ FselAside s t ∧
      t.fsel = s.fsel.set (fselWordOf k).val (fselWithOutput s.fsel[(fselWordOf k).val] k) ∧
      t.trace = [.write .gpio (fselWordOf k).val (fselWithOutput s.fsel[(fselWordOf k).val] k),
        .read .gpio (fselWordOf k).val s.fsel[(fselWordOf k).val]] ++ s.trace := by
  let v := s.fsel[(fselWordOf k).val]
  let s1 := s.tick.record (.read .gpio (fselWordOf k).val v)
  refine ⟨({ s1.tick with fsel := s1.fsel.set (fselWordOf k).val (fselWithOutput v k) }).record
    (.write .gpio (fselWordOf k).val (fselWithOutput v k)), ?_, ?_, rfl, rfl⟩
  rotate_left
  · unfold FselAside; rfl
  rw [configureAsOutput, regRead_fsel h]
  exact regWrite_fsel (s := s1) h _ _

theorem configureAsOutput_unmapped {k : PinIndex} {s : State} (h : s.gmap ≠ .mapped) :
    configureAsOutput k s = .error (.windowNotMapped .gpio) := by
  rw [configureAsOutput, regRead_unmapped (w := .gpio) h]; rfl

/-- With the window mapped, configuring pins is never refused and touches the function-select words only. -/
theorem configurePins_spec (m : PinMask) (ks : List PinIndex) {s : State} (h : s.gmap = .mapped) :
    ∃ t, configurePins m ks s = .ok t ∧ FselAside s t := by
  induction ks generalizing s with
  | nil => exact ⟨s, rfl, rfl⟩
  | cons k ks ih =>
    unfold configurePins
    split
    · obtain ⟨s1, h1, a1, -⟩ := configureAsOutput_spec k h
      obtain ⟨t, ht, a⟩ := ih (a1.gmap.trans h)
      exact ⟨t, by rw [h1]; exact ht, a1.trans a⟩
    · exact ih h

/-- Everything `configure_outputs` does but the function-select words themselves (40_gpio.md R121). -/
theorem configureOutputs_spec (mask : PinMask) {s : State} (h : s.gmap = .mapped) :
    ∃ u, configurePins (s.newPins mask) (List.finRange 28) s = .ok u ∧ FselAside s u ∧
      configureOutputs mask s = .ok (u.nowConfigured (s.newPins mask)) := by
  obtain ⟨u, hu, a⟩ := configurePins_spec (s.newPins mask) (List.finRange 28) h
  refine ⟨u, hu, a, ?_⟩
  unfold configureOutputs
  simp only [hu, ok_bind]

/-! ### Time -/

/-- The wrap-corrected difference never exceeds the counter's maximum (30_encoding.md R103 (f)). -/
theorem elapsed_le (pre post : Word) : elapsed pre post ≤ Config.counterMax := by
  have := pre.isLt; have := post.isLt
  unfold elapsed; simp only [Config.counterMax]; split <;> omega

/-- More than target ticks after a reading, and fewer than 2^32, the elapsed count has reached the target, whether or not
the counter wrapped. -/
theorem elapsed_past (start : Word) {target extra : Nat} (h : target + 1 + extra ≤ Config.counterMax) :
    target ≤ elapsed start (start + BitVec.ofNat 32 (target + 1 + extra)) := by
  have := start.isLt
  unfold elapsed
  simp only [BitVec.toNat_add, BitVec.toNat_ofNat, Config.counterMax] at *
  split <;> omega

theorem tickPast_timeAside (start : Word) (target : Nat) (s : State) : TimeAside s (s.tickPast start target) := by
  unfold State.tickPast; split <;> rfl

theorem tickPast_elapsed (start : Word) {target : Nat} (h : target < Config.counterMax) (s : State) :
    target ≤ elapsed start (s.tickPast start target).cnt := by
  unfold State.tickPast
  split
  · assumption
  · have hm := Nat.mod_lt (Config.freeOvershoot s.draws) (show 0 < Config.counterMax - target by omega)
    exact elapsed_past start (extra := Config.freeOvershoot s.draws % (Config.counterMax - target)) (by omega)

/-- The busy-wait's loop answers, reads nothing but the counter, and its last reading has reached the target. -/
theorem busyWaitLoop_spec (start : Word) {target : Nat} (hT : target < Config.counterMax) (fuel : Nat) {s : State}
    (h : s.tmap = .mapped) :
    ∃ t last mid, busyWaitLoop start target fuel s = .ok t ∧ TimeAside s t ∧
      t.trace = .read .timer s.platform.timerWord last :: mid ++ s.trace ∧ t.cnt = last ∧
      target ≤ elapsed start last ∧
      ∀ e ∈ mid, ∃ v, e = .read .timer s.platform.timerWord v ∧ elapsed start v < target := by
  induction fuel generalizing s with
  | zero =>
    have a := tickPast_timeAside start target s
    let v := (s.tickPast start target).cnt
    have htr : (s.tickPast start target).trace = s.trace := by unfold State.tickPast; split <;> rfl
    refine ⟨(s.tickPast start target).record (.read .timer s.platform.timerWord v), v, [], ?_,
      a.trans (record_timeAside _ _), ?_, rfl, tickPast_elapsed start hT s, by simp⟩
    · simp [busyWaitLoop, regReadNow, State.handle, a.tmap, h, a.platform, v]
    · rw [State.record_trace, htr]; rfl
  | succ n ih =>
    rw [busyWaitLoop, timerRead_ok h]
    simp only [ok_bind]
    split
    · exact ⟨s.tick.record (.read .timer s.platform.timerWord s.tick.cnt), s.tick.cnt, [], rfl, rfl, rfl, rfl,
        by assumption, by simp⟩
    · rename_i hlt
      obtain ⟨t, last, mid, ht, a, htr, hc, he, hm⟩ :=
        ih (s := s.tick.record (.read .timer s.platform.timerWord s.tick.cnt)) h
      refine ⟨t, last, mid ++ [.read .timer s.platform.timerWord s.tick.cnt], ht,
        TimeAside.trans (t := s.tick.record (.read .timer s.platform.timerWord s.tick.cnt)) rfl a, ?_, hc, he, ?_⟩
      · rw [htr]; simp
      · intro e hmem
        rcases List.mem_append.mp hmem with hmem | hmem
        · exact hm e hmem
        · exact ⟨s.tick.cnt, by simpa using hmem, by omega⟩

/-- BusyWait: it answers, and between its first and its last reading the elapsed count reached the target
(41_timer.md R145, R146). -/
theorem busyWait_spec {target : Nat} (hT : target < Config.counterMax) {s : State} (h : s.tmap = .mapped) :
    ∃ t start last mid, busyWait target s = .ok t ∧ TimeAside s t ∧
      t.trace = .read .timer s.platform.timerWord last :: mid ++
        (.read .timer s.platform.timerWord start :: s.trace) ∧
      t.cnt = last ∧ target ≤ elapsed start last ∧
      ∀ e ∈ mid, ∃ v, e = .read .timer s.platform.timerWord v ∧ elapsed start v < target := by
  let s1 := s.tick.record (.read .timer s.platform.timerWord s.tick.cnt)
  obtain ⟨t, last, mid, ht, a, htr, hc, he, hm⟩ :=
    busyWaitLoop_spec s.tick.cnt hT (Config.freeWaitReads s1.draws + s1.env.ticks.length) (s := s1) h
  refine ⟨t, s.tick.cnt, last, mid, ?_, TimeAside.trans (t := s1) rfl a, htr, hc, he, hm⟩
  rw [busyWait, timerRead_ok h]; exact ht

theorem busyWait_unmapped {target : Nat} {s : State} (h : s.tmap ≠ .mapped) :
    busyWait target s = .error (.windowNotMapped .timer) := by
  rw [busyWait, timerRead_unmapped h]; rfl

theorem coarseSleep_timeAside (ns : Nat) (s : State) : TimeAside s (coarseSleep ns s) := rfl

@[simp] theorem coarseSleep_trace (ns : Nat) (s : State) : (coarseSleep ns s).trace = .coarseSleep ns :: s.trace := rfl

/-- A request of at most 2^32 - 1 ns is less than the counter's maximum in ticks. -/
theorem nsToTicks_lt {n : Nat} (h : n < 2 ^ 32) : nsToTicks n < Config.counterMax := by
  unfold nsToTicks
  have : n / 1000 ≤ 2 ^ 32 / 1000 := Nat.div_le_div_right (Nat.le_of_lt h)
  simp only [Config.nsPerTick, Config.counterMax] at *
  omega

/-- A measured coarse sleep: two readings of the counter around it, and nothing else. -/
theorem measuredCoarseSleep_spec (ns : Nat) {s : State} (h : s.tmap = .mapped) :
    ∃ t pre, measuredCoarseSleep ns s = .ok (elapsed pre t.cnt, t) ∧ TimeAside s t ∧
      t.trace = [.read .timer s.platform.timerWord t.cnt, .coarseSleep ns, .read .timer s.platform.timerWord pre] ++
        s.trace := by
  generalize h1 : s.tick.record (.read .timer s.platform.timerWord s.tick.cnt) = s1
  have a1 : TimeAside s s1 := by rw [← h1]; rfl
  have r1 : timerRead s = .ok (s.tick.cnt, s1) := by rw [← h1]; exact timerRead_ok h
  generalize h2 : coarseSleep ns s1 = s2
  have a2 : TimeAside s s2 := a1.trans (by rw [← h2]; rfl)
  refine ⟨s2.tick.record (.read .timer s2.platform.timerWord s2.tick.cnt), s.tick.cnt, ?_, a2.trans rfl, ?_⟩
  · unfold measuredCoarseSleep
    simp only [r1, ok_bind, h2, timerRead_ok (a2.tmap.trans h)]
    rfl
  · rw [State.record_trace, State.tick_trace, ← h2, coarseSleep_trace, ← h1, State.record_trace]
    rfl

theorem measuredCoarseSleep_unmapped {ns : Nat} {s : State} (h : s.tmap ≠ .mapped) :
    measuredCoarseSleep ns s = .error (.windowNotMapped .timer) := by
  rw [measuredCoarseSleep, timerRead_unmapped h]; rfl

/-- BusyWait, as its callers see it. -/
theorem busyWait_events {target : Nat} (hT : target < Config.counterMax) {s : State} (h : s.tmap = .mapped) :
    ∃ t evs, busyWait target s = .ok t ∧ TimeAside s t ∧ t.trace = evs ++ s.trace ∧
      BusyWaitEvents s.platform target evs := by
  obtain ⟨t, start, last, mid, ht, a, htr, -, he, hm⟩ := busyWait_spec hT h
  exact ⟨t, .read .timer s.platform.timerWord last :: mid ++ [.read .timer s.platform.timerWord start], ht, a,
    by rw [htr]; simp, start, last, mid, rfl, he, hm⟩

/-- A busy-wait is a delay. -/
theorem BusyWaitEvents.delay {p : Platform} {target : Nat} {evs : List BusEvent} (h : BusyWaitEvents p target evs) :
    evs.all (BusEvent.isDelay p) = true := by
  obtain ⟨start, last, mid, rfl, -, hm⟩ := h
  have hall : mid.all (BusEvent.isDelay p) = true := by
    rw [List.all_eq_true]; intro e he
    obtain ⟨v, rfl, -⟩ := hm e he
    simp [BusEvent.isDelay]
  simp [BusEvent.isDelay, hall]

/-- What sleep_nanos adds to the trace is a delay. -/
theorem SleepEvents.delay {p : Platform} {n : Nat} {evs : List BusEvent} (h : SleepEvents p n evs) :
    evs.all (BusEvent.isDelay p) = true := by
  by_cases hn : n ≤ p.sleepThresholdNs
  · exact (h.1 hn).delay
  · obtain ⟨pre, post, tail, rfl, h0, h1⟩ := h.2 (by omega)
    have ht : tail.all (BusEvent.isDelay p) = true := by
      by_cases hd : n ≤ elapsed pre post * 1000
      · rw [h0 hd]; rfl
      · exact (h1 (by omega)).delay
    simp [BusEvent.isDelay, ht]

/-- Everything a delay does: it answers, time passes, and it adds its readings and its coarse sleep to the trace
(41_timer.md R143 to R146). -/
theorem sleepNanos_spec {n : Nat} (hn : n < 2 ^ 32) {s : State} (h : s.tmap = .mapped) :
    ∃ t evs, sleepNanos n s = .ok t ∧ TimeAside s t ∧ t.trace = evs ++ s.trace ∧ SleepEvents s.platform n evs := by
  unfold sleepNanos
  split
  · next hlt =>
    obtain ⟨u, pre, hu, a, htr⟩ := measuredCoarseSleep_spec (n - s.platform.jitterAllowanceNs) h
    simp only [hu, ok_bind]
    split
    · next hd =>
      exact ⟨u, _, rfl, a, htr, fun hc => absurd hc (by omega), fun _ => ⟨pre, u.cnt, [], rfl, fun _ => rfl,
        fun hc => absurd hd (Nat.not_le.mpr hc)⟩⟩
    · next hd =>
      have hlt' : nsToTicks (n - elapsed pre u.cnt * Config.nsPerTick) < Config.counterMax :=
        nsToTicks_lt (Nat.lt_of_le_of_lt (Nat.sub_le _ _) hn)
      obtain ⟨t, evs, ht, a', htr', hw⟩ := busyWait_events hlt' (a.tmap.trans h)
      rw [a.platform] at hw
      exact ⟨t, _, ht, a.trans a', by rw [htr', htr, ← List.append_assoc], fun hc => absurd hc (by omega),
        fun _ => ⟨pre, u.cnt, evs, rfl, fun hc => absurd hc hd, fun _ => hw⟩⟩
  · next hlt =>
    obtain ⟨t, evs, ht, a, htr, hw⟩ := busyWait_events (nsToTicks_lt hn) h
    exact ⟨t, evs, ht, a, htr, fun _ => hw, fun hc => absurd hc hlt⟩

theorem sleepNanos_unmapped {n : Nat} {s : State} (h : s.tmap ≠ .mapped) :
    sleepNanos n s = .error (.windowNotMapped .timer) := by
  unfold sleepNanos
  split
  · rw [measuredCoarseSleep_unmapped h]; rfl
  · exact busyWait_unmapped h

theorem sleepNanos_inv {n : Nat} (hn : n < 2 ^ 32) {s t : State} (h : sleepNanos n s = .ok t) :
    s.tmap = .mapped ∧ TimeAside s t := by
  by_cases hm : s.tmap = .mapped
  · obtain ⟨u, -, hu, a, -⟩ := sleepNanos_spec hn hm
    obtain rfl : u = t := by simpa [hu] using h
    exact ⟨hm, a⟩
  · simp [sleepNanos_unmapped hm] at h

/-! ### The scroll load -/

/-- ADVANCE's work, said once: it answers exactly with a usable source image (42_frame.md R160). -/
theorem advanceFrame_eq_ok {s t : State} :
    advanceFrame s = .ok t ↔ ∃ img, s.src = some img ∧ img.usable = true ∧
      t = { s with frame := img.visible s.cursor, cursor := (s.cursor + 1) % img.width } := by
  unfold advanceFrame
  cases hs : s.src with
  | none => simp
  | some img =>
    by_cases hu : img.usable = true
    · simp only [hu, if_true, Except.ok.injEq, Option.some.injEq]
      exact ⟨fun h => ⟨img, rfl, hu, h.symm⟩, fun ⟨_, hi, _, h⟩ => by rw [h, hi]⟩
    · simp only [hu, Bool.false_eq_true, if_false, reduceCtorEq, false_iff]
      rintro ⟨img', hi, hu', -⟩
      exact hu ((Option.some.inj hi) ▸ hu')

theorem advanceFrame_error {s : State} {r : Refusal} (h : advanceFrame s = .error r) : r = .noUsableSource := by
  unfold advanceFrame at h
  split at h
  · simpa using h.symm
  · split at h
    · simp at h
    · simpa using h.symm

theorem usable_width {img : SourceImage} (h : img.usable = true) : 32 ≤ img.width ∧ 16 ≤ img.height := by
  unfold SourceImage.usable at h
  simp only [Bool.and_eq_true, decide_eq_true_eq] at h
  exact ⟨h.1.1, h.1.2⟩

@[simp] theorem visible_get (img : SourceImage) (cursor : Nat) (r : Fin 16) (c : Fin 32) :
    ((img.visible cursor)[r])[c] = img.pixel r.val ((cursor + c.val) % img.width) := by
  simp [SourceImage.visible]

/-! ### Opening a window -/

/-- Opening a window, said once: the privilege check first, then the mapping (44_system.md R220). -/
theorem openWindow_cases (w : Window) (s : State) :
    (s.platform.privileged = false ∧ openWindow w s = .error .privilegeError) ∨
      (s.platform.privileged = true ∧ s.mapOk w = false ∧ openWindow w s = .error .mapError) ∨
      (s.platform.privileged = true ∧ s.mapOk w = true ∧ openWindow w s = .ok (s.setHandle w .mapped)) := by
  unfold openWindow
  cases s.platform.privileged <;> cases s.mapOk w <;> simp

@[simp] theorem handle_setHandle (s : State) (w : Window) (h : Handle) : (s.setHandle w h).handle w = h := by
  cases w <;> rfl

end Sys2Proof.Machine
end

