-- ==== Sys2Proof/Laws/Trace.lean ====
section
/-! SUPPORT. The trace of window accesses: how the writes of consecutive operations compose. -/

namespace Sys2Proof.Machine

theorem gpioWrites_append (late early : List BusEvent) :
    gpioWrites (late ++ early) = gpioWrites early ++ gpioWrites late := by
  simp [gpioWrites]

theorem gpioWrites_replicate (n : Nat) (word : Nat) (v : Word) :
    gpioWrites (List.replicate n (.write .gpio word v)) = List.replicate n (word, v) := by
  simp only [gpioWrites, List.reverse_replicate]
  induction n with
  | zero => rfl
  | succ n ih => rw [List.replicate_succ, List.filterMap_cons, ih]; rfl

theorem gpioWrites_burst (s : State) (word : Nat) (mask : PinMask) :
    gpioWrites (writeBurst s word mask) = repeated s [(word, mask)] := by
  simp [writeBurst, gpioWrites_replicate, repeated]

theorem burst_reads_nothing (s : State) (word : Nat) (mask : PinMask) :
    (writeBurst s word mask).all (fun e => !e.isGpioRead) = true := by
  simp [writeBurst, BusEvent.isGpioRead]

/-- A delay writes nothing. -/
theorem gpioWrites_delay {p : Platform} {evs : List BusEvent} (h : evs.all (BusEvent.isDelay p) = true) :
    gpioWrites evs = [] := by
  unfold gpioWrites
  rw [List.filterMap_eq_nil_iff]
  intro e he
  have := List.all_eq_true.mp h e (List.mem_reverse.mp he)
  cases e <;> simp_all [BusEvent.isDelay, BusEvent.gpioWrite?]

/-- A delay reads nothing of the GPIO window. -/
theorem delay_reads_nothing {p : Platform} {evs : List BusEvent} (h : evs.all (BusEvent.isDelay p) = true) :
    evs.all (fun e => !e.isGpioRead) = true := by
  rw [List.all_eq_true] at *
  intro e he
  have := h e he
  cases e with
  | read w word v => cases w <;> simp_all [BusEvent.isDelay, BusEvent.isGpioRead]
  | write w word v => rfl
  | coarseSleep n => rfl

theorem Wrote.refl (s : State) : Wrote s s [] := ⟨[], rfl, rfl, rfl⟩

theorem Wrote.trans {s t u : State} {a b : List (Nat × Word)} (h : Wrote s t a) (k : Wrote t u b) :
    Wrote s u (a ++ b) := by
  obtain ⟨e1, t1, w1, r1⟩ := h
  obtain ⟨e2, t2, w2, r2⟩ := k
  exact ⟨e2 ++ e1, by rw [t2, t1, List.append_assoc], by rw [gpioWrites_append, w1, w2], by
    rw [List.all_append, r1, r2]; rfl⟩

theorem Wrote.of_burst {s t : State} {word : Nat} {mask : PinMask} (h : t.trace = writeBurst s word mask ++ s.trace) :
    Wrote s t (repeated s [(word, mask)]) :=
  ⟨_, h, gpioWrites_burst .., burst_reads_nothing ..⟩

theorem Wrote.of_delay {s t : State} {p : Platform} {evs : List BusEvent} (h : t.trace = evs ++ s.trace)
    (hd : evs.all (BusEvent.isDelay p) = true) : Wrote s t [] :=
  ⟨evs, h, gpioWrites_delay hd, delay_reads_nothing hd⟩

theorem repeated_append (s : State) (a b : List (Nat × Word)) : repeated s (a ++ b) = repeated s a ++ repeated s b := by
  simp [repeated]

theorem repeated_congr {s t : State} (h : t.slowdown = s.slowdown) (ws : List (Nat × Word)) :
    repeated t ws = repeated s ws := by
  unfold repeated; rw [h]

/-- Counting the writes of a trace. -/
theorem gpioWrites_count (word : Nat) (evs : List BusEvent) :
    evs.countP (BusEvent.isWriteTo word) = (gpioWrites evs).countP (fun w => w.1 == word) := by
  unfold gpioWrites
  rw [← List.countP_reverse]
  induction evs.reverse with
  | nil => rfl
  | cons e es ih =>
    rw [List.countP_cons, ih]
    cases e with
    | read w k v => simp [List.filterMap_cons, BusEvent.gpioWrite?, BusEvent.isWriteTo]
    | write w k v => cases w <;> simp [List.filterMap_cons, BusEvent.gpioWrite?, BusEvent.isWriteTo, List.countP_cons]
    | coarseSleep d => simp [List.filterMap_cons, BusEvent.gpioWrite?, BusEvent.isWriteTo]

theorem gpioWrites_length (evs : List BusEvent) : evs.countP BusEvent.isGpioWrite = (gpioWrites evs).length := by
  unfold gpioWrites
  rw [← List.countP_reverse]
  induction evs.reverse with
  | nil => rfl
  | cons e es ih =>
    rw [List.countP_cons, ih]
    cases e with
    | read w k v => simp [List.filterMap_cons, BusEvent.gpioWrite?, BusEvent.isGpioWrite]
    | write w k v => cases w <;> simp [List.filterMap_cons, BusEvent.gpioWrite?, BusEvent.isGpioWrite]
    | coarseSleep d => simp [List.filterMap_cons, BusEvent.gpioWrite?, BusEvent.isGpioWrite]

theorem Wrote.count {s t : State} {ws : List (Nat × Word)} (h : Wrote s t ws) (word : Nat) :
    t.trace.countP (BusEvent.isWriteTo word) =
      s.trace.countP (BusEvent.isWriteTo word) + ws.countP (fun w => w.1 == word) := by
  obtain ⟨evs, ht, rfl, -⟩ := h
  rw [ht, List.countP_append, gpioWrites_count, Nat.add_comm]

theorem Wrote.count_all {s t : State} {ws : List (Nat × Word)} (h : Wrote s t ws) :
    t.trace.countP BusEvent.isGpioWrite = s.trace.countP BusEvent.isGpioWrite + ws.length := by
  obtain ⟨evs, ht, rfl, -⟩ := h
  rw [ht, List.countP_append, gpioWrites_length, Nat.add_comm]

end Sys2Proof.Machine
end

