-- ==== Sys2Proof/Laws/Sequencer.lean ====
section
/-! SUPPORT. What each step of a row-plane does, said once: it answers when its windows are mapped, changes only what a pin
operation changes, ends with a latch value that is a function of the start, and makes a fixed list of writes. -/

namespace Sys2Proof.Machine

/-! ### Masks -/

theorem and_or_self_right (a b : Word) : (a ||| b) &&& b = b := by
  ext i; simp only [BitVec.getElem_and, BitVec.getElem_or]; cases a[i] <;> cases b[i] <;> rfl

theorem maskIf_and (b : Bool) (m k : PinMask) (h : m &&& k = m) : maskIf b m &&& k = maskIf b m := by
  cases b
  · simp [maskIf]
  · simpa [maskIf] using h

/-- The result of plane_bits is a subset of COLOR_MASK (42_frame.md R161). -/
theorem planeBits_and_color (p : PinTable) (top bottom : Pixel) (plane : Nat) :
    planeBits p top bottom plane &&& colorMask p = planeBits p top bottom plane := by
  have key : ∀ (b : Bool) (m : PinMask), m &&& colorMask p = m → maskIf b m &&& colorMask p = maskIf b m :=
    fun b m h => maskIf_and b m _ h
  have mem : ∀ m, (m = pinBit p.r1 ∨ m = pinBit p.g1 ∨ m = pinBit p.b1 ∨ m = pinBit p.r2 ∨ m = pinBit p.g2 ∨
      m = pinBit p.b2) → m &&& colorMask p = m := by
    intro m h
    ext i
    simp only [colorMask, BitVec.getElem_and, BitVec.getElem_or]
    rcases h with rfl | rfl | rfl | rfl | rfl | rfl <;> simp <;> intro h <;> simp [h]
  have dist : ∀ a b k : Word, (a ||| b) &&& k = (a &&& k) ||| (b &&& k) := by
    intro a b k
    ext i
    simp only [BitVec.getElem_and, BitVec.getElem_or]
    cases a[i] <;> cases b[i] <;> cases k[i] <;> rfl
  unfold planeBits
  simp only [dist]
  rw [key _ _ (mem _ (by simp)), key _ _ (mem _ (by simp)), key _ _ (mem _ (by simp)), key _ _ (mem _ (by simp)),
    key _ _ (mem _ (by simp)), key _ _ (mem _ (by simp))]

/-- It never leaves the color+clock lines, so masking it against CC_MASK changes nothing (43_sequencer.md R182). -/
theorem planeBits_and_cc (p : PinTable) (top bottom : Pixel) (plane : Nat) :
    planeBits p top bottom plane &&& ccMask p = planeBits p top bottom plane := by
  have h := planeBits_and_color p top bottom plane
  generalize planeBits p top bottom plane = x at *
  unfold ccMask
  rw [← h]
  ext i
  simp only [BitVec.getElem_and, BitVec.getElem_or]
  cases x[i] <;> cases (colorMask p)[i] <;> cases (pinBit p.clk)[i] <;> rfl

/-- A row address lies in ROW_MASK (40_gpio.md R126). -/
theorem rowAddressBits_and (p : PinTable) (rowMask : PinMask) (dr : Nat) :
    rowAddressBits p rowMask dr &&& rowMask = rowAddressBits p rowMask dr := by
  unfold rowAddressBits
  rw [BitVec.and_assoc, BitVec.and_self]

/-! ### The steps -/

/-- Step 1 and step 3 (43_sequencer.md R181). -/
theorem clearColourClock_spec {s : State} (h : s.gmap = .mapped) :
    ∃ t, clearColourClock s = .ok t ∧ PinsAside s t ∧ t.outlatch = s.outlatch &&& ~~~ccMask s.platform.pins ∧
      t.panel = s.panel.observe s.platform.pins s.rowMask s.outlatch (s.outlatch &&& ~~~ccMask s.platform.pins) ∧
      t.trace = writeBurst s Config.clrWord (ccMask s.platform.pins) ++ s.trace :=
  clearPins_spec _ h

/-- One column (43_sequencer.md R182). -/
theorem shiftColumn_spec (dr pl : Fin 8) (col : Fin 32) {s : State} (h : s.gmap = .mapped) :
    ∃ t, shiftColumn dr pl col s = .ok t ∧ PinsAside s t ∧
      t.outlatch = s.outlatch &&& ~~~ccMask s.platform.pins |||
        planeBits s.platform.pins (topPixel s.frame dr col) (bottomPixel s.frame dr col) pl.val |||
        pinBit s.platform.pins.clk ∧
      Wrote s t (repeated s (columnWrites s dr pl col)) := by
  obtain ⟨s1, h1, a1, o1, -, t1⟩ := clearColourClock_spec h
  let pb := planeBits s1.platform.pins (topPixel s1.frame dr col) (bottomPixel s1.frame dr col) pl.val
  obtain ⟨s2, h2, a2, o2, -, t2⟩ := writeMasked_spec pb (ccMask s1.platform.pins) (a1.gmap.trans h)
  obtain ⟨s3, h3, a3, o3, -, t3⟩ := setPins_spec (pinBit s2.platform.pins.clk) ((a1.trans a2).gmap.trans h)
  have hpb : pb &&& ccMask s1.platform.pins = pb := planeBits_and_cc ..
  have e12 := a1.trans a2
  refine ⟨s3, ?_, e12.trans a3, ?_, ?_⟩
  · unfold shiftColumn
    simp only [h1, ok_bind]
    show (writeMasked pb _ s1 >>= _) = _
    simp only [h2, ok_bind, h3]
  · rw [o3, o2, o1, e12.platform, hpb, a1.platform, BitVec.and_assoc, BitVec.and_self]
    simp only [pb, a1.platform, a1.frame]
  · have w1 : Wrote s s1 (repeated s [(10, ccMask s.platform.pins)]) := Wrote.of_burst t1
    have w2 : Wrote s1 s2 (repeated s [(10, ~~~pb &&& ccMask s.platform.pins)] ++ repeated s [(7, pb)]) := by
      rw [← a1.platform, ← repeated_congr a1.slowdown, ← repeated_congr a1.slowdown]
      refine ⟨writeBurst s1 7 (pb &&& ccMask s1.platform.pins) ++
        writeBurst s1 10 (~~~pb &&& ccMask s1.platform.pins), ?_, ?_, ?_⟩
      · rw [t2, List.append_assoc]
      · rw [gpioWrites_append, gpioWrites_burst, gpioWrites_burst, hpb]
      · rw [List.all_append, burst_reads_nothing, burst_reads_nothing]; rfl
    have w3 : Wrote s2 s3 (repeated s [(7, pinBit s.platform.pins.clk)]) := by
      rw [← e12.platform, ← repeated_congr e12.slowdown]; exact Wrote.of_burst t3
    have := (w1.trans w2).trans w3
    simp only [← repeated_append] at this
    simpa only [columnWrites, pb, a1.platform, a1.frame, List.cons_append, List.nil_append] using this

/-- The address (43_sequencer.md R183). -/
theorem putAddress_spec (dr : Nat) {s : State} (h : s.gmap = .mapped) :
    ∃ t, putAddress dr s = .ok t ∧ PinsAside s t ∧
      t.outlatch = s.outlatch &&& ~~~s.rowMask ||| rowAddressBits s.platform.pins s.rowMask dr ∧
      Wrote s t (repeated s [(10, ~~~rowAddressBits s.platform.pins s.rowMask dr &&& s.rowMask),
        (7, rowAddressBits s.platform.pins s.rowMask dr)]) := by
  obtain ⟨t, ht, a, o, -, htr⟩ := writeMasked_spec (rowAddressBits s.platform.pins s.rowMask dr) s.rowMask h
  rw [rowAddressBits_and] at o htr
  refine ⟨t, ht, a, o, ?_⟩
  refine ⟨writeBurst s 7 _ ++ writeBurst s 10 _, by rw [htr, List.append_assoc], ?_, ?_⟩
  · rw [gpioWrites_append, gpioWrites_burst, gpioWrites_burst, ← repeated_append]; rfl
  · rw [List.all_append, burst_reads_nothing, burst_reads_nothing]; rfl

/-- The latch pulse (43_sequencer.md R184). -/
theorem pulseLatch_spec {s : State} (h : s.gmap = .mapped) :
    ∃ t, pulseLatch s = .ok t ∧ PinsAside s t ∧ t.outlatch = s.outlatch &&& ~~~pinBit s.platform.pins.lat ∧
      t.trace = writeBurst s Config.clrWord (pinBit s.platform.pins.lat) ++
        (writeBurst s Config.setWord (pinBit s.platform.pins.lat) ++ s.trace) := by
  obtain ⟨s1, h1, a1, o1, -, t1⟩ := setPins_spec (pinBit s.platform.pins.lat) h
  obtain ⟨s2, h2, a2, o2, -, t2⟩ := clearPins_spec (pinBit s1.platform.pins.lat) (a1.gmap.trans h)
  refine ⟨s2, ?_, a1.trans a2, ?_, ?_⟩
  · unfold pulseLatch; simp only [h1, ok_bind, h2]
  · rw [o2, o1, a1.platform]
    ext i; simp only [BitVec.getElem_and, BitVec.getElem_or, BitVec.getElem_not]
    cases s.outlatch[i] <;> cases (pinBit s.platform.pins.lat)[i] <;> rfl
  · rw [t2, t1, a1.platform, writeBurst, a1.slowdown]; rfl

/-- The dwell (43_sequencer.md R185): between the two bursts comes the delay of the bitplane's time. -/
theorem dwellPlane_spec (pl : Fin 8) {s : State} (h : s.gmap = .mapped) (ht : s.tmap = .mapped) :
    ∃ t evs, dwellPlane pl s = .ok t ∧ PinsAside s t ∧ t.outlatch = s.outlatch ||| pinBit s.platform.pins.oe ∧
      SleepEvents s.platform (s.timing[pl]).toNat evs ∧
      t.trace = writeBurst s Config.setWord (pinBit s.platform.pins.oe) ++
        (evs ++ (writeBurst s Config.clrWord (pinBit s.platform.pins.oe) ++ s.trace)) := by
  obtain ⟨s1, h1, a1, o1, -, t1⟩ := clearPins_spec (pinBit s.platform.pins.oe) h
  obtain ⟨s2, evs, h2, a2, t2, d2⟩ := sleepNanos_spec (s1.timing[pl]).isLt (a1.tmap.trans ht)
  have a12 := a1.trans a2.pinsAside
  obtain ⟨s3, h3, a3, o3, -, t3⟩ := setPins_spec (pinBit s2.platform.pins.oe) (a12.gmap.trans h)
  refine ⟨s3, evs, ?_, a12.trans a3, ?_, by rwa [a1.platform, a1.timing] at d2, ?_⟩
  · unfold dwellPlane; simp only [h1, ok_bind, h2, h3]
  · rw [o3, a2.outlatch, o1, a12.platform]
    ext i; simp only [BitVec.getElem_and, BitVec.getElem_or, BitVec.getElem_not]
    cases s.outlatch[i] <;> cases (pinBit s.platform.pins.oe)[i] <;> rfl
  · rw [t3, t2, t1, a12.platform, writeBurst, a12.slowdown]; rfl

/-- Column after column: the latch keeps every line but the colour and clock lines, and the writes are the columns' writes
in order. -/
theorem shiftColumns_spec (dr pl : Fin 8) (cols : List (Fin 32)) {s : State} (h : s.gmap = .mapped) :
    ∃ t, shiftColumns dr pl cols s = .ok t ∧ PinsAside s t ∧
      t.outlatch &&& ~~~ccMask s.platform.pins = s.outlatch &&& ~~~ccMask s.platform.pins ∧
      Wrote s t (repeated s (cols.flatMap (columnWrites s dr pl))) := by
  induction cols generalizing s with
  | nil => exact ⟨s, rfl, PinsAside.refl s, rfl, Wrote.refl s⟩
  | cons col cols ih =>
    obtain ⟨s1, h1, a1, o1, w1⟩ := shiftColumn_spec dr pl col h
    obtain ⟨t, ht, a, o, w⟩ := ih (a1.gmap.trans h)
    have hcw : columnWrites s1 dr pl = columnWrites s dr pl := by
      funext c; simp only [columnWrites, a1.platform, a1.frame]
    refine ⟨t, ?_, a1.trans a, ?_, ?_⟩
    · rw [shiftColumns, h1]; exact ht
    · rw [← a1.platform, o, o1, a1.platform]
      have hp := planeBits_and_cc s.platform.pins (topPixel s.frame dr col) (bottomPixel s.frame dr col) pl.val
      generalize planeBits s.platform.pins (topPixel s.frame dr col) (bottomPixel s.frame dr col) pl.val = pb at *
      unfold ccMask at *
      rw [← hp]
      ext i; simp only [BitVec.getElem_and, BitVec.getElem_or, BitVec.getElem_not]
      cases s.outlatch[i] <;> cases pb[i] <;> cases (colorMask s.platform.pins)[i] <;>
        cases (pinBit s.platform.pins.clk)[i] <;> rfl
    · rw [hcw, repeated_congr a1.slowdown] at w
      rw [List.flatMap_cons, repeated_append]
      exact w1.trans w

/-- Steps 1 to 5 (43_sequencer.md R186). -/
theorem rowPlaneShift_spec (dr pl : Fin 8) {s : State} (h : s.gmap = .mapped) :
    ∃ t, rowPlaneShift dr pl s = .ok t ∧ PinsAside s t ∧
      t.outlatch = (s.outlatch &&& ~~~ccMask s.platform.pins &&& ~~~s.rowMask |||
        rowAddressBits s.platform.pins s.rowMask dr.val) &&& ~~~pinBit s.platform.pins.lat ∧
      Wrote s t (repeated s ([(10, ccMask s.platform.pins)] ++ (List.finRange 32).flatMap (columnWrites s dr pl)
        ++ [(10, ccMask s.platform.pins)]
        ++ [(10, ~~~rowAddressBits s.platform.pins s.rowMask dr.val &&& s.rowMask),
          (7, rowAddressBits s.platform.pins s.rowMask dr.val)]
        ++ [(7, pinBit s.platform.pins.lat), (10, pinBit s.platform.pins.lat)])) := by
  obtain ⟨s1, h1, a1, o1, -, t1⟩ := clearColourClock_spec h
  obtain ⟨s2, h2, a2, o2, w2⟩ := shiftColumns_spec dr pl (List.finRange 32) (a1.gmap.trans h)
  have e2 := a1.trans a2
  obtain ⟨s3, h3, a3, o3, -, t3⟩ := clearColourClock_spec (e2.gmap.trans h)
  have e3 := e2.trans a3
  obtain ⟨s4, h4, a4, o4, w4⟩ := putAddress_spec dr.val (e3.gmap.trans h)
  have e4 := e3.trans a4
  obtain ⟨s5, h5, a5, o5, t5⟩ := pulseLatch_spec (e4.gmap.trans h)
  have hcw : columnWrites s1 dr pl = columnWrites s dr pl := by
    funext c; simp only [columnWrites, a1.platform, a1.frame]
  refine ⟨s5, ?_, e4.trans a5, ?_, ?_⟩
  · unfold rowPlaneShift; simp only [h1, ok_bind, h2, h3, h4, h5]
  · rw [a1.platform] at o2
    rw [o5, o4, o3, e2.platform, e3.platform, e3.rowMask, e4.platform, o2, o1, BitVec.and_assoc s.outlatch, BitVec.and_self]
  · have w1 : Wrote s s1 (repeated s [(10, ccMask s.platform.pins)]) := Wrote.of_burst t1
    rw [hcw, repeated_congr a1.slowdown] at w2
    have w3 : Wrote s2 s3 (repeated s [(10, ccMask s.platform.pins)]) := by
      rw [← e2.platform, ← repeated_congr e2.slowdown]; exact Wrote.of_burst t3
    rw [repeated_congr e3.slowdown, e3.platform, e3.rowMask] at w4
    have w5 : Wrote s4 s5 (repeated s [(7, pinBit s.platform.pins.lat), (10, pinBit s.platform.pins.lat)]) := by
      rw [← e4.platform, ← repeated_congr e4.slowdown]
      refine ⟨writeBurst s4 10 _ ++ writeBurst s4 7 _, by rw [t5, List.append_assoc], ?_, ?_⟩
      · rw [gpioWrites_append, gpioWrites_burst, gpioWrites_burst, ← repeated_append]; rfl
      · rw [List.all_append, burst_reads_nothing, burst_reads_nothing]; rfl
    simpa only [← repeated_append] using (((w1.trans w2).trans w3).trans w4).trans w5

/-- The six steps (43_sequencer.md R186). -/
theorem rowPlane_spec (dr pl : Fin 8) {s : State} (h : s.gmap = .mapped) (ht : s.tmap = .mapped) :
    ∃ t, rowPlane dr pl s = .ok { t with pos := Pos.afterRowPlane dr pl } ∧ PinsAside s t ∧
      t.outlatch = rowPlaneLatch s dr.val ∧ Wrote s t (repeated s (rowPlaneWrites s dr pl)) := by
  obtain ⟨s1, h1, a1, o1, w1⟩ := rowPlaneShift_spec dr pl h
  obtain ⟨s2, evs, h2, a2, o2, d2, t2⟩ := dwellPlane_spec pl (a1.gmap.trans h) (a1.tmap.trans ht)
  refine ⟨s2, ?_, a1.trans a2, ?_, ?_⟩
  · unfold rowPlane; simp only [h1, ok_bind, h2]
  · rw [o2, o1, a1.platform]; rfl
  · have w2 : Wrote s1 s2 (repeated s [(10, pinBit s.platform.pins.oe), (7, pinBit s.platform.pins.oe)]) := by
      rw [← a1.platform, ← repeated_congr a1.slowdown]
      refine ⟨writeBurst s1 7 (pinBit s1.platform.pins.oe) ++ (evs ++ writeBurst s1 10 (pinBit s1.platform.pins.oe)),
        by rw [t2]; simp only [List.append_assoc], ?_, ?_⟩
      · rw [gpioWrites_append, gpioWrites_append, gpioWrites_delay d2.delay, gpioWrites_burst, gpioWrites_burst,
          List.append_nil, ← repeated_append]; rfl
      · rw [List.all_append, List.all_append, burst_reads_nothing, burst_reads_nothing, delay_reads_nothing d2.delay]; rfl
    have := w1.trans w2
    rw [← repeated_append] at this
    exact this

/-! ### The sweep -/

/-- A row-plane forgets the row-plane before it: it keeps no line that another one sets. -/
theorem rowPlaneLatch_again {s t : State} (hp : t.platform = s.platform) (hm : t.rowMask = s.rowMask) {dr : Nat}
    (h : t.outlatch = rowPlaneLatch s dr) (dr' : Nat) : rowPlaneLatch t dr' = rowPlaneLatch s dr' := by
  unfold rowPlaneLatch at *
  rw [h, hp, hm]
  have hr := rowAddressBits_and s.platform.pins s.rowMask dr
  generalize rowAddressBits s.platform.pins s.rowMask dr = a at *
  rw [← hr]
  ext i
  simp only [BitVec.getElem_and, BitVec.getElem_or, BitVec.getElem_not]
  cases s.outlatch[i] <;> cases a[i] <;> cases s.rowMask[i] <;> cases (ccMask s.platform.pins)[i] <;>
    cases (pinBit s.platform.pins.lat)[i] <;> cases (pinBit s.platform.pins.oe)[i] <;> simp

/-- A row-plane as its callers see it: it answers with only the pins and POS changed. -/
theorem rowPlane_answers (dr pl : Fin 8) {s : State} (h : s.gmap = .mapped) (ht : s.tmap = .mapped) :
    ∃ t, rowPlane dr pl s = .ok t ∧ PinsAside { s with pos := Pos.afterRowPlane dr pl } t ∧
      t.outlatch = rowPlaneLatch s dr.val ∧ Wrote s t (repeated s (rowPlaneWrites s dr pl)) := by
  obtain ⟨u, hu, a, o, w⟩ := rowPlane_spec dr pl h ht
  refine ⟨_, hu, ?_, o, w⟩
  unfold PinsAside at *
  rw [a]

/-- What a row-plane writes does not depend on POS, the pins or time. -/
theorem rowPlaneWrites_congr {s t : State} {p : Pos} (a : PinsAside { s with pos := p } t) (dr pl : Fin 8) :
    rowPlaneWrites t dr pl = rowPlaneWrites s dr pl := by
  have h1 := a.platform; have h2 := a.rowMask; have h3 := a.frame
  simp only at h1 h2 h3
  have hc : columnWrites t dr pl = columnWrites s dr pl := by
    funext c; simp only [columnWrites, h1, h3]
  simp only [rowPlaneWrites, h1, h2, hc]

/-- The row-planes of some bitplanes of a double-row. -/
theorem rowPlanes_spec (dr : Fin 8) (pl : Fin 8) (pls : List (Fin 8)) {s : State} (h : s.gmap = .mapped)
    (ht : s.tmap = .mapped) :
    ∃ t p, rowPlanes dr (pl :: pls) s = .ok t ∧ PinsAside { s with pos := p } t ∧
      p = Pos.afterRowPlane dr ((pl :: pls).getLast (by simp)) ∧ t.outlatch = rowPlaneLatch s dr.val ∧
      Wrote s t (repeated s ((pl :: pls).flatMap (rowPlaneWrites s dr))) := by
  induction pls generalizing s pl with
  | nil =>
    obtain ⟨t, ht', a, o, w⟩ := rowPlane_answers dr pl h ht
    exact ⟨t, _, by simp only [rowPlanes, ht', ok_bind], a, rfl, o, by simpa using w⟩
  | cons pl' pls ih =>
    obtain ⟨s1, h1, a1, o1, w1⟩ := rowPlane_answers dr pl h ht
    obtain ⟨t, p, ht', a, hp, o, w⟩ := ih pl' (a1.gmap.trans h) (a1.tmap.trans ht)
    refine ⟨t, p, ?_, ?_, ?_, ?_, ?_⟩
    · rw [rowPlanes, h1]; exact ht'
    · unfold PinsAside at *; rw [a, a1]
    · rw [hp]; simp
    · rw [o]; exact rowPlaneLatch_again a1.platform a1.rowMask o1 _
    · have hs : s1.slowdown = s.slowdown := a1.slowdown
      have hw : rowPlaneWrites s1 dr = rowPlaneWrites s dr := funext (rowPlaneWrites_congr a1 dr)
      rw [hw, repeated_congr hs] at w
      rw [List.flatMap_cons, repeated_append]
      exact w1.trans w

/-- The row-planes of some double-rows, eight bitplanes each. -/
theorem doubleRows_spec (dr : Fin 8) (drs : List (Fin 8)) {s : State} (h : s.gmap = .mapped) (ht : s.tmap = .mapped) :
    ∃ t p, doubleRows (dr :: drs) s = .ok t ∧ PinsAside { s with pos := p } t ∧
      p = Pos.afterRowPlane ((dr :: drs).getLast (by simp)) 7 ∧
      t.outlatch = rowPlaneLatch s ((dr :: drs).getLast (by simp)).val ∧
      Wrote s t (repeated s ((dr :: drs).flatMap fun dr => (List.finRange 8).flatMap (rowPlaneWrites s dr))) := by
  have hl : List.finRange 8 = [0, 1, 2, 3, 4, 5, 6, 7] := by decide
  induction drs generalizing s dr with
  | nil =>
    obtain ⟨t, p, ht', a, hp, o, w⟩ := rowPlanes_spec dr 0 [1, 2, 3, 4, 5, 6, 7] h ht
    exact ⟨t, p, by simp only [doubleRows, hl, ht', ok_bind], a, hp, o, by simpa only [List.flatMap_cons, List.flatMap_nil, List.append_nil, hl] using w⟩
  | cons dr' drs ih =>
    obtain ⟨s1, p1, h1, a1, hp1, o1, w1⟩ := rowPlanes_spec dr 0 [1, 2, 3, 4, 5, 6, 7] h ht
    obtain ⟨t, p, ht', a, hp, o, w⟩ := ih dr' (a1.gmap.trans h) (a1.tmap.trans ht)
    refine ⟨t, p, ?_, ?_, ?_, ?_, ?_⟩
    · rw [doubleRows, hl, h1]; exact ht'
    · unfold PinsAside at *; rw [a, a1]
    · rw [hp]; simp
    · rw [o]
      have := rowPlaneLatch_again (t := s1) (s := s) a1.platform a1.rowMask o1
        ((dr' :: drs).getLast (by simp)).val
      rw [this]; simp
    · have hs : s1.slowdown = s.slowdown := a1.slowdown
      have hw : rowPlaneWrites s1 = rowPlaneWrites s := by
        funext dr pl; exact rowPlaneWrites_congr a1 dr pl
      rw [hw, repeated_congr hs] at w
      rw [hl] at w
      rw [List.flatMap_cons, repeated_append, hl]
      exact w1.trans w

/-- Everything a sweep does (43_sequencer.md R187, R191). -/
theorem sweepPanel_spec {s : State} (h : s.gmap = .mapped) (ht : s.tmap = .mapped) :
    ∃ t, sweepPanel s = .ok t ∧ PinsAside { s with pos := { dr := 7, pl := 7, col := 0, step := .dwell } } t ∧
      t.outlatch = rowPlaneLatch s 7 ∧ Wrote s t (repeated s (sweepWrites s)) := by
  have hl : List.finRange 8 = [0, 1, 2, 3, 4, 5, 6, 7] := by decide
  obtain ⟨t, p, ht', a, hp, o, w⟩ :=
    doubleRows_spec 0 [1, 2, 3, 4, 5, 6, 7] (s := { s with pos := Pos.start }) h ht
  refine ⟨t, by rw [sweepPanel, hl]; exact ht', ?_, o, ?_⟩
  · subst hp; exact a
  · rw [sweepWrites, hl]; rw [hl] at w; exact w

end Sys2Proof.Machine
end

