-- ==== Sys2Proof/Laws/Exec.lean ====
section
/-! SUPPORT. For each operation, what its acceptance check leaves to do, and what a next state tells: later proofs cite
these and unfold no meaning. -/

namespace Sys2Proof.Machine

/-! ### Outside the acceptance table -/

theorem execMapopen_eq (w : Window) (s : State) : exec (.mapopen w) s =
    if acceptedIn (.mapopen w) s then .next (match openWindow w s with | .error e => raise e s | .ok t => t)
    else .refused .wrongState := by
  show execMapopen w s = _
  unfold execMapopen acceptedIn require
  split
  · simp only [ok_bind]; cases openWindow w s <;> rfl
  · rfl

theorem execMapclose_eq (w : Window) (s : State) : exec (.mapclose w) s =
    if acceptedIn (.mapclose w) s then .next (s.setHandle w .released) else .refused .wrongState := by
  show execMapclose w s = _
  unfold execMapclose acceptedIn require State.mayClose
  split <;> rfl

theorem execInit_eq (n : Word) (s : State) : exec (.init n) s =
    if acceptedIn (.init n) s then
      (match openWindow .gpio s with | .error e => .next (raise e s) | .ok t => complete (constructGpio n t))
    else .refused .wrongState := by
  show execInit n s = _
  unfold execInit acceptedIn require
  split
  · simp only [ok_bind]; cases openWindow .gpio s <;> rfl
  · rfl

theorem execTinit_eq (s : State) : exec .tinit s =
    if acceptedIn .tinit s then
      .next (match openWindow .timer s with
        | .error e => raise e s
        | .ok t => readyIf (t.gmap == .mapped && t.initCompleted) t)
    else .refused .wrongState := by
  show execTinit s = _
  unfold execTinit acceptedIn require
  split
  · simp only [ok_bind]; cases openWindow .timer s <;> rfl
  · rfl

theorem execTeardown_eq (s : State) : exec .teardown s =
    if acceptedIn .teardown s then .next { s with gmap := s.gmap.release, tmap := s.tmap.release }
    else .refused .wrongState := by
  show execTeardown s = _
  unfold execTeardown acceptedIn require State.mayClose
  split <;> rfl

theorem execRun_eq (b : Bool) (s : State) : exec (.run b) s =
    if acceptedIn (.run b) s then
      complete (do
        requireMapped .gpio s
        requireMapped .timer s
        let (now, s) ← timerRead { s with scrollEn := b }
        .ok { s with lastScroll := now, mode := .running, pos := Pos.start, phase := .poll })
    else .refused .wrongState := by
  show execRun b s = _
  unfold execRun acceptedIn State.isReady
  cases s.mode == .ready <;> rfl

theorem execCfgout1_eq (pin : PinOperand) (s : State) : exec (.cfgout1 pin) s =
    if acceptedIn (.cfgout1 pin) s then complete (pinOperand pin >>= fun k => configureAsOutput k s)
    else .refused .wrongState := by
  show execCfgout1 pin s = _
  unfold execCfgout1 acceptedIn State.gpioAccepted State.inSetup
  cases s.gmap == .mapped && (s.mode == .reset || s.mode == .ready) <;> rfl

theorem execCfgouts_eq (mask : PinMask) (s : State) : exec (.cfgouts mask) s =
    if acceptedIn (.cfgouts mask) s then complete (configureOutputs mask s) else .refused .wrongState := by
  show execCfgouts mask s = _
  unfold execCfgouts acceptedIn State.gpioAccepted State.inSetup
  cases s.gmap == .mapped && (s.mode == .reset || s.mode == .ready) <;> rfl

theorem execSet_eq (mask : PinMask) (s : State) : exec (.set mask) s =
    if acceptedIn (.set mask) s then complete (setPins mask s) else .refused .wrongState := by
  show execSet mask s = _
  unfold execSet acceptedIn State.gpioAccepted State.inSetup
  cases s.gmap == .mapped && (s.mode == .reset || s.mode == .ready) <;> rfl

theorem execClr_eq (mask : PinMask) (s : State) : exec (.clr mask) s =
    if acceptedIn (.clr mask) s then complete (clearPins mask s) else .refused .wrongState := by
  show execClr mask s = _
  unfold execClr acceptedIn State.gpioAccepted State.inSetup
  cases s.gmap == .mapped && (s.mode == .reset || s.mode == .ready) <;> rfl

theorem execWrm_eq (value mask : PinMask) (s : State) : exec (.wrm value mask) s =
    if acceptedIn (.wrm value mask) s then complete (writeMasked value mask s) else .refused .wrongState := by
  show execWrm value mask s = _
  unfold execWrm acceptedIn State.gpioAccepted State.inSetup
  cases s.gmap == .mapped && (s.mode == .reset || s.mode == .ready) <;> rfl

theorem execRowaddr_eq (dr : Word) (s : State) : exec (.rowaddr dr) s =
    if acceptedIn (.rowaddr dr) s then .next { s with res := rowAddressBits s.platform.pins s.rowMask dr.toNat }
    else .refused .wrongState := by
  show execRowaddr dr s = _
  unfold execRowaddr acceptedIn State.mayCompute
  cases s.mode != .running && s.mode != .faulted <;> rfl

theorem execRdlev_eq (s : State) : exec .rdlev s =
    if acceptedIn .rdlev s then
      .next { s.tick.afterLevels.record (.read .gpio Config.levWord (pinLevels s.fsel s.outlatch s.tick.drawnLevels)) with
        res := pinLevels s.fsel s.outlatch s.tick.drawnLevels }
    else .refused .wrongState := by
  show execRdlev s = _
  unfold execRdlev
  have e : acceptedIn .rdlev s = s.gpioAccepted := rfl
  rw [e]
  by_cases h : s.gpioAccepted = true
  · have hm : s.gmap = .mapped := by
      unfold State.gpioAccepted at h
      simp only [Bool.and_eq_true, beq_iff_eq] at h
      exact h.1
    simp only [h, require_true, ok_bind, regRead_lev hm, if_true]; rfl
  · simp only [Bool.not_eq_true] at h
    simp [h]

theorem execTread_eq (s : State) : exec .tread s =
    if acceptedIn .tread s then
      .next { s.tick.record (.read .timer s.platform.timerWord s.tick.cnt) with res := s.tick.cnt }
    else .refused .wrongState := by
  show execTread s = _
  unfold execTread
  have e : acceptedIn .tread s = s.timerAccepted := rfl
  rw [e]
  by_cases h : s.timerAccepted = true
  · have hm : s.tmap = .mapped := by
      unfold State.timerAccepted at h
      simp only [Bool.and_eq_true, beq_iff_eq] at h
      exact h.1
    simp only [h, require_true, ok_bind, timerRead_ok hm, if_true]; rfl
  · simp only [Bool.not_eq_true] at h
    simp [h]

theorem execSleepns_eq (n : Word) (s : State) : exec (.sleepns n) s =
    if acceptedIn (.sleepns n) s then complete (sleepNanos n.toNat s) else .refused .wrongState := by
  show execSleepns n s = _
  unfold execSleepns acceptedIn State.timerAccepted State.inSetup
  cases s.tmap == .mapped && (s.mode == .reset || s.mode == .ready) <;> rfl

theorem execAdvance_eq (s : State) : exec .advance s =
    if acceptedIn .advance s then complete (advanceFrame s) else .refused .wrongState := by
  show execAdvance s = _
  unfold execAdvance acceptedIn State.advanceAccepted State.inSetup
  cases (s.mode == .reset || s.mode == .ready) && s.src.isSome <;> rfl

theorem execPlanebits_eq (top : Pixel) (plane : Byte) (bottom : Pixel) (s : State) :
    exec (.planebits top plane bottom) s =
      if acceptedIn (.planebits top plane bottom) s then
        .next { s with res := planeBits s.platform.pins top bottom plane.toNat }
      else .refused .wrongState := by
  show execPlanebits top plane bottom s = _
  unfold execPlanebits acceptedIn State.mayCompute
  cases s.mode != .running && s.mode != .faulted <;> rfl

theorem execClrcc_eq (s : State) : exec .clrcc s =
    if acceptedIn .clrcc s then complete (clearColourClock s) else .refused .wrongState := by
  show execClrcc s = _
  unfold execClrcc acceptedIn State.isReady
  cases s.mode == .ready <;> rfl

theorem execShiftcol_eq (dr : Word) (pl col : Byte) (s : State) : exec (.shiftcol dr pl col) s =
    if acceptedIn (.shiftcol dr pl col) s then
      complete (do
        let dr ← octalOperand dr.toNat
        let pl ← octalOperand pl.toNat
        let col ← columnOperand col.toNat
        shiftColumn dr pl col s)
    else .refused .wrongState := by
  show execShiftcol dr pl col s = _
  unfold execShiftcol acceptedIn State.isReady
  cases s.mode == .ready <;> rfl

theorem execAddr_eq (dr : Word) (s : State) : exec (.addr dr) s =
    if acceptedIn (.addr dr) s then complete (putAddress dr.toNat s) else .refused .wrongState := by
  show execAddr dr s = _
  unfold execAddr acceptedIn State.isReady
  cases s.mode == .ready <;> rfl

theorem execLatch_eq (s : State) : exec .latch s =
    if acceptedIn .latch s then complete (pulseLatch s) else .refused .wrongState := by
  show execLatch s = _
  unfold execLatch acceptedIn State.isReady
  cases s.mode == .ready <;> rfl

theorem execDwell_eq (pl : Word) (s : State) : exec (.dwell pl) s =
    if acceptedIn (.dwell pl) s then complete (octalOperand pl.toNat >>= fun pl => dwellPlane pl s)
    else .refused .wrongState := by
  show execDwell pl s = _
  unfold execDwell acceptedIn State.isReady
  cases s.mode == .ready <;> rfl

theorem execRowplane_eq (dr pl : Word) (s : State) : exec (.rowplane dr pl) s =
    if acceptedIn (.rowplane dr pl) s then
      complete (do
        let dr ← octalOperand dr.toNat
        let pl ← octalOperand pl.toNat
        rowPlane dr pl s)
    else .refused .wrongState := by
  show execRowplane dr pl s = _
  unfold execRowplane acceptedIn State.isReady
  cases s.mode == .ready <;> rfl

theorem execSweep_eq (s : State) : exec .sweep s =
    if acceptedIn .sweep s then complete (sweepPanel s) else .refused .wrongState := by
  show execSweep s = _
  unfold execSweep acceptedIn State.isReady
  cases s.mode == .ready <;> rfl

theorem execScrollchk_eq (s : State) : exec .scrollchk s =
    if acceptedIn .scrollchk s then
      complete (do
        requireMapped .gpio s
        requireMapped .timer s
        scrollCheck s)
    else .refused .wrongState := by
  show execScrollchk s = _
  unfold execScrollchk acceptedIn State.isReady
  cases s.mode == .ready <;> rfl

/-! ### Operands -/

theorem octalOperand_eq_ok {v : Nat} {k : Fin 8} : octalOperand v = .ok k ↔ v = k.val := by
  unfold octalOperand
  split
  · simp only [Except.ok.injEq, Fin.ext_iff]
  · simp only [reduceCtorEq, false_iff]; have := k.isLt; omega

theorem columnOperand_eq_ok {v : Nat} {k : Fin 32} : columnOperand v = .ok k ↔ v = k.val := by
  unfold columnOperand
  split
  · simp only [Except.ok.injEq, Fin.ext_iff]
  · simp only [reduceCtorEq, false_iff]; have := k.isLt; omega

theorem pinOperand_eq_ok {p : PinOperand} {k : PinIndex} : pinOperand p = .ok k ↔ p.raw.toNat = k.val := by
  unfold pinOperand
  split
  · simp only [Except.ok.injEq, Fin.ext_iff]
  · simp only [reduceCtorEq, false_iff]; have := k.isLt; omega

theorem octalOperand_high {v : Nat} (h : 8 ≤ v) : octalOperand v = .error .indexOutOfRange := by
  unfold octalOperand; rw [dif_neg (by omega)]

theorem columnOperand_high {v : Nat} (h : 32 ≤ v) : columnOperand v = .error .indexOutOfRange := by
  unfold columnOperand; rw [dif_neg (by omega)]

theorem pinOperand_high {p : PinOperand} (h : 28 ≤ p.raw.toNat) : pinOperand p = .error .pinIndexOutOfRange := by
  unfold pinOperand; rw [dif_neg (by omega)]

theorem requireMapped_ok {w : Window} {s : State} (h : s.handle w = .mapped) : requireMapped w s = .ok () := by
  simp [requireMapped, h]

theorem requireMapped_eq_ok {w : Window} {s : State} {u : Unit} : requireMapped w s = .ok u ↔ s.handle w = .mapped := by
  simp [requireMapped, require_eq_ok]

/-! ### What an answered operation tells -/

theorem clearColourClock_inv {s t : State} (h : clearColourClock s = .ok t) :
    s.gmap = .mapped ∧ PinsAside s t ∧ t.outlatch = s.outlatch &&& ~~~ccMask s.platform.pins := clearPins_inv h

theorem shiftColumn_inv {dr pl : Fin 8} {col : Fin 32} {s t : State} (h : shiftColumn dr pl col s = .ok t) :
    s.gmap = .mapped ∧ PinsAside s t := by
  have h' := h
  unfold shiftColumn at h'
  obtain ⟨s1, h1, -⟩ := bind_eq_ok.mp h'
  have hm := (clearColourClock_inv h1).1
  obtain ⟨u, hu, a, -⟩ := shiftColumn_spec dr pl col hm
  obtain rfl := Except.ok.inj (hu.symm.trans h)
  exact ⟨hm, a⟩

theorem putAddress_inv {dr : Nat} {s t : State} (h : putAddress dr s = .ok t) : s.gmap = .mapped ∧ PinsAside s t :=
  ⟨(writeMasked_inv h).1, (writeMasked_inv h).2.1⟩

theorem pulseLatch_inv {s t : State} (h : pulseLatch s = .ok t) : s.gmap = .mapped ∧ PinsAside s t := by
  have h' := h
  unfold pulseLatch at h'
  obtain ⟨s1, h1, -⟩ := bind_eq_ok.mp h'
  have hm := (setPins_inv h1).1
  obtain ⟨u, hu, a, -⟩ := pulseLatch_spec hm
  obtain rfl := Except.ok.inj (hu.symm.trans h)
  exact ⟨hm, a⟩

theorem dwellPlane_inv {pl : Fin 8} {s t : State} (h : dwellPlane pl s = .ok t) :
    s.gmap = .mapped ∧ s.tmap = .mapped ∧ PinsAside s t := by
  have h' := h
  unfold dwellPlane at h'
  obtain ⟨s1, h1, h'⟩ := bind_eq_ok.mp h'
  obtain ⟨s2, h2, -⟩ := bind_eq_ok.mp h'
  obtain ⟨hm, a1, -⟩ := clearPins_inv h1
  have ht := a1.tmap.symm.trans (sleepNanos_inv (s1.timing[pl]).isLt h2).1
  obtain ⟨u, -, hu, a, -⟩ := dwellPlane_spec pl hm ht
  obtain rfl := Except.ok.inj (hu.symm.trans h)
  exact ⟨hm, ht, a⟩

theorem rowPlane_inv {dr pl : Fin 8} {s t : State} (h : rowPlane dr pl s = .ok t) :
    s.gmap = .mapped ∧ s.tmap = .mapped := by
  unfold rowPlane at h
  obtain ⟨s1, h1, h⟩ := bind_eq_ok.mp h
  obtain ⟨s2, h2, -⟩ := bind_eq_ok.mp h
  have h1' := h1
  unfold rowPlaneShift at h1'
  obtain ⟨s0, h0, -⟩ := bind_eq_ok.mp h1'
  have hm := (clearColourClock_inv h0).1
  obtain ⟨u, hu, a, -⟩ := rowPlaneShift_spec dr pl hm
  obtain rfl := Except.ok.inj (hu.symm.trans h1)
  exact ⟨hm, a.tmap.symm.trans (dwellPlane_inv h2).2.1⟩

theorem sweepPanel_inv {s t : State} (h : sweepPanel s = .ok t) : s.gmap = .mapped ∧ s.tmap = .mapped := by
  have hl : List.finRange 8 = [0, 1, 2, 3, 4, 5, 6, 7] := by decide
  unfold sweepPanel at h
  rw [hl] at h
  unfold doubleRows at h
  obtain ⟨s1, h1, -⟩ := bind_eq_ok.mp h
  rw [hl] at h1
  unfold rowPlanes at h1
  obtain ⟨s2, h2, -⟩ := bind_eq_ok.mp h1
  have := rowPlane_inv h2
  exact this

theorem configureAsOutput_inv {k : PinIndex} {s t : State} (h : configureAsOutput k s = .ok t) :
    s.gmap = .mapped ∧ FselAside s t ∧
      t.fsel = s.fsel.set (fselWordOf k).val (fselWithOutput s.fsel[(fselWordOf k).val] k) := by
  by_cases hm : s.gmap = .mapped
  · obtain ⟨u, hu, a, f, -⟩ := configureAsOutput_spec k hm
    obtain rfl := Except.ok.inj (hu.symm.trans h)
    exact ⟨hm, a, f⟩
  · simp [configureAsOutput_unmapped hm] at h

/-! ### The scroll step -/

/-- Without scrolling the scroll step does nothing at all (43_sequencer.md R188). -/
theorem scrollCheck_off {s : State} (h : s.scrollEn = false) : scrollCheck s = .ok s := by
  simp [scrollCheck, h]

/-- With scrolling: one counter read, then the scroll load exactly when ten milliseconds have elapsed (R188). -/
theorem scrollCheck_on {s : State} (h : s.scrollEn = true) (hm : s.tmap = .mapped) :
    scrollCheck s =
      if 10000 ≤ elapsed s.lastScroll s.tick.cnt then do
        let t ← advanceFrame (s.tick.record (.read .timer s.platform.timerWord s.tick.cnt))
        .ok { t with lastScroll := s.tick.cnt }
      else .ok (s.tick.record (.read .timer s.platform.timerWord s.tick.cnt)) := by
  simp only [scrollCheck, h, timerRead_ok hm, ok_bind, if_true]
  rfl

/-- What an answered scroll step tells. -/
theorem scrollCheck_inv {s t : State} (h : scrollCheck s = .ok t) :
    TimeAside s t ∨
      ∃ img, s.src = some img ∧ img.usable = true ∧
        TimeAside { s with lastScroll := t.lastScroll, frame := img.visible s.cursor,
                           cursor := (s.cursor + 1) % img.width } t := by
  by_cases he : s.scrollEn = true
  · by_cases hm : s.tmap = .mapped
    · rw [scrollCheck_on he hm] at h
      split at h
      · obtain ⟨u, hu, h⟩ := bind_eq_ok.mp h
        obtain ⟨img, hi, hus, rfl⟩ := advanceFrame_eq_ok.mp hu
        obtain rfl := (Except.ok.inj h).symm
        exact .inr ⟨img, hi, hus, rfl⟩
      · obtain rfl := (Except.ok.inj h).symm
        exact .inl rfl
    · simp [scrollCheck, he, timerRead_unmapped hm] at h
  · simp only [Bool.not_eq_true] at he
    rw [scrollCheck_off he] at h
    obtain rfl := Except.ok.inj h
    exact .inl rfl

end Sys2Proof.Machine
end

