-- ==== Sys2Proof/Laws/Fsel.lean ====
section
/-! SUPPORT. The function-select words field by field: configuring a pin makes its own field the output code and keeps
every other field and every bit that is no pin's field (10_state.md R31, 40_gpio.md R120, R121). -/

namespace Sys2Proof.Machine

theorem fieldMask_bit : ∀ (k : PinIndex) (i : Fin 32),
    (0b111#32 <<< fselShiftOf k).getLsbD i.val = decide (fselShiftOf k ≤ i.val ∧ i.val < fselShiftOf k + 3) := by
  decide +kernel

theorem outputCode_bit : ∀ (k : PinIndex) (i : Fin 32),
    (0b001#32 <<< fselShiftOf k).getLsbD i.val = decide (i.val = fselShiftOf k) := by
  decide +kernel

theorem fselShiftOf_le (k : PinIndex) : fselShiftOf k ≤ 27 := by
  unfold fselShiftOf; omega

/-- The new word, bit by bit: the field is 001, every other bit is as it was. -/
theorem fselWithOutput_bit (old : Word) (k : PinIndex) {i : Nat} (h : i < 32) :
    (fselWithOutput old k).getLsbD i =
      if fselShiftOf k ≤ i ∧ i < fselShiftOf k + 3 then decide (i = fselShiftOf k) else old.getLsbD i := by
  have h1 := fieldMask_bit k ⟨i, h⟩
  have h2 := outputCode_bit k ⟨i, h⟩
  simp only at h1 h2
  unfold fselWithOutput
  simp only [BitVec.getLsbD_or, BitVec.getLsbD_and, BitVec.getLsbD_not, h1, h2, h, decide_true, Bool.true_and]
  split
  · next hc => simp [hc]
  · next hc =>
    have : i ≠ fselShiftOf k := by omega
    simp [hc, this]

/-- Two pins of one word have fields that do not overlap. -/
theorem fselShift_apart : ∀ k j : PinIndex, fselWordOf k = fselWordOf j → k ≠ j →
    fselShiftOf k + 3 ≤ fselShiftOf j ∨ fselShiftOf j + 3 ≤ fselShiftOf k := by
  decide +kernel

/-- One function-select word replaced. -/
theorem fsel_get_set (fsel : Vector Word 3) (w n : Fin 3) (v : Word) :
    (fsel.set w.val v)[n] = if n = w then v else fsel[n] := by
  show (fsel.set w.val v)[n.val] = _
  rw [Vector.getElem_set]
  by_cases h : n = w
  · subst h; simp
  · have : w.val ≠ n.val := fun e => h (Fin.ext e.symm)
    simp [h, this]

/-- Its field becomes the output code. -/
theorem fselField_withOutput_self (fsel : Vector Word 3) (k : PinIndex) : fselField (withOutput fsel k) k = 0b001#3 := by
  unfold fselField withOutput
  rw [fsel_get_set, if_pos rfl]
  have hs := fselShiftOf_le k
  ext i hi
  simp only [BitVec.getElem_extractLsb']
  rw [fselWithOutput_bit _ _ (by omega), if_pos (by omega)]
  have : i = 0 ∨ i = 1 ∨ i = 2 := by omega
  rcases this with rfl | rfl | rfl <;> simp

/-- Every other field keeps its value. -/
theorem fselField_withOutput_other (fsel : Vector Word 3) {k j : PinIndex} (h : j ≠ k) :
    fselField (withOutput fsel k) j = fselField fsel j := by
  unfold fselField withOutput
  rw [fsel_get_set]
  split
  · next hw =>
    have hs := fselShiftOf_le j
    have ha := fselShift_apart k j hw.symm (Ne.symm h)
    ext i hi
    simp only [BitVec.getElem_extractLsb']
    rw [fselWithOutput_bit _ _ (by omega), if_neg (by omega)]
    simp only [hw]; rfl
  · rfl

theorem outside_bit : ∀ (k : PinIndex) (i : Fin 32), fselShiftOf k ≤ i.val → i.val < fselShiftOf k + 3 →
    (fselOutside (fselWordOf k)).getLsbD i.val = false := by
  decide +kernel

/-- Every bit that is no pin's field keeps its value (10_state.md R31). -/
theorem outside_withOutput (fsel : Vector Word 3) (k : PinIndex) (n : Fin 3) :
    (withOutput fsel k)[n] &&& fselOutside n = fsel[n] &&& fselOutside n := by
  unfold withOutput
  rw [fsel_get_set]
  split
  · next hw =>
    subst hw
    apply BitVec.eq_of_getLsbD_eq
    intro i hi
    simp only [BitVec.getLsbD_and]
    rw [fselWithOutput_bit _ _ hi]
    split
    · next hc => rw [outside_bit k ⟨i, hi⟩ hc.1 hc.2]; simp
    · rfl
  · rfl

/-- Configuring pins touches the function-select words only. -/
theorem configureEvents_words (ks : List PinIndex) (fsel : Vector Word 3) :
    ∀ e ∈ configureEvents fsel ks, ∃ n v, n < 3 ∧ (e = .read .gpio n v ∨ e = .write .gpio n v) := by
  induction ks generalizing fsel with
  | nil => intro e h; cases h
  | cons k ks ih =>
    intro e h
    have hk : k.val / 10 < 3 := by omega
    rcases List.mem_cons.mp h with rfl | h
    · exact ⟨_, _, hk, .inl rfl⟩
    · rcases List.mem_cons.mp h with rfl | h
      · exact ⟨_, _, hk, .inr rfl⟩
      · exact ih _ e h

theorem configureEvents_length (ks : List PinIndex) (fsel : Vector Word 3) :
    (configureEvents fsel ks).length = 2 * ks.length := by
  induction ks generalizing fsel with
  | nil => rfl
  | cons k ks ih => simp only [configureEvents, List.length_cons, ih]; omega

/-- Everything configuring a list of different pins does to the function-select words and to the trace
(40_gpio.md R121). -/
theorem configurePins_fields (m : PinMask) (ks : List PinIndex) (hk : ks.Nodup) {s : State} (h : s.gmap = .mapped) :
    ∃ t, configurePins m ks s = .ok t ∧ FselAside s t ∧
      (∀ j, fselField t.fsel j = if j ∈ ks ∧ m.getLsbD j.val = true then 0b001#3 else fselField s.fsel j) ∧
      (∀ n : Fin 3, t.fsel[n] &&& fselOutside n = s.fsel[n] &&& fselOutside n) ∧
      t.trace = (configureEvents s.fsel (ks.filter fun k => m.getLsbD k.val)).reverse ++ s.trace := by
  induction ks generalizing s with
  | nil => exact ⟨s, rfl, rfl, by simp, fun _ => rfl, rfl⟩
  | cons k ks ih =>
    obtain ⟨hk1, hk2⟩ := List.nodup_cons.mp hk
    unfold configurePins
    split
    · next hb =>
      obtain ⟨s1, h1, a1, f1, t1⟩ := configureAsOutput_spec k h
      obtain ⟨t, ht, a, hf, ho, he⟩ := ih hk2 (a1.gmap.trans h)
      have f1' : s1.fsel = withOutput s.fsel k := f1
      refine ⟨t, by rw [h1]; exact ht, a1.trans a, ?_, ?_, ?_⟩
      · intro j
        rw [hf j]
        by_cases hj : j = k
        · subst hj
          rw [if_neg (by simp [hk1]), if_pos ⟨by simp, hb⟩, f1', fselField_withOutput_self]
        · rw [f1', fselField_withOutput_other _ hj]
          simp [hj]
      · intro n; rw [ho n, f1', outside_withOutput]
      · rw [he, t1, f1', List.filter_cons, if_pos hb, configureEvents]
        simp [fselWordOf]
    · next hb =>
      obtain ⟨t, ht, a, hf, ho, he⟩ := ih hk2 h
      refine ⟨t, ht, a, ?_, ho, ?_⟩
      · intro j
        rw [hf j]
        by_cases hj : j = k
        · subst hj; simp [hk1, hb]
        · simp [hj]
      · rw [he, List.filter_cons, if_neg hb]

theorem finRange_nodup : (List.finRange 28).Nodup := by decide

/-- Everything `configure_outputs` does (40_gpio.md R121). -/
theorem configureOutputs_fields (mask : PinMask) {s : State} (h : s.gmap = .mapped) :
    ∃ t, configureOutputs mask s = .ok t ∧
      t = { s with
        res := s.newPins mask, outBits := s.outBits ||| s.newPins mask, fsel := t.fsel, trace := t.trace, cnt := t.cnt,
        env := t.env, draws := t.draws } ∧
      (∀ j : PinIndex, fselField t.fsel j =
        if (s.newPins mask).getLsbD j.val = true then 0b001#3 else fselField s.fsel j) ∧
      (∀ n : Fin 3, t.fsel[n] &&& fselOutside n = s.fsel[n] &&& fselOutside n) ∧
      t.trace = (configureEvents s.fsel (pinsOf (s.newPins mask))).reverse ++ s.trace := by
  obtain ⟨u, hu, a, hc⟩ := configureOutputs_spec mask h
  obtain ⟨u', hu', -, hf, ho, he⟩ := configurePins_fields (s.newPins mask) _ finRange_nodup h
  obtain rfl := Except.ok.inj (hu'.symm.trans hu)
  refine ⟨_, hc, ?_, ?_, ho, he⟩
  · unfold FselAside at a; rw [a]; rfl
  · intro j; have := hf j; simpa [List.mem_finRange] using this

end Sys2Proof.Machine
end

