-- ==== Sys2Proof/Laws/Access.lean ====
section
/-! SUPPORT. What one access can do, said once; and that the accesses of an operation, performed one after another, do
exactly what the operation does as a whole (92_eei_decisions.md D36). -/

namespace Sys2Proof.Machine

/-! ### One access -/

/-- Only what the bus shows differs: pins, function-select words, the trace and time. -/
def BusAside (s t : State) : Prop :=
  t = { s with
    fsel := t.fsel, outlatch := t.outlatch, panel := t.panel, trace := t.trace, cnt := t.cnt, env := t.env,
    draws := t.draws }

theorem PinsAside.busAside {s t : State} (h : PinsAside s t) : BusAside s t := by
  unfold PinsAside BusAside at *; rw [h]

theorem TimeAside.busAside {s t : State} (h : TimeAside s t) : BusAside s t := h.pinsAside.busAside

theorem BusAside.refl (s : State) : BusAside s s := rfl

theorem BusAside.trans {s t u : State} (h : BusAside s t) (k : BusAside t u) : BusAside s u := by
  unfold BusAside at *; rw [k, h]

theorem BusAside.platform {s t : State} (h : BusAside s t) : t.platform = s.platform := by rw [h]
theorem BusAside.outBits {s t : State} (h : BusAside s t) : t.outBits = s.outBits := by rw [h]
theorem BusAside.inBits {s t : State} (h : BusAside s t) : t.inBits = s.inBits := by rw [h]
theorem BusAside.slowdown {s t : State} (h : BusAside s t) : t.slowdown = s.slowdown := by rw [h]
theorem BusAside.rowMask {s t : State} (h : BusAside s t) : t.rowMask = s.rowMask := by rw [h]
theorem BusAside.timing {s t : State} (h : BusAside s t) : t.timing = s.timing := by rw [h]
theorem BusAside.mode {s t : State} (h : BusAside s t) : t.mode = s.mode := by rw [h]
theorem BusAside.pos {s t : State} (h : BusAside s t) : t.pos = s.pos := by rw [h]
theorem BusAside.stopReq {s t : State} (h : BusAside s t) : t.stopReq = s.stopReq := by rw [h]
theorem BusAside.scrollEn {s t : State} (h : BusAside s t) : t.scrollEn = s.scrollEn := by rw [h]
theorem BusAside.err {s t : State} (h : BusAside s t) : t.err = s.err := by rw [h]
theorem BusAside.gmap {s t : State} (h : BusAside s t) : t.gmap = s.gmap := by rw [h]
theorem BusAside.tmap {s t : State} (h : BusAside s t) : t.tmap = s.tmap := by rw [h]
theorem BusAside.frame {s t : State} (h : BusAside s t) : t.frame = s.frame := by rw [h]
theorem BusAside.cursor {s t : State} (h : BusAside s t) : t.cursor = s.cursor := by rw [h]
theorem BusAside.src {s t : State} (h : BusAside s t) : t.src = s.src := by rw [h]

/-- The accesses of a delay: readings of the counter and the coarse sleep. -/
def Access.isDelay : Access → Bool
  | .set _ _ => false
  | .clear _ _ => false
  | .configure _ => false
  | .configureWrite _ _ => false
  | .sleepPre _ => true
  | .coarse _ _ => true
  | .sleepPost _ _ => true
  | .waitStart _ => true
  | .wait _ _ _ => true

/-- The identical writes that follow a write of a burst. -/
def burstRest (again : Nat → Access) : Nat → List Access
  | 0 => []
  | left + 1 => [again left]

/-- Everything an access can do: the access, the accesses it adds, the state after it. -/
inductive Performed : Access → State → List Access → State → Prop
  | set {s : State} (mask : PinMask) (left : Nat) (h : s.gmap = .mapped) :
      Performed (.set mask left) s (burstRest (.set mask) left)
        ((s.tick.drive (s.outlatch ||| mask)).record (.write .gpio Config.setWord mask))
  | clear {s : State} (mask : PinMask) (left : Nat) (h : s.gmap = .mapped) :
      Performed (.clear mask left) s (burstRest (.clear mask) left)
        ((s.tick.drive (s.outlatch &&& ~~~mask)).record (.write .gpio Config.clrWord mask))
  | configure {s : State} (k : PinIndex) (h : s.gmap = .mapped) :
      Performed (.configure k) s [.configureWrite k s.fsel[(fselWordOf k).val]]
        (s.tick.record (.read .gpio (fselWordOf k).val s.fsel[(fselWordOf k).val]))
  | configureWrite {s : State} (k : PinIndex) (old : Word) (h : s.gmap = .mapped) :
      Performed (.configureWrite k old) s []
        ({ s.tick with fsel := s.fsel.set (fselWordOf k).val (fselWithOutput old k) }.record
          (.write .gpio (fselWordOf k).val (fselWithOutput old k)))
  /-- a delay's access: time passes, one event, and only delays follow from it -/
  | delay {a : Access} {s t : State} {more : List Access} (ha : a.isDelay = true)
      (hm : more.all Access.isDelay = true) (h : TimeAside s t) (e : BusEvent)
      (he : e.isDelay s.platform = true) (ht : t.trace = e :: s.trace) : Performed a s more t

theorem timerRead_inv {s : State} {r : Word × State} (h : timerRead s = .ok r) :
    s.tmap = .mapped ∧ r = (s.tick.cnt, s.tick.record (.read .timer s.platform.timerWord s.tick.cnt)) := by
  by_cases hm : s.tmap = .mapped
  · rw [timerRead_ok hm] at h
    exact ⟨hm, (Except.ok.inj h).symm⟩
  · rw [timerRead_unmapped hm] at h; cases h

theorem regWrite_mapped {word : Nat} {v : Word} {s t : State} (h : regWrite .gpio word v s = .ok t) :
    s.gmap = .mapped := by
  by_cases hm : s.gmap = .mapped
  · exact hm
  · rw [regWrite_unmapped (w := .gpio) hm] at h; cases h

/-- A delay's access that begins with a reading of the counter. -/
theorem performed_reading {a : Access} {s : State} {r : Word × State} {more : List Access} (ha : a.isDelay = true)
    (hm : more.all Access.isDelay = true) (h : timerRead s = .ok r) : Performed a s more r.2 := by
  obtain ⟨-, rfl⟩ := timerRead_inv h
  exact .delay ha hm rfl (.read .timer s.platform.timerWord s.tick.cnt) (by simp [BusEvent.isDelay]) rfl

/-- An access that answers is one of the cases. -/
theorem perform_cases {a : Access} {s t : State} {more : List Access} (h : perform a s = .ok (more, t)) :
    Performed a s more t := by
  cases a with
  | set mask left =>
    cases left <;> simp only [perform] at h <;> obtain ⟨u, hu, h⟩ := bind_eq_ok.mp h <;>
      obtain ⟨rfl, rfl⟩ := Prod.mk.inj (Except.ok.inj h) <;> have hg := regWrite_mapped hu <;>
      rw [regWrite_set hg] at hu <;> obtain rfl := Except.ok.inj hu <;> exact .set mask _ hg
  | clear mask left =>
    cases left <;> simp only [perform] at h <;> obtain ⟨u, hu, h⟩ := bind_eq_ok.mp h <;>
      obtain ⟨rfl, rfl⟩ := Prod.mk.inj (Except.ok.inj h) <;> have hg := regWrite_mapped hu <;>
      rw [regWrite_clr hg] at hu <;> obtain rfl := Except.ok.inj hu <;> exact .clear mask _ hg
  | configure k =>
    simp only [perform] at h
    by_cases hg : s.gmap = .mapped
    · rw [regRead_fsel hg] at h
      obtain ⟨rfl, rfl⟩ := Prod.mk.inj (Except.ok.inj h)
      exact .configure k hg
    · rw [regRead_unmapped (w := .gpio) hg] at h; cases h
  | configureWrite k old =>
    simp only [perform] at h
    obtain ⟨u, hu, h⟩ := bind_eq_ok.mp h
    obtain ⟨rfl, rfl⟩ := Prod.mk.inj (Except.ok.inj h)
    have hg := regWrite_mapped hu
    rw [regWrite_fsel hg] at hu
    obtain rfl := Except.ok.inj hu
    exact .configureWrite k old hg
  | sleepPre n =>
    simp only [perform] at h
    obtain ⟨r, hr, h⟩ := bind_eq_ok.mp h
    obtain ⟨rfl, rfl⟩ := Prod.mk.inj (Except.ok.inj h)
    exact performed_reading rfl rfl hr
  | coarse n pre =>
    simp only [perform] at h
    obtain ⟨rfl, rfl⟩ := Prod.mk.inj (Except.ok.inj h)
    exact .delay rfl rfl (coarseSleep_timeAside _ s) (.coarseSleep (n - s.platform.jitterAllowanceNs)) rfl rfl
  | sleepPost n pre =>
    simp only [perform] at h
    obtain ⟨r, hr, h⟩ := bind_eq_ok.mp h
    obtain ⟨rfl, rfl⟩ := Prod.mk.inj (Except.ok.inj h)
    refine performed_reading rfl ?_ hr
    split <;> rfl
  | waitStart target =>
    simp only [perform] at h
    obtain ⟨r, hr, h⟩ := bind_eq_ok.mp h
    obtain ⟨rfl, rfl⟩ := Prod.mk.inj (Except.ok.inj h)
    exact performed_reading rfl rfl hr
  | wait start target fuel =>
    cases fuel with
    | zero =>
      simp only [perform] at h
      have a := tickPast_timeAside start target s
      have htr : (s.tickPast start target).trace = s.trace := by unfold State.tickPast; split <;> rfl
      by_cases hm : s.tmap = .mapped
      · simp [regReadNow, State.handle, a.tmap, hm, a.platform] at h
        obtain ⟨rfl, rfl⟩ := h
        exact .delay rfl rfl (a.trans (record_timeAside _ _))
          (.read .timer s.platform.timerWord (s.tickPast start target).cnt) (by simp [BusEvent.isDelay])
          (by rw [State.record_trace, htr])
      · simp [regReadNow, State.handle, a.tmap, hm] at h
    | succ fuel =>
      simp only [perform] at h
      obtain ⟨r, hr, h⟩ := bind_eq_ok.mp h
      obtain ⟨rfl, rfl⟩ := Prod.mk.inj (Except.ok.inj h)
      refine performed_reading rfl ?_ hr
      split <;> rfl

/-- An access changes only what the bus shows. -/
theorem Performed.busAside {a : Access} {s t : State} {more : List Access} (h : Performed a s more t) : BusAside s t := by
  cases h with
  | set mask left h => rfl
  | clear mask left h => rfl
  | configure k h => rfl
  | configureWrite k old h => rfl
  | delay ha hm h e he ht => exact h.busAside

/-- An access is one event. -/
theorem Performed.trace {a : Access} {s t : State} {more : List Access} (h : Performed a s more t) :
    ∃ e, t.trace = e :: s.trace := by
  cases h with
  | set mask left h => exact ⟨_, rfl⟩
  | clear mask left h => exact ⟨_, rfl⟩
  | configure k h => exact ⟨_, rfl⟩
  | configureWrite k old h => exact ⟨_, rfl⟩
  | delay ha hm h e he ht => exact ⟨e, ht⟩

/-! ### One after another -/

/-- n accesses use up a list of accesses, with all that they add to it, and lead from s to t. -/
inductive Performs : List Access → State → Nat → State → Prop
  | nil {s : State} : Performs [] s 0 s
  | cons {a : Access} {rest more : List Access} {s u t : State} {n : Nat} (h : perform a s = .ok (more, u))
      (k : Performs (more ++ rest) u n t) : Performs (a :: rest) s (n + 1) t

theorem Performs.append {as bs : List Access} {s t u : State} {m n : Nat} (h : Performs as s m t)
    (k : Performs bs t n u) : Performs (as ++ bs) s (m + n) u := by
  induction h with
  | nil => rwa [Nat.zero_add]
  | cons ha _ ih => rw [Nat.succ_add, List.cons_append]; exact .cons ha (by rw [← List.append_assoc]; exact ih k)

theorem Performs.busAside {as : List Access} {s t : State} {n : Nat} (h : Performs as s n t) : BusAside s t := by
  induction h with
  | nil => exact BusAside.refl _
  | cons ha _ ih => exact (perform_cases ha).busAside.trans ih

/-- A list of accesses that is not empty takes a step. -/
theorem Performs.pos {a : Access} {rest : List Access} {s t : State} {n : Nat} (h : Performs (a :: rest) s n t) :
    ∃ m, n = m + 1 := by
  cases h; exact ⟨_, rfl⟩

theorem performs_set (mask : PinMask) (n : Nat) {s t : State}
    (h : regWriteTimes .gpio Config.setWord mask (n + 1) s = .ok t) : Performs [.set mask n] s (n + 1) t := by
  induction n generalizing s with
  | zero =>
    obtain ⟨u, hu, h⟩ := bind_eq_ok.mp h
    obtain rfl := Except.ok.inj h
    exact .cons (more := []) (by simp only [perform]; rw [hu]; rfl) .nil
  | succ n ih =>
    obtain ⟨u, hu, h⟩ := bind_eq_ok.mp h
    exact .cons (more := [.set mask n]) (by simp only [perform]; rw [hu]; rfl) (ih h)

theorem performs_clear (mask : PinMask) (n : Nat) {s t : State}
    (h : regWriteTimes .gpio Config.clrWord mask (n + 1) s = .ok t) : Performs [.clear mask n] s (n + 1) t := by
  induction n generalizing s with
  | zero =>
    obtain ⟨u, hu, h⟩ := bind_eq_ok.mp h
    obtain rfl := Except.ok.inj h
    exact .cons (more := []) (by simp only [perform]; rw [hu]; rfl) .nil
  | succ n ih =>
    obtain ⟨u, hu, h⟩ := bind_eq_ok.mp h
    exact .cons (more := [.clear mask n]) (by simp only [perform]; rw [hu]; rfl) (ih h)

/-- SET (40_gpio.md R122). -/
theorem setPins_performs {mask : PinMask} {s t : State} (h : setPins mask s = .ok t) :
    Performs (s.setting mask) s (1 + s.slowdown.toNat) t := by
  rw [Nat.add_comm]; unfold setPins at h; rw [Nat.add_comm] at h; exact performs_set mask _ h

/-- CLR (40_gpio.md R123). -/
theorem clearPins_performs {mask : PinMask} {s t : State} (h : clearPins mask s = .ok t) :
    Performs (s.clearing mask) s (1 + s.slowdown.toNat) t := by
  rw [Nat.add_comm]; unfold clearPins at h; rw [Nat.add_comm] at h; exact performs_clear mask _ h

/-- WRM (40_gpio.md R124). -/
theorem writeMasked_performs {value mask : PinMask} {s t : State} (h : writeMasked value mask s = .ok t) :
    ∃ n, Performs (s.writing value mask) s n t := by
  obtain ⟨u, hu, h⟩ := bind_eq_ok.mp h
  have a := (clearPins_inv hu).2.1
  have k := setPins_performs h
  unfold State.setting at k
  rw [a.slowdown] at k
  exact ⟨_, (clearPins_performs hu).append k⟩

/-- CFGOUT1 (40_gpio.md R120). -/
theorem configureAsOutput_performs {k : PinIndex} {s t : State} (h : configureAsOutput k s = .ok t) :
    Performs [.configure k] s 2 t := by
  obtain ⟨r, hr, h⟩ := bind_eq_ok.mp h
  replace h : regWrite .gpio (fselWordOf k).val (fselWithOutput r.1 k) r.2 = .ok t := h
  refine .cons (more := [.configureWrite k r.1]) (u := r.2) ?_ (.cons (more := []) (u := t) ?_ .nil)
  · simp only [perform]; rw [hr]; rfl
  · simp only [perform]; rw [h]; rfl

/-- The pins of a list, one after another (40_gpio.md R121). -/
theorem configurePins_performs (m : PinMask) (ks : List PinIndex) {s t : State} (h : configurePins m ks s = .ok t) :
    ∃ n, Performs ((ks.filter fun k => m.getLsbD k.val).map .configure) s n t := by
  induction ks generalizing s with
  | nil =>
    obtain rfl := Except.ok.inj h
    exact ⟨0, .nil⟩
  | cons k ks ih =>
    unfold configurePins at h
    split at h
    · next hb =>
      obtain ⟨u, hu, h⟩ := bind_eq_ok.mp h
      obtain ⟨n, hn⟩ := ih h
      rw [List.filter_cons, if_pos hb]
      exact ⟨_, (configureAsOutput_performs hu).append hn⟩
    · next hb =>
      rw [List.filter_cons, if_neg hb]
      exact ih h

theorem busyWaitLoop_performs (start : Word) (target fuel : Nat) {s t : State}
    (h : busyWaitLoop start target fuel s = .ok t) : ∃ n, Performs [.wait start target fuel] s n t := by
  induction fuel generalizing s with
  | zero =>
    obtain ⟨r, hr, h⟩ := bind_eq_ok.mp h
    obtain rfl := Except.ok.inj h
    exact ⟨1, .cons (more := []) (by simp only [perform]; rw [hr]; rfl) .nil⟩
  | succ fuel ih =>
    obtain ⟨r, hr, h⟩ := bind_eq_ok.mp h
    simp only at h
    split at h
    · next hd =>
      obtain rfl := Except.ok.inj h
      exact ⟨1, .cons (more := []) (by simp only [perform]; rw [hr]; simp [hd]) .nil⟩
    · next hd =>
      obtain ⟨n, hn⟩ := ih h
      exact ⟨n + 1, .cons (more := [.wait start target fuel]) (by simp only [perform]; rw [hr]; simp [hd]) hn⟩

theorem busyWait_performs {target : Nat} {s t : State} (h : busyWait target s = .ok t) :
    ∃ n, Performs [.waitStart target] s n t := by
  obtain ⟨r, hr, h⟩ := bind_eq_ok.mp h
  obtain ⟨n, hn⟩ := busyWaitLoop_performs _ _ _ h
  exact ⟨n + 1, .cons (by simp only [perform]; rw [hr]; rfl) hn⟩

/-- SLEEPNS (41_timer.md R143). -/
theorem sleepNanos_performs {n : Nat} {s t : State} (h : sleepNanos n s = .ok t) :
    ∃ k, Performs (s.sleeping n) s k t := by
  unfold sleepNanos at h
  unfold State.sleeping
  split at h
  · next hlt =>
    rw [if_pos hlt]
    obtain ⟨r, hr, h⟩ := bind_eq_ok.mp h
    obtain ⟨p, hp, hr⟩ := bind_eq_ok.mp hr
    obtain ⟨q, hq, hr⟩ := bind_eq_ok.mp hr
    obtain rfl := Except.ok.inj hr
    have hpl : p.2.platform = s.platform := by rw [(timerRead_inv hp).2]; rfl
    simp only at h
    split at h
    · next hd =>
      obtain rfl := Except.ok.inj h
      refine ⟨3, .cons (more := [.coarse n p.1]) (u := p.2) ?_ (.cons (more := [.sleepPost n p.1])
        (u := coarseSleep (n - s.platform.jitterAllowanceNs) p.2) ?_ (.cons (more := []) (u := q.2) ?_ .nil))⟩
      · simp only [perform]; rw [hp]; rfl
      · simp only [perform]; rw [hpl]
      · simp only [perform]; rw [hq]; simp [hd]
    · next hd =>
      obtain ⟨k, hk⟩ := busyWait_performs h
      refine ⟨k + 3, .cons (more := [.coarse n p.1]) (u := p.2) ?_ (.cons (more := [.sleepPost n p.1])
        (u := coarseSleep (n - s.platform.jitterAllowanceNs) p.2) ?_
        (.cons (more := [.waitStart (nsToTicks (n - elapsed p.1 q.1 * Config.nsPerTick))]) (u := q.2) ?_ hk))⟩
      · simp only [perform]; rw [hp]; rfl
      · simp only [perform]; rw [hpl]
      · simp only [perform]; rw [hq]; simp [hd]
  · next hlt =>
    rw [if_neg hlt]
    exact busyWait_performs h

/-- CLRCC (43_sequencer.md R181). -/
theorem clearColourClock_performs {s t : State} (h : clearColourClock s = .ok t) :
    ∃ n, Performs s.clearingColourClock s n t := ⟨_, clearPins_performs h⟩

/-- SHIFTCOL (43_sequencer.md R182). -/
theorem shiftColumn_performs {dr pl : Fin 8} {col : Fin 32} {s t : State} (h : shiftColumn dr pl col s = .ok t) :
    ∃ n, Performs (s.shiftingColumn dr pl col) s n t := by
  unfold shiftColumn at h
  obtain ⟨u, hu, h⟩ := bind_eq_ok.mp h
  obtain ⟨v, hv, h⟩ := bind_eq_ok.mp h
  have a := (clearColourClock_inv hu).2.1
  have b := a.trans (writeMasked_inv hv).2.1
  obtain ⟨n, hn⟩ := clearColourClock_performs hu
  obtain ⟨m, hm⟩ := writeMasked_performs hv
  have hk := setPins_performs h
  unfold State.writing State.clearing State.setting at hm
  rw [a.slowdown, a.platform, a.frame] at hm
  unfold State.setting at hk
  rw [b.slowdown, b.platform] at hk
  exact ⟨_, hn.append (hm.append hk)⟩

/-- ADDR (43_sequencer.md R183). -/
theorem putAddress_performs {dr : Nat} {s t : State} (h : putAddress dr s = .ok t) :
    ∃ n, Performs (s.puttingAddress dr) s n t := writeMasked_performs h

/-- LATCH (43_sequencer.md R184). -/
theorem pulseLatch_performs {s t : State} (h : pulseLatch s = .ok t) : ∃ n, Performs s.pulsingLatch s n t := by
  unfold pulseLatch at h
  obtain ⟨u, hu, h⟩ := bind_eq_ok.mp h
  have a := (setPins_inv hu).2.1
  have hk := clearPins_performs h
  unfold State.clearing at hk
  rw [a.slowdown, a.platform] at hk
  exact ⟨_, (setPins_performs hu).append hk⟩

/-- DWELL (43_sequencer.md R185). -/
theorem dwellPlane_performs {pl : Fin 8} {s t : State} (h : dwellPlane pl s = .ok t) :
    ∃ n, Performs (s.dwelling pl) s n t := by
  unfold dwellPlane at h
  obtain ⟨u, hu, h⟩ := bind_eq_ok.mp h
  obtain ⟨v, hv, h⟩ := bind_eq_ok.mp h
  have a := (clearPins_inv hu).2.1
  have b := a.trans (sleepNanos_inv (u.timing[pl]).isLt hv).2.pinsAside
  obtain ⟨m, hm⟩ := sleepNanos_performs hv
  have hk := setPins_performs h
  unfold State.sleeping at hm
  rw [a.platform, a.timing] at hm
  unfold State.setting at hk
  rw [b.slowdown, b.platform] at hk
  exact ⟨_, (clearPins_performs hu).append (hm.append hk)⟩

/-- The micro-operation of a position, as a whole. -/
def microAt (q : Pos) (s : State) : Except Refusal State :=
  match q.step with
  | .clearBefore => clearColourClock s
  | .shift => shiftColumn q.dr q.pl q.col s
  | .clearAfter => clearColourClock s
  | .address => putAddress q.dr.val s
  | .latch => pulseLatch s
  | .dwell => dwellPlane q.pl s

theorem microAt_performs {q : Pos} {s t : State} (h : microAt q s = .ok t) : ∃ n, Performs (s.microAccesses q) s n t := by
  obtain ⟨dr, pl, col, st⟩ := q
  cases st
  · exact clearColourClock_performs h
  · exact shiftColumn_performs h
  · exact clearColourClock_performs h
  · exact putAddress_performs h
  · exact pulseLatch_performs h
  · exact dwellPlane_performs h

/-- Every micro-operation has an access. -/
theorem microAccesses_cons (s : State) (q : Pos) : ∃ a rest, s.microAccesses q = a :: rest := by
  obtain ⟨dr, pl, col, st⟩ := q
  cases st <;> exact ⟨_, _, rfl⟩

end Sys2Proof.Machine
end

