-- ==== Sys2Proof/Laws/Decode.lean ====
section
/-! SUPPORT. The fields of a command record and of its operands: packing and unpacking undo each other (30_encoding.md
R92, R95, R96). -/

namespace Sys2Proof

/-! ### Concatenation -/

theorem append_low {m n : Nat} (x : BitVec m) (y : BitVec n) : (x ++ y).extractLsb' 0 n = y := by
  ext i hi; simp [BitVec.getLsbD_append, hi]

theorem append_skip {m n : Nat} (x : BitVec m) (y : BitVec n) (s k : Nat) :
    (x ++ y).extractLsb' (n + s) k = x.extractLsb' s k := by
  ext i hi
  have : ¬ n + s + i < n := by omega
  have e : n + s + i - n = s + i := by omega
  simp [BitVec.getLsbD_append, this, e]

theorem extract_all {n : Nat} (x : BitVec n) : x.extractLsb' 0 n = x := by
  ext i hi; simp

/-- A field of a field. -/
theorem extract_extract {n : Nat} (x : BitVec n) {s m s' k : Nat} (h : s' + k ≤ m) :
    (x.extractLsb' s m).extractLsb' s' k = x.extractLsb' (s + s') k := by
  ext i hi
  have : s' + i < m := by omega
  simp [this, Nat.add_assoc]

theorem append_high {m n : Nat} (x : BitVec m) (y : BitVec n) : (x ++ y).extractLsb' n m = x := by
  have := append_skip x y 0 m
  rwa [Nat.add_zero, extract_all] at this

/-- A bit vector is its upper and its lower part. -/
theorem append_parts {m n : Nat} (x : BitVec (m + n)) : x.extractLsb' n m ++ x.extractLsb' 0 n = x := by
  ext i hi
  simp only [BitVec.getElem_append, BitVec.getElem_extractLsb']
  split
  · simp [BitVec.getLsbD_eq_getElem hi]
  · have : n + (i - n) = i := by omega
    rw [this, BitVec.getLsbD_eq_getElem hi]

theorem append_eq_zero {m n : Nat} {x : BitVec m} {y : BitVec n} : x ++ y = 0 ↔ x = 0 ∧ y = 0 := by
  constructor
  · intro h
    have hx := append_high x y
    have hy := append_low x y
    rw [h] at hx hy
    exact ⟨by rw [← hx]; simp, by rw [← hy]; simp⟩
  · rintro ⟨rfl, rfl⟩; simp

/-! ### The record -/

@[simp] theorem Record.op_pack (op : BitVec 8) (a b : Word) : (Record.pack op a b).op = op := by
  have := (append_skip (op ++ a) b 32 8).trans (append_high op a)
  exact this

@[simp] theorem Record.a_pack (op : BitVec 8) (a b : Word) : (Record.pack op a b).a = a := by
  have := (append_skip (op ++ a) b 0 32).trans (append_low op a)
  exact this

@[simp] theorem Record.b_pack (op : BitVec 8) (a b : Word) : (Record.pack op a b).b = b := append_low (op ++ a) b

/-- A record is its three fields. -/
theorem Record.pack_fields (r : Record) : Record.pack r.op r.a r.b = r := by
  have h1 := append_parts (m := 40) (n := 32) r
  have h2 := append_parts (m := 8) (n := 32) (BitVec.extractLsb' 32 40 r)
  have e1 : (BitVec.extractLsb' 32 40 r).extractLsb' 32 8 = r.op := by
    exact extract_extract r (by omega)
  have e2 : (BitVec.extractLsb' 32 40 r).extractLsb' 0 32 = r.a := by
    exact extract_extract r (by omega)
  rw [e1, e2] at h2
  rw [← h2] at h1
  exact h1

theorem Record.pack_inj {o p : BitVec 8} {a c b d : Word} :
    Record.pack o a b = Record.pack p c d ↔ o = p ∧ a = c ∧ b = d := by
  constructor
  · intro h
    have ho := congrArg Record.op h; have ha := congrArg Record.a h; have hb := congrArg Record.b h
    simp only [Record.op_pack, Record.a_pack, Record.b_pack] at ho ha hb
    exact ⟨ho, ha, hb⟩
  · rintro ⟨rfl, rfl, rfl⟩; rfl

/-- Masking a record masks its fields. -/
theorem Record.pack_and (o p : BitVec 8) (a c b d : Word) :
    Record.pack o a b &&& Record.pack p c d = Record.pack (o &&& p) (a &&& c) (b &&& d) := by
  have h : ∀ {m n : Nat} (x u : BitVec m) (y v : BitVec n), (x ++ y) &&& (u ++ v) = (x &&& u) ++ (y &&& v) := by
    intro m n x u y v
    ext i hi
    simp only [BitVec.getElem_and, BitVec.getElem_append]
    split <;> rfl
  show (o ++ a ++ b) &&& (p ++ c ++ d) = (o &&& p) ++ (a &&& c) ++ (b &&& d)
  rw [h, h]

/-! ### Operands -/

theorem reservedZero_eq_ok {w : Nat} {bits : BitVec w} {i j : Instr} :
    reservedZero bits i = .ok j ↔ bits = 0 ∧ i = j := by
  unfold reservedZero; split <;> simp_all

theorem windowInstr_eq_ok {a b : Word} {mk : Window → Instr} {i : Instr} :
    windowInstr a b mk = .ok i ↔ b = 0 ∧ ((a = 0 ∧ mk .gpio = i) ∨ (a = 1 ∧ mk .timer = i)) := by
  unfold windowInstr windowOperand
  by_cases h0 : a = 0
  · subst h0; simp [reservedZero_eq_ok]
  · by_cases h1 : a = 1
    · subst h1; simp [reservedZero_eq_ok]
    · rw [if_neg h0, if_neg h1]
      simp only [reduceCtorEq, false_iff]
      rintro ⟨-, ⟨h, -⟩ | ⟨h, -⟩⟩
      · exact h0 h
      · exact h1 h

/-- SHIFTCOL's packed operands (30_encoding.md R96). -/
theorem shiftcol_fields (pl col : Byte) :
    let b : Word := (0#16 ++ pl ++ col : BitVec (16 + 8 + 8))
    b.extractLsb' 16 16 = 0 ∧ b.extractLsb' 8 8 = pl ∧ b.extractLsb' 0 8 = col :=
  ⟨(append_skip (0#16 ++ pl) col 8 16).trans (append_high 0#16 pl),
    (append_skip (0#16 ++ pl) col 0 8).trans (append_low 0#16 pl), append_low (0#16 ++ pl) col⟩

/-- A word with reserved bits 31:16 zero is SHIFTCOL's packed operands. -/
theorem shiftcol_word (b : Word) (h : b.extractLsb' 16 16 = 0) :
    (0#16 ++ b.extractLsb' 8 8 ++ b.extractLsb' 0 8 : BitVec (16 + 8 + 8)) = b := by
  have h1 := append_parts (m := 24) (n := 8) b
  have h2 := append_parts (m := 16) (n := 8) (BitVec.extractLsb' 8 24 b)
  rw [extract_extract b (by omega), extract_extract b (by omega)] at h2
  rw [← h2, h] at h1
  exact h1

/-- A word is its high byte over the pixel in its low 24 bits. -/
theorem pixelWord_ofBits (w : Word) : pixelWord (w.extractLsb' 24 8) (Pixel.ofBits w) = w := by
  have h1 := append_parts (m := 8) (n := 24) w
  have h2 := append_parts (m := 16) (n := 8) (BitVec.extractLsb' 0 24 w)
  have h3 := append_parts (m := 8) (n := 8) (BitVec.extractLsb' 8 16 w)
  rw [extract_extract w (by omega), extract_extract w (by omega)] at h2 h3
  rw [← h3] at h2
  rw [← h2] at h1
  exact h1

@[simp] theorem Pixel.ofBits_pixelWord (high : Byte) (p : Pixel) : Pixel.ofBits (pixelWord high p) = p := by
  have hr : (pixelWord high p).extractLsb' 16 8 = p.r :=
    (BitVec.extractLsb'_append_eq_of_add_le (by omega)).trans
      ((append_skip (p.r ++ p.g) p.b 8 8).trans (append_high p.r p.g))
  have hg : (pixelWord high p).extractLsb' 8 8 = p.g :=
    (BitVec.extractLsb'_append_eq_of_add_le (by omega)).trans
      ((append_skip (p.r ++ p.g) p.b 0 8).trans (append_low p.r p.g))
  have hb : (pixelWord high p).extractLsb' 0 8 = p.b :=
    (BitVec.extractLsb'_append_eq_of_add_le (by omega)).trans (append_low (p.r ++ p.g) p.b)
  unfold Pixel.ofBits
  rw [hr, hg, hb]

@[simp] theorem pixelWord_high (high : Byte) (p : Pixel) : (pixelWord high p).extractLsb' 24 8 = high :=
  append_high high p.bits

end Sys2Proof
end

