-- ==== Sys2Proof/Laws/Step.lean ====
section
/-! SUPPORT. What an operation and what a step can do, said once: the cases of a next state. Invariants are proved from
these case lists, never from the meanings' text. -/

namespace Sys2Proof.Machine

/-! ### Construction -/

/-- The pins INIT wants, before ROW_MASK is written (44_system.md R222). -/
abbrev State.wantedPins (s : State) : PinMask :=
  initWant s.platform.pins (rowMaskFor s.platform.pins Config.doubleRows)

/-- INIT's work with the GPIO window mapped (44_system.md R222). -/
theorem constructGpio_spec (n : Word) {s : State} (h : s.gmap = .mapped) :
    ∃ u, configureOutputs s.wantedPins (s.withHoldings n) = .ok u ∧
      constructGpio n s = .ok (finishInit s.wantedPins u) := by
  obtain ⟨u, hu, -⟩ := configureOutputs_fields s.wantedPins (s := s.withHoldings n) h
  refine ⟨u, hu, ?_⟩
  show (configureOutputs s.wantedPins (s.withHoldings n) >>= _) = _
  rw [hu]; rfl

/-- What configuring a set of pins does to the function-select words: the pins of the set become outputs, every other
field and every bit that is no field stays. -/
structure Configured (m : PinMask) (s t : State) : Prop where
  fields : ∀ j : PinIndex, fselField t.fsel j = if m.getLsbD j.val = true then 0b001#3 else fselField s.fsel j
  outside : ∀ n : Fin 3, t.fsel[n] &&& fselOutside n = s.fsel[n] &&& fselOutside n

/-- CFGOUTS's work, as one update (40_gpio.md R121). -/
theorem configureOutputs_eq {mask : PinMask} {s t : State} (hm : s.gmap = .mapped)
    (h : configureOutputs mask s = .ok t) :
    t = { s with
      res := s.newPins mask, outBits := s.outBits ||| s.newPins mask, fsel := t.fsel, trace := t.trace, cnt := t.cnt,
      env := t.env, draws := t.draws } ∧ Configured (s.newPins mask) s t := by
  obtain ⟨u, hu, he, hf, ho, -⟩ := configureOutputs_fields mask hm
  obtain rfl := Except.ok.inj (hu.symm.trans h)
  exact ⟨he, hf, ho⟩

/-! ### The cases of an executed operation -/

/-- What an executed operation can have done. -/
inductive Effect : Instr → State → State → Prop
  /-- only pins, POS, RES and time: every operation on the pins, the timer and the pure functions -/
  | pins {i : Instr} {s t : State} (p : Pos) (r : Word) (hp : p = s.pos ∨ p.col = 0)
      (h : PinsAside { s with pos := p, res := r } t) : Effect i s t
  /-- the scroll load: ADVANCE and SCROLLCHK -/
  | load {i : Instr} {s t : State} (img : SourceImage) (last : Word) (hs : s.src = some img) (hu : img.usable = true)
      (h : TimeAside { s with lastScroll := last, frame := img.visible s.cursor,
                              cursor := (s.cursor + 1) % img.width } t) : Effect i s t
  | run {s t : State} (e : Bool) (hm : s.gmap = .mapped) (ht : s.tmap = .mapped)
      (h : t = { s with
        scrollEn := e, lastScroll := t.cnt, mode := .running, pos := Pos.start, phase := .poll,
        trace := .read .timer s.platform.timerWord t.cnt :: s.trace, cnt := t.cnt, env := t.env, draws := t.draws }) :
      Effect (.run e) s t
  | opened {s : State} (w : Window) (h : s.handle w = .unmapped) : Effect (.mapopen w) s (s.setHandle w .mapped)
  | tinit {s : State} (h : s.tmap = .unmapped) :
      Effect .tinit s (readyIf (s.gmap == .mapped && s.initCompleted) (s.setHandle .timer .mapped))
  | closed {s : State} (w : Window) (h : s.handle w = .mapped) : Effect (.mapclose w) s (s.setHandle w .released)
  | teardown {s : State} : Effect .teardown s { s with gmap := s.gmap.release, tmap := s.tmap.release }
  /-- a mapping fault of MAPOPEN, INIT or TINIT -/
  | mapFault {i : Instr} {s : State} (e : ErrCode) (he : e ≠ .none) (hr : s.mode = .reset)
      (hi : (∃ w, i = .mapopen w) ∨ (∃ n, i = .init n) ∨ i = .tinit) : Effect i s (raise e s)
  | oneOutput {s t : State} (pin : PinOperand) (k : PinIndex) (hm : s.gmap = .mapped) (h : FselAside s t)
      (hf : t.fsel = withOutput s.fsel k) : Effect (.cfgout1 pin) s t
  | outputs {s t : State} (mask : PinMask) (hm : s.gmap = .mapped)
      (h : t = { s with
        res := s.newPins mask, outBits := s.outBits ||| s.newPins mask, fsel := t.fsel, trace := t.trace, cnt := t.cnt,
        env := t.env, draws := t.draws }) (hc : Configured (s.newPins mask) s t) :
      Effect (.cfgouts mask) s t
  /-- INIT that configured every wanted pin -/
  | init {s t : State} (n : Word) (hg : s.gmap = .unmapped) (hr : s.mode = .reset)
      (hw : s.newPins s.wantedPins = s.wantedPins)
      (h : t = { s with
        gmap := .mapped, slowdown := n, rowMask := rowMaskFor s.platform.pins Config.doubleRows, res := s.wantedPins,
        outBits := s.outBits ||| s.wantedPins, timing := timingTable,
        mode := if s.tmap = .mapped then .ready else .reset,
        fsel := t.fsel, trace := t.trace, cnt := t.cnt, env := t.env, draws := t.draws })
      (hc : Configured s.wantedPins s t) : Effect (.init n) s t
  /-- INIT that could not -/
  | initFault {s t : State} (n : Word) (hg : s.gmap = .unmapped) (hr : s.mode = .reset)
      (hw : s.newPins s.wantedPins ≠ s.wantedPins)
      (h : t = { s with
        gmap := .released, tmap := s.tmap.release, slowdown := n,
        rowMask := rowMaskFor s.platform.pins Config.doubleRows, res := s.newPins s.wantedPins,
        outBits := s.outBits ||| s.newPins s.wantedPins, err := .configurationInvariantViolation, mode := .faulted,
        fsel := t.fsel, trace := t.trace, cnt := t.cnt, env := t.env, draws := t.draws })
      (hc : Configured (s.newPins s.wantedPins) s t) : Effect (.init n) s t

theorem afterRowPlane_col (d p : Fin 8) : (Pos.afterRowPlane d p).col = 0 := by
  unfold Pos.afterRowPlane
  split
  · rfl
  · split <;> rfl

theorem pins_effect {i : Instr} {s t : State} (h : PinsAside s t) : Effect i s t := .pins s.pos s.res (.inl rfl) h

/-- An operation runs only where the acceptance table allows it, and then its effect is one of the cases. -/
theorem exec_effect {i : Instr} {s t : State} (h : exec i s = .next t) : acceptedIn i s = true ∧ Effect i s t := by
  have key : ∀ {x : Host.Outcome State Fault Refusal}, (if acceptedIn i s = true then x else .refused .wrongState) = .next t →
      acceptedIn i s = true ∧ x = .next t := by
    intro x hx
    split at hx
    · exact ⟨by assumption, hx⟩
    · cases hx
  cases i with
  | mapopen w =>
    obtain ⟨ha, hx⟩ := key (execMapopen_eq w s ▸ h)
    refine ⟨ha, ?_⟩
    have ha' := ha
    simp only [acceptedIn, Bool.and_eq_true, beq_iff_eq] at ha'
    rcases openWindow_cases w s with ⟨-, ho⟩ | ⟨-, -, ho⟩ | ⟨-, -, ho⟩ <;> rw [ho] at hx <;>
      obtain rfl := Host.Outcome.next.inj hx
    · exact .mapFault _ (by decide) ha'.1 (.inl ⟨w, rfl⟩)
    · exact .mapFault _ (by decide) ha'.1 (.inl ⟨w, rfl⟩)
    · exact .opened w ha'.2
  | mapclose w =>
    obtain ⟨ha, hx⟩ := key (execMapclose_eq w s ▸ h)
    obtain rfl := Host.Outcome.next.inj hx
    refine ⟨ha, .closed w ?_⟩
    simp only [acceptedIn, Bool.and_eq_true, beq_iff_eq] at ha
    exact ha.2
  | init n =>
    obtain ⟨ha, hx⟩ := key (execInit_eq n s ▸ h)
    refine ⟨ha, ?_⟩
    have ha' := ha
    simp only [acceptedIn, Bool.and_eq_true, beq_iff_eq] at ha'
    rcases openWindow_cases .gpio s with ⟨-, ho⟩ | ⟨-, -, ho⟩ | ⟨-, -, ho⟩ <;> rw [ho] at hx
    · obtain rfl := Host.Outcome.next.inj hx
      exact .mapFault _ (by decide) ha'.1 (.inr (.inl ⟨n, rfl⟩))
    · obtain rfl := Host.Outcome.next.inj hx
      exact .mapFault _ (by decide) ha'.1 (.inr (.inl ⟨n, rfl⟩))
    · obtain ⟨u, hu, hc⟩ := constructGpio_spec n (s := s.setHandle .gpio .mapped) rfl
      replace hx := Except.ok.inj (hc.symm.trans (complete_eq_next.mp hx))
      obtain ⟨he, hcf⟩ := configureOutputs_eq rfl hu
      have hres : u.res = s.newPins s.wantedPins := by rw [he]; rfl
      unfold finishInit at hx
      rw [hres] at hx
      split at hx
      · next hw =>
        refine .init n ha'.2 ha'.1 hw ?_ ?_
        · have hw' : s.newPins s.wantedPins = s.wantedPins := hw
          rw [← hx, he]
          show readyIf (s.tmap == .mapped) _ = _
          by_cases ht : s.tmap = .mapped
          · simp [readyIf, ht, State.setHandle, State.withHoldings]; exact ⟨congrArg (s.outBits ||| ·) hw', hw'⟩
          · simp [readyIf, ht, State.setHandle, State.withHoldings, ha'.1]; exact ⟨congrArg (s.outBits ||| ·) hw', hw'⟩
        · have : t.fsel = u.fsel := by rw [← hx, readyIf_fsel]
          have hw' : s.newPins s.wantedPins = s.wantedPins := hw
          exact ⟨fun j => by rw [this, ← hw']; exact hcf.fields j, fun n => by rw [this]; exact hcf.outside n⟩
      · next hw =>
        refine .initFault n ha'.2 ha'.1 hw ?_ ?_
        · rw [← hx, he]; rfl
        · have : t.fsel = u.fsel := by rw [← hx]; rfl
          exact ⟨fun j => by rw [this]; exact hcf.fields j, fun n => by rw [this]; exact hcf.outside n⟩
  | tinit =>
    obtain ⟨ha, hx⟩ := key (execTinit_eq s ▸ h)
    refine ⟨ha, ?_⟩
    have ha' := ha
    simp only [acceptedIn, Bool.and_eq_true, beq_iff_eq] at ha'
    rcases openWindow_cases .timer s with ⟨-, ho⟩ | ⟨-, -, ho⟩ | ⟨-, -, ho⟩ <;> rw [ho] at hx <;>
      obtain rfl := Host.Outcome.next.inj hx
    · exact .mapFault _ (by decide) ha'.1 (.inr (.inr rfl))
    · exact .mapFault _ (by decide) ha'.1 (.inr (.inr rfl))
    · exact .tinit ha'.2
  | teardown =>
    obtain ⟨ha, hx⟩ := key (execTeardown_eq s ▸ h)
    obtain rfl := Host.Outcome.next.inj hx
    exact ⟨ha, .teardown⟩
  | run e =>
    obtain ⟨ha, hx⟩ := key (execRun_eq e s ▸ h)
    refine ⟨ha, ?_⟩
    replace hx := complete_eq_next.mp hx
    obtain ⟨u, hu, hx⟩ := bind_eq_ok.mp hx
    obtain ⟨u', hu', hx⟩ := bind_eq_ok.mp hx
    have hg := requireMapped_eq_ok.mp hu
    have ht := requireMapped_eq_ok.mp hu'
    rw [timerRead_ok (s := { s with scrollEn := e }) ht] at hx
    obtain rfl := Except.ok.inj hx
    exact .run e hg ht rfl
  | cfgout1 pin =>
    obtain ⟨ha, hx⟩ := key (execCfgout1_eq pin s ▸ h)
    refine ⟨ha, ?_⟩
    obtain ⟨k, -, hx⟩ := bind_eq_ok.mp (complete_eq_next.mp hx)
    obtain ⟨hm, a, f⟩ := configureAsOutput_inv hx
    exact .oneOutput pin k hm a f
  | cfgouts mask =>
    obtain ⟨ha, hx⟩ := key (execCfgouts_eq mask s ▸ h)
    have hm : s.gmap = .mapped := by
      simp only [acceptedIn, Bool.and_eq_true, beq_iff_eq] at ha
      exact ha.1
    obtain ⟨he, hc⟩ := configureOutputs_eq hm (complete_eq_next.mp hx)
    exact ⟨ha, .outputs mask hm he hc⟩
  | set mask =>
    obtain ⟨ha, hx⟩ := key (execSet_eq mask s ▸ h)
    exact ⟨ha, pins_effect (setPins_inv (complete_eq_next.mp hx)).2.1⟩
  | clr mask =>
    obtain ⟨ha, hx⟩ := key (execClr_eq mask s ▸ h)
    exact ⟨ha, pins_effect (clearPins_inv (complete_eq_next.mp hx)).2.1⟩
  | wrm value mask =>
    obtain ⟨ha, hx⟩ := key (execWrm_eq value mask s ▸ h)
    exact ⟨ha, pins_effect (writeMasked_inv (complete_eq_next.mp hx)).2.1⟩
  | rowaddr dr =>
    obtain ⟨ha, hx⟩ := key (execRowaddr_eq dr s ▸ h)
    obtain rfl := Host.Outcome.next.inj hx
    exact ⟨ha, .pins s.pos (rowAddressBits s.platform.pins s.rowMask dr.toNat) (.inl rfl) rfl⟩
  | rdlev =>
    obtain ⟨ha, hx⟩ := key (execRdlev_eq s ▸ h)
    obtain rfl := Host.Outcome.next.inj hx
    exact ⟨ha, .pins s.pos _ (.inl rfl) rfl⟩
  | tread =>
    obtain ⟨ha, hx⟩ := key (execTread_eq s ▸ h)
    obtain rfl := Host.Outcome.next.inj hx
    exact ⟨ha, .pins s.pos _ (.inl rfl) rfl⟩
  | sleepns n =>
    obtain ⟨ha, hx⟩ := key (execSleepns_eq n s ▸ h)
    exact ⟨ha, pins_effect (sleepNanos_inv n.isLt (complete_eq_next.mp hx)).2.pinsAside⟩
  | advance =>
    obtain ⟨ha, hx⟩ := key (execAdvance_eq s ▸ h)
    obtain ⟨img, hs, hu, rfl⟩ := advanceFrame_eq_ok.mp (complete_eq_next.mp hx)
    exact ⟨ha, .load img s.lastScroll hs hu rfl⟩
  | planebits top plane bottom =>
    obtain ⟨ha, hx⟩ := key (execPlanebits_eq top plane bottom s ▸ h)
    obtain rfl := Host.Outcome.next.inj hx
    exact ⟨ha, .pins s.pos (planeBits s.platform.pins top bottom plane.toNat) (.inl rfl) rfl⟩
  | clrcc =>
    obtain ⟨ha, hx⟩ := key (execClrcc_eq s ▸ h)
    exact ⟨ha, pins_effect (clearColourClock_inv (complete_eq_next.mp hx)).2.1⟩
  | shiftcol dr pl col =>
    obtain ⟨ha, hx⟩ := key (execShiftcol_eq dr pl col s ▸ h)
    obtain ⟨d, -, hx⟩ := bind_eq_ok.mp (complete_eq_next.mp hx)
    obtain ⟨p, -, hx⟩ := bind_eq_ok.mp hx
    obtain ⟨c, -, hx⟩ := bind_eq_ok.mp hx
    exact ⟨ha, pins_effect (shiftColumn_inv hx).2⟩
  | addr dr =>
    obtain ⟨ha, hx⟩ := key (execAddr_eq dr s ▸ h)
    exact ⟨ha, pins_effect (putAddress_inv (complete_eq_next.mp hx)).2⟩
  | latch =>
    obtain ⟨ha, hx⟩ := key (execLatch_eq s ▸ h)
    exact ⟨ha, pins_effect (pulseLatch_inv (complete_eq_next.mp hx)).2⟩
  | dwell pl =>
    obtain ⟨ha, hx⟩ := key (execDwell_eq pl s ▸ h)
    obtain ⟨p, -, hx⟩ := bind_eq_ok.mp (complete_eq_next.mp hx)
    exact ⟨ha, pins_effect (dwellPlane_inv hx).2.2⟩
  | rowplane dr pl =>
    obtain ⟨ha, hx⟩ := key (execRowplane_eq dr pl s ▸ h)
    obtain ⟨d, -, hx⟩ := bind_eq_ok.mp (complete_eq_next.mp hx)
    obtain ⟨p, -, hx⟩ := bind_eq_ok.mp hx
    obtain ⟨hm, ht⟩ := rowPlane_inv hx
    obtain ⟨u, hu, a, -⟩ := rowPlane_answers d p hm ht
    obtain rfl := Except.ok.inj (hu.symm.trans hx)
    exact ⟨ha, .pins _ s.res (.inr (afterRowPlane_col d p)) a⟩
  | sweep =>
    obtain ⟨ha, hx⟩ := key (execSweep_eq s ▸ h)
    replace hx := complete_eq_next.mp hx
    obtain ⟨hm, ht⟩ := sweepPanel_inv hx
    obtain ⟨u, hu, a, -⟩ := sweepPanel_spec hm ht
    obtain rfl := Except.ok.inj (hu.symm.trans hx)
    exact ⟨ha, .pins _ s.res (.inr rfl) a⟩
  | scrollchk =>
    obtain ⟨ha, hx⟩ := key (execScrollchk_eq s ▸ h)
    refine ⟨ha, ?_⟩
    obtain ⟨-, -, hx⟩ := bind_eq_ok.mp (complete_eq_next.mp hx)
    obtain ⟨-, -, hx⟩ := bind_eq_ok.mp hx
    rcases scrollCheck_inv hx with a | ⟨img, hs, hu, a⟩
    · exact pins_effect a.pinsAside
    · exact .load img _ hs hu a

/-! ### The cases of a step -/

/-- The host's part of a step. -/
theorem hostTick_eq (s : State) : s.hostTick = { s with
    stopReq := s.stopReq || s.stopAfter == some 0
    stopAfter := s.stopAfter.bind fun n => if n = 0 then none else some (n - 1) } := by
  unfold State.hostTick State.requestStop
  cases h : s.stopAfter with
  | none => cases s; simp_all
  | some n => cases n <;> simp

/-- A step inside a task: one access, then the next or the completion. -/
theorem proceed_inv {task : Task} {a : Access} {rest : List Access} {s t : State} (h : proceed task a rest s = .ok t) :
    ∃ more u, Performed a s more u ∧ t = carryOn task u (more ++ rest) := by
  obtain ⟨⟨more, u⟩, hp, h⟩ := bind_eq_ok.mp h
  exact ⟨more, u, perform_cases hp, (Except.ok.inj h).symm⟩

/-- The first step of an operation that may take more than one. -/
inductive Begun : State → State → Prop
  | plain {s t : State} (as : List Access) (hw : ∀ k old, .configureWrite k old ∉ as) (hm : s.mode = .reset ∨ s.mode = .ready)
      (h : start .plain as s = .ok t) : Begun s t
  | outputs {s t : State} (mask : PinMask) (hm : s.mode = .reset ∨ s.mode = .ready) (hg : s.gmap = .mapped)
      (h : start (.outputs (s.newPins mask)) (configuring (s.newPins mask)) s = .ok t) : Begun s t
  | init {s t : State} (n : Word) (hm : s.mode = .reset) (hg : s.gmap = .unmapped)
      (h : start (.init (s.newPins s.wantedPins)) (configuring (s.newPins s.wantedPins))
        ((s.setHandle .gpio .mapped).withHoldings n) = .ok t) : Begun s t
  | march {s t : State} (task : Task) (p : Pos) (ht : task = .rowPlane ∨ task = .sweep) (hp : p.col = 0)
      (hm : s.mode = .ready ∨ task = .sweep ∧ s.mode = .running)
      (h : start task (s.microAccesses p) { s with pos := p } = .ok t) : Begun s t

theorem setting_no_write_back (s : State) (m : PinMask) : ∀ k old, .configureWrite k old ∉ s.setting m := by
  simp [State.setting]

theorem clearing_no_write_back (s : State) (m : PinMask) : ∀ k old, .configureWrite k old ∉ s.clearing m := by
  simp [State.clearing]

theorem sleeping_no_write_back (s : State) (n : Nat) : ∀ k old, .configureWrite k old ∉ s.sleeping n := by
  unfold State.sleeping; split <;> simp

theorem micro_no_write_back (s : State) (p : Pos) : ∀ k old, .configureWrite k old ∉ s.microAccesses p := by
  obtain ⟨dr, pl, col, st⟩ := p
  have hs := sleeping_no_write_back s
  cases st <;> simp [State.microAccesses, State.clearingColourClock, State.shiftingColumn, State.puttingAddress,
    State.pulsingLatch, State.dwelling, State.writing, State.setting, State.clearing, hs]

/-- An accepted operation of more than one access has begun. -/
theorem firstStep_inv {i : Instr} {s t : State} (ha : acceptedIn i s = true) (h : firstStep i s = some (.ok t)) :
    Begun s t ∨ (s.mode = .ready ∧ s.scrollEn = true ∧ scrollStep s = .ok t) := by
  have setup : ∀ {g : Bool}, (g && (s.mode == .reset || s.mode == .ready)) = true → s.mode = .reset ∨ s.mode = .ready := by
    intro g hg
    simp only [Bool.and_eq_true, Bool.or_eq_true, beq_iff_eq] at hg
    exact hg.2
  have mapped : ∀ {b : Bool}, (s.gmap == .mapped && b) = true → s.gmap = .mapped := by
    intro b hg
    simp only [Bool.and_eq_true, beq_iff_eq] at hg
    exact hg.1
  have ready : ∀ {b : Bool}, (s.mode == .ready) = true → s.mode = .reset ∨ s.mode = .ready := by
    intro b hg; exact .inr (beq_iff_eq.mp hg)
  cases i with
  | mapopen w => cases h
  | mapclose w => cases h
  | init n =>
    simp only [acceptedIn, Bool.and_eq_true, beq_iff_eq] at ha
    unfold firstStep at h
    rcases openWindow_cases .gpio s with ⟨-, ho⟩ | ⟨-, -, ho⟩ | ⟨-, -, ho⟩ <;> simp only [ho] at h
    · cases h
    · cases h
    · exact .inl (.init n ha.1 ha.2 (Option.some.inj h))
  | tinit => cases h
  | teardown => cases h
  | run e => cases h
  | cfgout1 pin =>
    obtain ⟨k, -, h⟩ := bind_eq_ok.mp (Option.some.inj h)
    exact .inl (.plain [.configure k] (by simp) (setup ha) h)
  | cfgouts mask => exact .inl (.outputs mask (setup ha) (mapped ha) (Option.some.inj h))
  | set mask => exact .inl (.plain _ (setting_no_write_back s mask) (setup ha) (Option.some.inj h))
  | clr mask => exact .inl (.plain _ (clearing_no_write_back s mask) (setup ha) (Option.some.inj h))
  | wrm value mask =>
    exact .inl (.plain _ (by simp [State.writing, State.setting, State.clearing]) (setup ha) (Option.some.inj h))
  | rowaddr dr => cases h
  | rdlev => cases h
  | tread => cases h
  | sleepns n => exact .inl (.plain _ (sleeping_no_write_back s n.toNat) (setup ha) (Option.some.inj h))
  | advance => cases h
  | planebits top plane bottom => cases h
  | clrcc =>
    exact .inl (.plain _ (micro_no_write_back s ⟨0, 0, 0, .clearBefore⟩) (.inr (beq_iff_eq.mp ha)) (Option.some.inj h))
  | shiftcol dr pl col =>
    obtain ⟨d, -, h⟩ := bind_eq_ok.mp (Option.some.inj h)
    obtain ⟨p, -, h⟩ := bind_eq_ok.mp h
    obtain ⟨c, -, h⟩ := bind_eq_ok.mp h
    exact .inl (.plain _ (micro_no_write_back s ⟨d, p, c, .shift⟩) (.inr (beq_iff_eq.mp ha)) h)
  | addr dr =>
    exact .inl (.plain _ (by simp [State.puttingAddress, State.writing, State.setting, State.clearing])
      (.inr (beq_iff_eq.mp ha)) (Option.some.inj h))
  | latch =>
    exact .inl (.plain _ (micro_no_write_back s ⟨0, 0, 0, .latch⟩) (.inr (beq_iff_eq.mp ha)) (Option.some.inj h))
  | dwell pl =>
    obtain ⟨p, -, h⟩ := bind_eq_ok.mp (Option.some.inj h)
    exact .inl (.plain _ (micro_no_write_back s ⟨0, p, 0, .dwell⟩) (.inr (beq_iff_eq.mp ha)) h)
  | rowplane dr pl =>
    obtain ⟨d, -, h⟩ := bind_eq_ok.mp (Option.some.inj h)
    obtain ⟨p, -, h⟩ := bind_eq_ok.mp h
    exact .inl (.march .rowPlane ⟨d, p, 0, .clearBefore⟩ (.inl rfl) rfl (.inl (beq_iff_eq.mp ha)) h)
  | sweep => exact .inl (.march .sweep Pos.start (.inr rfl) rfl (.inl (beq_iff_eq.mp ha)) (Option.some.inj h))
  | scrollchk =>
    simp only [firstStep] at h
    split at h
    · next he => exact .inr ⟨beq_iff_eq.mp ha, he, Option.some.inj h⟩
    · cases h

/-- Everything a step can be, from the state with the host's part done. -/
inductive StepCase : State → State → Prop
  /-- idle, with nothing to take -/
  | waits {s : State} (hp : s.phase = .idle) (hm : s.mode ≠ .running) (hi : s.inputs = []) : StepCase s s
  /-- idle, a source image is supplied -/
  | source {s : State} (img : SourceImage) (rest : List HostInput) (hp : s.phase = .idle) (hm : s.mode ≠ .running)
      (hi : s.inputs = .source img :: rest) (hc : s.cursor < img.width) : StepCase s { s with inputs := rest, src := some img }
  /-- idle, a whole operation of at most one access -/
  | whole {s t : State} (i : Instr) (r : Record) (rest : List HostInput) (hp : s.phase = .idle) (hm : s.mode ≠ .running)
      (hi : s.inputs = .command r :: rest) (hd : decode r = .ok i) (hf : firstStep i { s with inputs := rest } = none)
      (h : exec i { s with inputs := rest } = .next t) : StepCase s t
  /-- idle, the first step of a longer operation -/
  | begun {s t : State} (i : Instr) (rest : List HostInput) (hp : s.phase = .idle) (hm : s.mode ≠ .running)
      (ha : acceptedIn i { s with inputs := rest } = true) (h : Begun { s with inputs := rest } t) : StepCase s t
  /-- idle, the counter read of a SCROLLCHK -/
  | scrollchk {s t : State} (rest : List HostInput) (hp : s.phase = .idle) (hm : s.mode = .ready)
      (he : s.scrollEn = true) (h : scrollStep { s with inputs := rest } = .ok t) : StepCase s t
  /-- the sweep boundary with a stop request -/
  | stop {s t : State} (hp : s.phase = .poll) (hm : s.mode = .running) (hr : s.stopReq = true)
      (h : proceed .stop (.set (pinBit s.platform.pins.oe) s.slowdown.toNat) [] s = .ok t) : StepCase s t
  /-- the sweep boundary without one -/
  | sweep {s t : State} (hp : s.phase = .poll) (hm : s.mode = .running) (hr : s.stopReq = false)
      (h : start .sweep (s.microAccesses Pos.start) { s with pos := Pos.start } = .ok t) : StepCase s t
  /-- the counter read of the scroll step -/
  | scroll {s t : State} (hp : s.phase = .scroll) (hm : s.mode = .ready ∨ s.mode = .running) (h : scrollStep s = .ok t) :
      StepCase s t
  /-- the scroll load -/
  | load {s t : State} (now : Word) (hp : s.phase = .load now) (hm : s.mode = .ready ∨ s.mode = .running)
      (h : loadStep now s = .ok t) : StepCase s t
  /-- one more access of a task -/
  | access {s u : State} (task : Task) (a : Access) (rest more : List Access) (hp : s.phase = .busy task a rest)
      (hf : s.phase.fits s.mode = true) (h : Performed a s more u) : StepCase s (carryOn task u (more ++ rest))

theorem step_cases {s t : State} (h : step s = .next t) : StepCase s.hostTick t := by
  unfold step at h
  generalize s.hostTick = s at *
  unfold controllerStep at h
  split at h
  · next hf =>
    split at h
    · next hp =>
      have hm : s.mode ≠ .running := by
        intro he; rw [hp, he] at hf; exact absurd hf (by decide)
      unfold takeInput at h
      split at h
      · next hi =>
        obtain rfl := Host.Outcome.next.inj h
        exact .waits hp hm hi
      · next r rest hi =>
        unfold runRecord at h
        split at h
        · next i hd =>
          unfold runOperation at h
          split at h
          · next u hu =>
            have ha := (exec_effect hu).1
            split at h
            · next x hx =>
              rw [complete_eq_next.mp h] at hx
              rcases firstStep_inv ha hx with hb | ⟨hr, he, hs⟩
              · exact .begun i rest hp hm ha hb
              · exact .scrollchk rest hp hr he hs
            · next hx =>
              obtain rfl := Host.Outcome.next.inj h
              exact .whole i r rest hp hm hi hd hx hu
          · cases h
          · cases h
        · cases h
      · next img rest hi =>
        unfold supplySource at h
        split at h
        · next hc =>
          obtain rfl := Host.Outcome.next.inj h
          exact .source img rest hp hm hi hc
        · cases h
    · next hp =>
      have hm : s.mode = .running := by
        rw [hp] at hf; exact beq_iff_eq.mp hf
      have h := complete_eq_next.mp h
      unfold pollStep at h
      split at h
      · next hr => exact .stop hp hm hr h
      · next hr => exact .sweep hp hm (by simpa using hr) h
    · next hp =>
      rw [hp] at hf
      exact .scroll hp (by simpa [Phase.fits] using hf) (complete_eq_next.mp h)
    · next now hp =>
      rw [hp] at hf
      exact .load now hp (by simpa [Phase.fits] using hf) (complete_eq_next.mp h)
    · next task a rest hp =>
      obtain ⟨more, u, hu, rfl⟩ := proceed_inv (complete_eq_next.mp h)
      exact .access task a rest more hp hf hu
  · cases h

end Sys2Proof.Machine
end

