-- ==== Sys2Proof/Laws/Loop.lean ====
section
/-! SUPPORT. No access looks at POS, at the phase or at STOP_REQ; so the controller's steps, one access each, do what an
operation, a row-plane, a sweep and the scroll step do as a whole (43_sequencer.md R189, R191; 92_eei_decisions.md D36). -/

namespace Sys2Proof.Machine

/-! ### What no access looks at -/

/-- The place in the program and the stop request. -/
structure Control where
  pos : Pos
  phase : Phase
  stopReq : Bool
  stopAfter : Option Nat

/-- The same state under another control. -/
def State.under (s : State) (c : Control) : State :=
  { s with pos := c.pos, phase := c.phase, stopReq := c.stopReq, stopAfter := c.stopAfter }

/-- The control of a state. -/
def State.control (s : State) : Control :=
  { pos := s.pos, phase := s.phase, stopReq := s.stopReq, stopAfter := s.stopAfter }

/-- The host's part of a step (60_exceptions.md R250). -/
def Control.tick (c : Control) : Control :=
  { c with
    stopReq := c.stopReq || c.stopAfter == some 0
    stopAfter := c.stopAfter.bind fun n => if n = 0 then none else some (n - 1) }

/-- n of them. -/
def Control.ticks (c : Control) : Nat → Control
  | 0 => c
  | n + 1 => c.tick.ticks n

/-- At another phase. -/
abbrev Control.at' (c : Control) (ph : Phase) : Control := { c with phase := ph }

@[simp] theorem State.under_control (s : State) : s.under s.control = s := rfl

@[simp] theorem State.under_under (s : State) (c d : Control) : (s.under c).under d = s.under d := rfl

@[simp] theorem Control.ticks_pos (c : Control) (n : Nat) : (c.ticks n).pos = c.pos := by
  induction n generalizing c with
  | zero => rfl
  | succ n ih => exact ih c.tick

/-- The host's clock and the phase do not meet. -/
theorem Control.ticks_at (c : Control) (ph : Phase) (n : Nat) : ((c.at' ph).ticks n) = (c.ticks n).at' ph := by
  induction n generalizing c with
  | zero => rfl
  | succ n ih => exact ih c.tick

theorem Control.ticks_add (c : Control) (m n : Nat) : (c.ticks m).ticks n = c.ticks (m + n) := by
  induction m generalizing c with
  | zero => rw [Nat.zero_add]; rfl
  | succ m ih => rw [Nat.succ_add]; exact ih c.tick

theorem Control.ticks_succ (c : Control) (n : Nat) : c.ticks (n + 1) = (c.ticks n).tick := (c.ticks_add n 1).symm

@[simp] theorem Control.ticks_phase (c : Control) (n : Nat) : (c.ticks n).phase = c.phase := by
  induction n generalizing c with
  | zero => rfl
  | succ n ih => exact ih c.tick

theorem Control.ticks_none {c : Control} (h : c.stopAfter = none) (n : Nat) : c.ticks n = c := by
  have h1 : c.tick = c := by
    obtain ⟨p, ph, b, a⟩ := c
    obtain rfl : a = none := h
    simp [Control.tick]
  induction n with
  | zero => rfl
  | succ n ih => show c.tick.ticks n = c; rw [h1]; exact ih

theorem hostTick_under (s : State) (c : Control) : (s.under c).hostTick = s.under c.tick := by
  obtain ⟨p, ph, b, a⟩ := c
  unfold State.hostTick State.requestStop State.under Control.tick
  cases a with
  | none => simp
  | some n => cases n <;> simp

/-- The host's part of n steps. -/
theorem repeat_hostTick (n : Nat) (s : State) : Nat.repeat State.hostTick n s = s.under (s.control.ticks n) := by
  induction n with
  | zero => rfl
  | succ n ih => rw [Nat.repeat, ih, hostTick_under, Control.ticks_succ]

/-- An answer, under another control. -/
def mapState {α : Type} (f : State → State) : Except Refusal (α × State) → Except Refusal (α × State)
  | .ok r => .ok (r.1, f r.2)
  | .error r => .error r

variable (c : Control)

theorem regWrite_under (w : Window) (word : Nat) (v : Word) (s : State) :
    regWrite w word v (s.under c) = (regWrite w word v s).map (·.under c) := by
  unfold regWrite regWriteNow
  have hh : (s.under c).tick.handle w = s.tick.handle w := by cases w <;> rfl
  rw [hh]
  by_cases hm : s.tick.handle w = .mapped
  · simp only [hm, if_true]
    cases w with
    | gpio =>
      by_cases h3 : word < 3
      · simp only [h3, dif_pos]; rfl
      · simp only [h3, dif_neg, not_false_iff]
        by_cases h7 : word = Config.setWord
        · simp only [h7, if_true]; rfl
        · simp only [h7, if_false]
          by_cases h10 : word = Config.clrWord
          · simp only [h10, if_true]; rfl
          · simp only [h10, if_false]
            split <;> rfl
    | timer => simp only; split <;> split <;> simp_all [State.under, Except.map]
  · simp only [hm, if_false]; rfl

theorem timerNow_under (s : State) :
    regReadNow .timer s.platform.timerWord (s.under c) =
      mapState (·.under c) (regReadNow .timer s.platform.timerWord s) := by
  unfold regReadNow
  show (if s.tmap = .mapped then _ else _) = _
  simp only [State.handle]
  by_cases hm : s.tmap = .mapped
  · simp only [hm, if_true]
    rw [if_pos (show s.platform.timerWord = (s.under c).platform.timerWord from rfl)]; rfl
  · simp only [hm, if_false]; rfl

theorem timerRead_under (s : State) : timerRead (s.under c) = mapState (·.under c) (timerRead s) :=
  timerNow_under c s.tick

theorem tickPast_under (start : Word) (target : Nat) (s : State) :
    (s.under c).tickPast start target = (s.tickPast start target).under c := by
  unfold State.tickPast
  show (if target ≤ elapsed start s.tick.cnt then _ else _) = _
  split <;> rfl

/-- No access looks at the control. -/
theorem perform_under (a : Access) (s : State) : perform a (s.under c) = mapState (·.under c) (perform a s) := by
  cases a with
  | set mask left => cases left <;> simp only [perform, regWrite_under] <;> cases regWrite .gpio _ mask s <;> rfl
  | clear mask left => cases left <;> simp only [perform, regWrite_under] <;> cases regWrite .gpio _ mask s <;> rfl
  | configure k =>
    simp only [perform]
    by_cases hg : s.gmap = .mapped
    · rw [regRead_fsel hg, regRead_fsel (s := s.under c) hg]; rfl
    · rw [regRead_unmapped (w := .gpio) hg, regRead_unmapped (s := s.under c) (w := .gpio) hg]; rfl
  | configureWrite k old => simp only [perform, regWrite_under]; cases regWrite .gpio _ _ s <;> rfl
  | sleepPre n => simp only [perform, timerRead_under]; cases timerRead s <;> rfl
  | coarse n pre => rfl
  | sleepPost n pre => simp only [perform, timerRead_under]; cases timerRead s <;> rfl
  | waitStart target => simp only [perform, timerRead_under]; cases timerRead s <;> rfl
  | wait start target fuel =>
    cases fuel with
    | zero =>
      simp only [perform, tickPast_under]
      have h := timerNow_under c (s.tickPast start target)
      rw [(tickPast_timeAside start target s).platform] at h
      rw [show (s.under c).platform = s.platform from rfl, h]
      cases regReadNow .timer s.platform.timerWord (s.tickPast start target) <;> rfl
    | succ fuel => simp only [perform, timerRead_under]; cases timerRead s <;> rfl

/-- An access taken under any control. -/
theorem perform_ok_under {a : Access} {s t : State} {more : List Access} (h : perform a s = .ok (more, t)) :
    perform a (s.under c) = .ok (more, t.under c) := by
  rw [perform_under, h]; rfl

/-! ### Steps inside a task -/

/-- INIT's end does not look at the control. -/
theorem finishInit_under (want : PinMask) (s : State) : finishInit want (s.under c) = (finishInit want s).under c := by
  unfold finishInit readyIf
  show (if s.res = want then if s.tmap == .mapped then _ else _ else _) = _
  by_cases h : s.res = want
  · rw [if_pos h, if_pos h]
    cases s.tmap == .mapped <;> rfl
  · rw [if_neg h, if_neg h]; rfl

theorem completeInit_under (m : PinMask) (s : State) :
    completeTask (.init m) (s.under c) = (completeTask (.init m) s).under (c.at' .idle) := by
  have h := finishInit_under c (initWant s.platform.pins s.rowMask) (s.nowConfigured m)
  show { finishInit (initWant s.platform.pins s.rowMask) ((s.nowConfigured m).under c) with phase := .idle } = _
  rw [h]; rfl

/-- A task's completion does not look at the phase. -/
theorem completeTask_phase (task : Task) (s : State) (ph : Phase) :
    completeTask task { s with phase := ph } = completeTask task s := by
  cases task with
  | init m =>
    show completeTask _ (s.under (s.control.at' ph)) = _
    rw [completeInit_under, ← State.under_control s, completeInit_under]; rfl
  | plain => rfl
  | outputs m => rfl
  | rowPlane => rfl
  | sweep => rfl
  | stop => rfl

theorem carryOn_phase (task : Task) (s : State) (ph : Phase) (as : List Access) :
    carryOn task { s with phase := ph } as = carryOn task s as := by
  cases as with
  | nil => exact completeTask_phase task s ph
  | cons a rest => rfl

/-- A step inside a task. -/
theorem busy_step {task : Task} {a : Access} {rest : List Access} {s : State} (hp : s.phase = .busy task a rest)
    (hf : s.phase.fits s.mode = true) : step s = complete (proceed task a rest s.hostTick) := by
  unfold step controllerStep
  rw [State.hostTick_phase, State.hostTick_mode, if_pos hf, hp]

theorem core_run_one (M : Host.Core) {s t : M.State} (h : M.step s = .next t) (n : Nat) :
    M.run (n + 1) s = M.run n t := by
  simp only [Host.Core.run, h]

theorem core_run_congr (M : Host.Core) {s s' : M.State} (h : M.step s = M.step s') (n : Nat) :
    M.run (n + 1) s = M.run (n + 1) s' := by
  simp only [Host.Core.run, h]

theorem run_one {s t : State} (h : step s = .next t) (n : Nat) :
    Host.Core.run Sys2Proof.core (n + 1) s = Host.Core.run Sys2Proof.core n t := core_run_one Sys2Proof.core h n

theorem run_then {s t u : State} {m n : Nat} (h : Host.Core.run Sys2Proof.core m s = .next t)
    (k : Host.Core.run Sys2Proof.core n t = .next u) : Host.Core.run Sys2Proof.core (m + n) s = .next u := by
  have key : ∀ (M : Host.Core) (m : Nat) (s t u : M.State), M.run m s = .next t → M.run n t = .next u →
      M.run (m + n) s = .next u := by
    intro M m
    induction m with
    | zero => intro s t u h k; cases h; rwa [Nat.zero_add]
    | succ m ih =>
      intro s t u h k
      unfold Host.Core.run at h
      split at h
      · rw [Nat.succ_add, Nat.succ_eq_add_one, core_run_one M (by assumption)]
        exact ih _ _ _ h k
      · cases h
      · cases h
  exact key Sys2Proof.core m s t u h k

/-- n steps lead from s to t, and every state between them has the property P. -/
structure RunsTo (P : State → Prop) (s : State) (n : Nat) (t : State) : Prop where
  run : Host.Core.run Sys2Proof.core n s = .next t
  between : ∀ k, 0 < k → k < n → ∃ u, Host.Core.run Sys2Proof.core k s = .next u ∧ P u

theorem RunsTo.one {P : State → Prop} {s t : State} (h : step s = .next t) : RunsTo P s 1 t :=
  ⟨run_one h 0, fun k h1 h2 => absurd h2 (by omega)⟩

theorem RunsTo.trans {P : State → Prop} {s t u : State} {m n : Nat} (h : RunsTo P s m t) (ht : P t)
    (k : RunsTo P t n u) : RunsTo P s (m + n) u := by
  refine ⟨run_then h.run k.run, fun j h1 h2 => ?_⟩
  rcases Nat.lt_trichotomy j m with hj | rfl | hj
  · exact h.between j h1 hj
  · exact ⟨t, h.run, ht⟩
  · obtain ⟨v, hv, hP⟩ := k.between (j - m) (by omega) (by omega)
    exact ⟨v, by have := run_then h.run hv; rwa [show m + (j - m) = j by omega] at this, hP⟩

/-- A first step that is another state's leads where that one's leads. -/
theorem RunsTo.of_step {P : State → Prop} {s y t : State} {n : Nat} (h : step s = step y) (k : RunsTo P y (n + 1) t) :
    RunsTo P s (n + 1) t := by
  refine ⟨(core_run_congr Sys2Proof.core h n).trans k.run, fun j h1 h2 => ?_⟩
  obtain ⟨j, rfl⟩ : ∃ i, j = i + 1 := ⟨j - 1, by omega⟩
  obtain ⟨u, hu, hP⟩ := k.between _ h1 h2
  exact ⟨u, (core_run_congr Sys2Proof.core h j).trans hu, hP⟩

/-- Inside an operation or inside a turn of the loop. -/
def State.underWay (s : State) : Prop := s.phase ≠ .idle ∧ s.phase ≠ .poll

/-- The accesses of a task from a first one on, one step each, and then its completion. -/
theorem proceed_runs {task : Task} {a : Access} {rest : List Access} {s t s0 : State} {n : Nat} {c : Control}
    (h : Performs (a :: rest) s (n + 1) t) (hf : ∀ a rest, (Phase.busy task a rest).fits s.mode = true)
    (h0 : step s0 = complete (proceed task a rest (s.under c))) :
    RunsTo State.underWay s0 (n + 1) (completeTask task (t.under (c.ticks n))) := by
  generalize hl : a :: rest = as at h
  generalize hn : n + 1 = m at h
  induction h generalizing a rest c s0 n with
  | nil => cases hl
  | @cons a' rest' more s u t m ha k ih =>
    obtain ⟨rfl, rfl⟩ := List.cons.inj hl
    obtain rfl : n = m := by omega
    have hm : u.mode = s.mode := (perform_cases ha).busAside.mode
    have hstep : step s0 = .next (carryOn task (u.under c) (more ++ rest)) := by
      rw [h0]; unfold proceed; rw [perform_ok_under _ ha]; rfl
    cases hmr : more ++ rest with
    | nil =>
      rw [hmr] at hstep k
      cases k
      exact .one hstep
    | cons b bs =>
      rw [hmr] at hstep k
      obtain ⟨m, rfl⟩ := k.pos
      have hb : step (u.under (c.at' (.busy task b bs))) =
          complete (proceed task b bs (u.under (c.at' (.busy task b bs)).tick)) := by
        rw [busy_step rfl (by show (Phase.busy task b bs).fits u.mode = true; rw [hm]; exact hf b bs), hostTick_under]
      have := ih (by rw [hm]; exact hf) hb hmr.symm rfl
      have hc : completeTask task (t.under ((c.at' (.busy task b bs)).tick.ticks m)) =
          completeTask task (t.under (c.ticks (m + 1))) := by
        show completeTask task (t.under ((c.at' (.busy task b bs)).ticks (m + 1))) = _
        rw [Control.ticks_at]
        exact completeTask_phase task (t.under (c.ticks (m + 1))) _
      rw [hc] at this
      rw [Nat.add_comm (m + 1) 1]
      exact (RunsTo.one hstep).trans ⟨by simp [carryOn], by simp [carryOn]⟩ this

/-- A task from its first step on; one without an access takes one step. -/
theorem start_runs {task : Task} {as : List Access} {s t s0 : State} {n : Nat} (h : Performs as s n t)
    (hf : ∀ a rest, (Phase.busy task a rest).fits s.mode = true) (h0 : step s0 = complete (start task as s)) :
    ∃ m, RunsTo State.underWay s0 (m + 1) (completeTask task (t.under (s.control.ticks m))) := by
  cases as with
  | nil =>
    cases h
    exact ⟨0, .one h0⟩
  | cons a rest =>
    obtain ⟨m, rfl⟩ := h.pos
    exact ⟨m, proceed_runs (c := s.control) h hf h0⟩

/-! ### From micro-operation to micro-operation -/

/-- At another position and phase. -/
abbrev Control.move (c : Control) (q : Pos) (ph : Phase) : Control := { c with pos := q, phase := ph }

theorem Control.ticks_move (c : Control) (q : Pos) (ph : Phase) (n : Nat) :
    (c.move q ph).ticks n = (c.ticks n).move q ph := by
  induction n generalizing c with
  | zero => rfl
  | succ n ih => exact ih c.tick

/-- The phase after the micro-operation at a position, in a ROWPLANE command and in a sweep. -/
def State.phaseAfter (s : State) (inSweep : Bool) (q : Pos) : Phase :=
  if inSweep then if q.endsSweep then s.phaseAfterSweep else s.microPhase .sweep q.next
  else if q.step = .dwell then .idle else s.microPhase .rowPlane q.next

/-- The task that goes from micro-operation to micro-operation. -/
def marching (inSweep : Bool) : Task := if inSweep then .sweep else .rowPlane

theorem completeTask_marching (inSweep : Bool) (s : State) (c : Control) :
    completeTask (marching inSweep) (s.under c) = s.under (c.move c.pos.next (s.phaseAfter inSweep c.pos)) := by
  cases inSweep <;> rfl

/-- Whatever the host's clock, steps lead from one place to another, and between them the controller is under way. -/
def Reaches (s : State) (q : Pos) (ph : Phase) (t : State) (q' : Pos) (ph' : Phase) : Prop :=
  ∀ c : Control, ∃ n, RunsTo State.underWay (s.under (c.move q ph)) n (t.under ((c.ticks n).move q' ph'))

theorem Reaches.trans {s t u : State} {q q' q'' : Pos} {ph ph' ph'' : Phase} (h : Reaches s q ph t q' ph')
    (hb : ph' ≠ .idle ∧ ph' ≠ .poll) (k : Reaches t q' ph' u q'' ph'') : Reaches s q ph u q'' ph'' := by
  intro c
  obtain ⟨m, hm⟩ := h c
  obtain ⟨n, hn⟩ := k (c.ticks m)
  refine ⟨m + n, hm.trans hb ?_⟩
  rwa [Control.ticks_add] at hn

theorem microPhase_busy (s : State) (task : Task) (q : Pos) :
    s.microPhase task q ≠ .idle ∧ s.microPhase task q ≠ .poll := by
  obtain ⟨a, rest, h⟩ := microAccesses_cons s q
  unfold State.microPhase
  rw [h]
  exact ⟨by simp [Phase.ofAccesses], by simp [Phase.ofAccesses]⟩

/-- The place in a sweep or row-plane where a MODE allows it. -/
def marchFits (inSweep : Bool) (m : Mode) : Prop := m = .ready ∨ inSweep = true ∧ m = .running

theorem marchFits.fits {inSweep : Bool} {m : Mode} (h : marchFits inSweep m) (a : Access) (rest : List Access) :
    (Phase.busy (marching inSweep) a rest).fits m = true := by
  rcases h with rfl | ⟨rfl, rfl⟩
  · cases inSweep <;> rfl
  · rfl

variable {inSweep : Bool}

/-- One micro-operation. -/
theorem micro_reaches {q : Pos} {s t : State} (hf : marchFits inSweep s.mode) (h : microAt q s = .ok t) :
    Reaches s q (s.microPhase (marching inSweep) q) t q.next (t.phaseAfter inSweep q) := by
  intro c
  obtain ⟨n, hn⟩ := microAt_performs h
  obtain ⟨a, rest, hl⟩ := microAccesses_cons s q
  have hph : s.microPhase (marching inSweep) q = .busy (marching inSweep) a rest := by
    unfold State.microPhase; rw [hl]; rfl
  rw [hl] at hn
  obtain ⟨n, rfl⟩ := hn.pos
  refine ⟨n + 1, ?_⟩
  have h0 : step (s.under (c.move q (s.microPhase (marching inSweep) q))) =
      complete (proceed (marching inSweep) a rest
        (s.under (c.move q (s.microPhase (marching inSweep) q)).tick)) := by
    rw [hph, busy_step rfl (hf.fits a rest), hostTick_under]
  have := proceed_runs hn hf.fits h0
  rw [show (c.move q (s.microPhase (marching inSweep) q)).tick.ticks n =
      (c.ticks (n + 1)).move q (s.microPhase (marching inSweep) q) from
    Control.ticks_move c q _ (n + 1), completeTask_marching] at this
  exact this

/-- Only pins and POS differ, so a sweep goes on as before. -/
theorem microAt_mode {q : Pos} {s t : State} (h : microAt q s = .ok t) : t.mode = s.mode := by
  obtain ⟨n, hn⟩ := microAt_performs h
  exact hn.busAside.mode

/-- The columns from col on. -/
theorem columns_reach (dr pl : Fin 8) (n : Nat) : ∀ (col : Nat) (hc : col < 32), 32 - col = n + 1 → ∀ s t : State,
    marchFits inSweep s.mode → shiftColumns dr pl ((List.finRange 32).drop col) s = .ok t →
    t.mode = s.mode ∧ Reaches s ⟨dr, pl, ⟨col, hc⟩, .shift⟩ (s.microPhase (marching inSweep) ⟨dr, pl, ⟨col, hc⟩, .shift⟩)
      t ⟨dr, pl, 0, .clearAfter⟩ (t.microPhase (marching inSweep) ⟨dr, pl, 0, .clearAfter⟩) := by
  have after : ∀ (q : Pos) (t : State), q.step = .shift →
      t.phaseAfter inSweep q = t.microPhase (marching inSweep) q.next := by
    intro q t hq
    cases inSweep <;> simp [State.phaseAfter, marching, hq, Pos.endsSweep]
  induction n with
  | zero =>
    intro col hc hn s t hf h
    obtain rfl : col = 31 := by omega
    rw [show (List.finRange 32).drop 31 = [31] from by decide] at h
    obtain ⟨u, hu, h⟩ := bind_eq_ok.mp h
    obtain rfl := Except.ok.inj h
    have hr := micro_reaches (q := ⟨dr, pl, 31, .shift⟩) hf hu
    rw [after _ _ rfl] at hr
    exact ⟨microAt_mode (q := ⟨dr, pl, 31, .shift⟩) hu, hr⟩
  | succ n ih =>
    intro col hc hn s t hf h
    rw [List.drop_eq_getElem_cons (by simpa using hc)] at h
    obtain ⟨u, hu, h⟩ := bind_eq_ok.mp h
    rw [List.getElem_finRange] at hu
    have hl : col < 31 := by omega
    have hr := micro_reaches (q := ⟨dr, pl, ⟨col, hc⟩, .shift⟩) hf hu
    have hm := microAt_mode (q := ⟨dr, pl, ⟨col, hc⟩, .shift⟩) hu
    rw [after _ _ rfl, show Pos.next ⟨dr, pl, ⟨col, hc⟩, .shift⟩ = ⟨dr, pl, ⟨col + 1, by omega⟩, .shift⟩ by
      simp [Pos.next, hl]] at hr
    obtain ⟨hm', hk⟩ := ih (col + 1) (by omega) (by omega) u t (by rw [hm]; exact hf) h
    exact ⟨hm'.trans hm, hr.trans (microPhase_busy _ _ _) hk⟩

/-- A row-plane: its 37 micro-operations, one after another. -/
theorem rowPlane_reaches (dr pl : Fin 8) {s t : State} (hf : marchFits inSweep s.mode) (h : rowPlane dr pl s = .ok t) :
    t.mode = s.mode ∧ Reaches s ⟨dr, pl, 0, .clearBefore⟩ (s.microPhase (marching inSweep) ⟨dr, pl, 0, .clearBefore⟩)
      t (Pos.afterRowPlane dr pl) (t.phaseAfter inSweep ⟨dr, pl, 0, .dwell⟩) := by
  have after : ∀ (q : Pos) (t : State), q.step ≠ .dwell →
      t.phaseAfter inSweep q = t.microPhase (marching inSweep) q.next := by
    intro q t hq
    have he : q.endsSweep = false := by
      obtain ⟨d, p, k, st⟩ := q
      cases st <;> first | rfl | exact absurd rfl hq
    cases inSweep <;> simp [State.phaseAfter, marching, hq, he]
  obtain ⟨s5, h5, h⟩ := bind_eq_ok.mp h
  obtain ⟨s1, h1, h5⟩ := bind_eq_ok.mp h5
  obtain ⟨s2, h2, h5⟩ := bind_eq_ok.mp h5
  obtain ⟨s3, h3, h5⟩ := bind_eq_ok.mp h5
  obtain ⟨s4, h4, h5⟩ := bind_eq_ok.mp h5
  obtain ⟨s6, h6, h⟩ := bind_eq_ok.mp h
  obtain rfl := Except.ok.inj h
  have m1 := microAt_mode (q := ⟨dr, pl, 0, .clearBefore⟩) h1
  obtain ⟨m2, r2⟩ := columns_reach (inSweep := inSweep) dr pl 31 0 (by decide) rfl s1 s2 (by rw [m1]; exact hf) h2
  have m2 := m2.trans m1
  have m3 := (microAt_mode (q := ⟨dr, pl, 0, .clearAfter⟩) h3).trans m2
  have m4 := (microAt_mode (q := ⟨dr, pl, 0, .address⟩) h4).trans m3
  have m5 := (microAt_mode (q := ⟨dr, pl, 0, .latch⟩) h5).trans m4
  have m6 := (microAt_mode (q := ⟨dr, pl, 0, .dwell⟩) h6).trans m5
  have r1 := micro_reaches (q := ⟨dr, pl, 0, .clearBefore⟩) hf h1
  have r3 := micro_reaches (inSweep := inSweep) (q := ⟨dr, pl, 0, .clearAfter⟩) (by rw [m2]; exact hf) h3
  have r4 := micro_reaches (inSweep := inSweep) (q := ⟨dr, pl, 0, .address⟩) (by rw [m3]; exact hf) h4
  have r5 := micro_reaches (inSweep := inSweep) (q := ⟨dr, pl, 0, .latch⟩) (by rw [m4]; exact hf) h5
  have r6 := micro_reaches (inSweep := inSweep) (q := ⟨dr, pl, 0, .dwell⟩) (by rw [m5]; exact hf) h6
  rw [after _ _ (by simp)] at r1 r3 r4 r5
  refine ⟨m6, ?_⟩
  have := ((((r1.trans (microPhase_busy _ _ _) r2).trans (microPhase_busy _ _ _) r3).trans
    (microPhase_busy _ _ _) r4).trans (microPhase_busy _ _ _) r5).trans (microPhase_busy _ _ _) r6
  cases inSweep <;> exact this

/-- The row-planes of double-row dr from bitplane pl on, in a sweep. -/
theorem rowPlanes_reach (dr : Fin 8) (n : Nat) : ∀ (pl : Nat) (hp : pl < 8), 8 - pl = n + 1 → ∀ s t : State,
    marchFits true s.mode → rowPlanes dr ((List.finRange 8).drop pl) s = .ok t →
    t.mode = s.mode ∧ Reaches s ⟨dr, ⟨pl, hp⟩, 0, .clearBefore⟩ (s.microPhase .sweep ⟨dr, ⟨pl, hp⟩, 0, .clearBefore⟩)
      t (Pos.afterRowPlane dr 7) (t.phaseAfter true ⟨dr, 7, 0, .dwell⟩) := by
  induction n with
  | zero =>
    intro pl hp hn s t hf h
    obtain rfl : pl = 7 := by omega
    rw [show (List.finRange 8).drop 7 = [7] from by decide] at h
    obtain ⟨u, hu, h⟩ := bind_eq_ok.mp h
    obtain rfl := Except.ok.inj h
    exact rowPlane_reaches dr 7 hf hu
  | succ n ih =>
    intro pl hp hn s t hf h
    rw [List.drop_eq_getElem_cons (by simpa using hp)] at h
    obtain ⟨u, hu, h⟩ := bind_eq_ok.mp h
    rw [List.getElem_finRange] at hu
    have hl : pl < 7 := by omega
    obtain ⟨hm, hr⟩ := rowPlane_reaches dr ⟨pl, hp⟩ hf hu
    obtain ⟨hm', hk⟩ := ih (pl + 1) (by omega) (by omega) u t (by rw [hm]; exact hf) h
    have hnext : Pos.afterRowPlane dr ⟨pl, hp⟩ = ⟨dr, ⟨pl + 1, by omega⟩, 0, .clearBefore⟩ := by
      simp [Pos.afterRowPlane, hl]
    have hends : Pos.endsSweep ⟨dr, ⟨pl, hp⟩, 0, .dwell⟩ = false := by
      simp only [Pos.endsSweep, Bool.and_eq_false_iff, decide_eq_false_iff_not, Fin.ext_iff]
      exact .inr (by show ¬pl = 7; omega)
    have hph : u.phaseAfter true ⟨dr, ⟨pl, hp⟩, 0, .dwell⟩ = u.microPhase .sweep ⟨dr, ⟨pl + 1, by omega⟩, 0, .clearBefore⟩ := by
      rw [← hnext]; simp [State.phaseAfter, hends]; rfl
    rw [hnext, hph] at hr
    exact ⟨hm'.trans hm, hr.trans (microPhase_busy _ _ _) hk⟩

/-- The row-planes from double-row dr on. -/
theorem doubleRows_reach (n : Nat) : ∀ (dr : Nat) (hd : dr < 8), 8 - dr = n + 1 → ∀ s t : State,
    marchFits true s.mode → doubleRows ((List.finRange 8).drop dr) s = .ok t →
    t.mode = s.mode ∧ Reaches s ⟨⟨dr, hd⟩, 0, 0, .clearBefore⟩ (s.microPhase .sweep ⟨⟨dr, hd⟩, 0, 0, .clearBefore⟩)
      t ⟨7, 7, 0, .dwell⟩ t.phaseAfterSweep := by
  induction n with
  | zero =>
    intro dr hd hn s t hf h
    obtain rfl : dr = 7 := by omega
    rw [show (List.finRange 8).drop 7 = [7] from by decide] at h
    obtain ⟨u, hu, h⟩ := bind_eq_ok.mp h
    obtain rfl := Except.ok.inj h
    exact rowPlanes_reach 7 7 0 (by decide) rfl s u hf hu
  | succ n ih =>
    intro dr hd hn s t hf h
    rw [List.drop_eq_getElem_cons (by simpa using hd)] at h
    obtain ⟨u, hu, h⟩ := bind_eq_ok.mp h
    rw [List.getElem_finRange] at hu
    have hl : dr < 7 := by omega
    obtain ⟨hm, hr⟩ := rowPlanes_reach ⟨dr, hd⟩ 7 0 (by decide) rfl s u hf hu
    obtain ⟨hm', hk⟩ := ih (dr + 1) (by omega) (by omega) u t (by rw [hm]; exact hf) h
    have hnext : Pos.afterRowPlane ⟨dr, hd⟩ 7 = ⟨⟨dr + 1, by omega⟩, 0, 0, .clearBefore⟩ := by
      unfold Pos.afterRowPlane
      rw [dif_neg (by decide), dif_pos hl]
    have hends : Pos.endsSweep ⟨⟨dr, hd⟩, 7, 0, .dwell⟩ = false := by
      simp only [Pos.endsSweep, Bool.and_eq_false_iff, decide_eq_false_iff_not, Fin.ext_iff]
      exact .inl (by show ¬dr = 7; omega)
    have hph : u.phaseAfter true ⟨⟨dr, hd⟩, 7, 0, .dwell⟩ = u.microPhase .sweep ⟨⟨dr + 1, by omega⟩, 0, 0, .clearBefore⟩ := by
      rw [← hnext]; simp [State.phaseAfter, hends]; rfl
    rw [hnext, hph] at hr
    exact ⟨hm'.trans hm, hr.trans (microPhase_busy _ _ _) hk⟩

/-! ### The scroll step -/

/-- The scroll step's counter read, under any control. -/
theorem scrollStep_under (c : Control) {s : State} (ht : s.tmap = .mapped) :
    scrollStep (s.under c) = .ok ((s.tick.record (.read .timer s.platform.timerWord s.tick.cnt)).under
      (c.at' (if Config.scrollPeriodTicks ≤ elapsed s.lastScroll s.tick.cnt then .load s.tick.cnt
        else s.phaseAfterScroll))) := by
  unfold scrollStep
  rw [timerRead_under, timerRead_ok ht]
  rfl

/-- The scroll load, under any control. -/
theorem loadStep_under (c : Control) (now : Word) {s t : State} (h : advanceFrame s = .ok t) :
    loadStep now (s.under c) = .ok ({ t with lastScroll := now }.under (c.at' s.phaseAfterScroll)) := by
  obtain ⟨img, hs, hu, rfl⟩ := advanceFrame_eq_ok.mp h
  unfold loadStep
  rw [advanceFrame_eq_ok (s := s.under c) |>.mpr ⟨img, hs, hu, rfl⟩]
  rfl

theorem scroll_step {s : State} (hp : s.phase = .scroll) (hm : s.mode = .ready ∨ s.mode = .running) :
    step s = complete (scrollStep s.hostTick) := by
  unfold step controllerStep
  rw [State.hostTick_phase, State.hostTick_mode, hp]
  rcases hm with h | h <;> rw [h] <;> rfl

theorem load_step {s : State} {now : Word} (hp : s.phase = .load now) (hm : s.mode = .ready ∨ s.mode = .running) :
    step s = complete (loadStep now s.hostTick) := by
  unfold step controllerStep
  rw [State.hostTick_phase, State.hostTick_mode, hp]
  rcases hm with h | h <;> rw [h] <;> rfl

/-- The scroll step with SCROLL_EN set: its counter read, and the scroll load where it is due (43_sequencer.md R188). -/
theorem scroll_reaches {q : Pos} {s t : State} (hm : s.mode = .ready ∨ s.mode = .running) (he : s.scrollEn = true)
    (h : scrollCheck s = .ok t) : Reaches s q .scroll t q s.phaseAfterScroll := by
  have ht : s.tmap = .mapped := by
    unfold scrollCheck at h
    rw [if_pos he] at h
    obtain ⟨r, hr, -⟩ := bind_eq_ok.mp h
    exact (timerRead_inv hr).1
  intro c
  have h0 := scroll_step (s := s.under (c.move q .scroll)) rfl hm
  rw [hostTick_under, scrollStep_under _ ht] at h0
  rw [scrollCheck_on he ht] at h
  split at h
  · next hd =>
    rw [if_pos hd] at h0
    obtain ⟨v, hv, h⟩ := bind_eq_ok.mp h
    obtain rfl := Except.ok.inj h
    refine ⟨2, ?_⟩
    have h1 := load_step (s := (s.tick.record (.read .timer s.platform.timerWord s.tick.cnt)).under
      ((c.move q .scroll).tick.at' (.load s.tick.cnt))) rfl hm
    rw [hostTick_under, loadStep_under _ _ hv] at h1
    exact (RunsTo.one h0).trans ⟨by simp [State.under], by simp [State.under]⟩ (.one h1)
  · next hd =>
    rw [if_neg hd] at h0
    obtain rfl := Except.ok.inj h
    exact ⟨1, .one h0⟩

/-! ### A whole sweep -/

/-- A whole sweep (43_sequencer.md R187, R191). -/
theorem sweepPanel_reaches {s t : State} (hf : marchFits true s.mode) (h : sweepPanel s = .ok t) :
    t.mode = s.mode ∧
      Reaches s Pos.start (s.microPhase .sweep Pos.start) t ⟨7, 7, 0, .dwell⟩ t.phaseAfterSweep :=
  doubleRows_reach 7 0 (by decide) rfl { s with pos := Pos.start } t hf h

end Sys2Proof.Machine
end

