-- ==== Sys2Proof/Laws/Panel.lean ====
section
/-! SUPPORT. Pin masks bit by bit, and what the panel observer sees of each piece of a row-plane (43_sequencer.md R200 to
R202). -/

namespace Sys2Proof.Machine

/-! ### Pin masks bit by bit -/

theorem pinBit_bit (j k : PinIndex) : (pinBit j).getLsbD k.val = decide (j = k) := by
  have key : ∀ (j : PinIndex) (n : Nat), n < 32 → (pinBit j).getLsbD n = decide (j.val = n) := by
    intro j n hn
    simp only [pinBit, BitVec.getLsbD_shiftLeft, BitVec.getLsbD_one]
    by_cases h : j.val = n
    · subst h; simp [hn]
    · by_cases h' : n < j.val
      · simp [h, h']
      · have : n - j.val ≠ 0 := by omega
        simp [h, this]
  rw [key j k.val (by omega), ← decide_eq_decide.mpr Fin.ext_iff]

theorem maskIf_bit (b : Bool) (j k : PinIndex) : (maskIf b (pinBit j)).getLsbD k.val = (b && decide (j = k)) := by
  cases b
  · simp [maskIf]
  · simp [maskIf, pinBit_bit]

/-! ### The observer -/

theorem shiftIn_zero (v : Vector SixLines 32) (x : SixLines) : (shiftIn v x)[0] = x := by
  simp [shiftIn]

theorem shiftIn_succ (v : Vector SixLines 32) (x : SixLines) (i : Nat) (h : i + 1 < 32) : (shiftIn v x)[i + 1] = v[i] := by
  simp [shiftIn]

/-- Shifting in a list of columns puts the last one first. -/
theorem foldl_shiftIn {α : Type} (f : α → SixLines) (xs : List α) (v : Vector SixLines 32) (i : Nat) (hi : i < 32) :
    (xs.foldl (fun v x => shiftIn v (f x)) v)[i] =
      if h : i < xs.length then f (xs[xs.length - 1 - i]) else v[i - xs.length] := by
  induction xs generalizing v with
  | nil => simp
  | cons x xs ih =>
    rw [List.foldl_cons, ih]
    by_cases h : i < xs.length
    · rw [dif_pos h, dif_pos (by simp; omega)]
      congr 1
      simp only [List.length_cons, List.getElem_cons]
      rw [dif_neg (by omega)]
      congr 1
      omega
    · rw [dif_neg h]
      by_cases h' : i = xs.length
      · subst h'
        simp [shiftIn]
      · rw [dif_neg (by simp; omega)]
        obtain ⟨k, hk⟩ : ∃ k, i - xs.length = k + 1 := ⟨i - xs.length - 1, by omega⟩
        simp only [hk, List.length_cons]
        rw [shiftIn_succ _ _ k (by omega)]
        congr 1
        omega

theorem observe_shift_of_low {p : PinTable} {m : PinMask} {x y : Word} (panel : Panel)
    (h : y.getLsbD p.clk.val = false ∨ x.getLsbD p.clk.val = true) : (panel.observe p m x y).shift = panel.shift := by
  have : clockRises p x y = false := by
    unfold clockRises; rcases h with h | h <;> simp [h]
  unfold Panel.observe
  simp only [this]
  split <;> rfl

theorem observe_shift_of_rise {p : PinTable} {m : PinMask} {x y : Word} (panel : Panel)
    (h : y.getLsbD p.clk.val = true) (h' : x.getLsbD p.clk.val = false) :
    (panel.observe p m x y).shift = shiftIn panel.shift (SixLines.ofLatch p y) := by
  have : clockRises p x y = true := by simp [clockRises, h, h']
  unfold Panel.observe
  simp only [this]
  split <;> rfl

/-- While LAT is low and CLK does not rise the panel stays as it is. -/
theorem observe_of_low {p : PinTable} {m : PinMask} {x y : Word} (panel : Panel)
    (h : y.getLsbD p.clk.val = false ∨ x.getLsbD p.clk.val = true) (hl : y.getLsbD p.lat.val = false) :
    panel.observe p m x y = panel := by
  have : clockRises p x y = false := by
    unfold clockRises; rcases h with h | h <;> simp [h]
  unfold Panel.observe
  simp [this, hl]

/-! ### One column -/

theorem roles_nodup {p : PinTable} (h : p.disjoint = true) : p.roles.Nodup := of_decide_eq_true h

/-- CLK is no other pin that a row-plane drives (00_scope.md R11); so for the colour pins, OE, LAT and the address pins below. -/
theorem clk_ne {p : PinTable} (h : p.disjoint = true) :
    p.clk ≠ p.r1 ∧ p.clk ≠ p.g1 ∧ p.clk ≠ p.b1 ∧ p.clk ≠ p.r2 ∧ p.clk ≠ p.g2 ∧ p.clk ≠ p.b2 ∧ p.clk ≠ p.lat ∧
      p.clk ≠ p.oe ∧ p.clk ≠ p.a ∧ p.clk ≠ p.b ∧ p.clk ≠ p.c := by
  have h := roles_nodup h
  simp only [PinTable.roles, List.nodup_cons, List.mem_cons, not_or] at h
  simp_all [@eq_comm _ p.clk]

theorem colour_ne {p : PinTable} (h : p.disjoint = true) :
    p.r1 ≠ p.g1 ∧ p.r1 ≠ p.b1 ∧ p.r1 ≠ p.r2 ∧ p.r1 ≠ p.g2 ∧ p.r1 ≠ p.b2 ∧ p.g1 ≠ p.b1 ∧ p.g1 ≠ p.r2 ∧ p.g1 ≠ p.g2 ∧
      p.g1 ≠ p.b2 ∧ p.b1 ≠ p.r2 ∧ p.b1 ≠ p.g2 ∧ p.b1 ≠ p.b2 ∧ p.r2 ≠ p.g2 ∧ p.r2 ≠ p.b2 ∧ p.g2 ≠ p.b2 := by
  have h := roles_nodup h
  simp only [PinTable.roles, List.nodup_cons, List.mem_cons, not_or] at h
  simp_all

theorem oe_ne {p : PinTable} (h : p.disjoint = true) :
    p.oe ≠ p.clk ∧ p.oe ≠ p.lat ∧ p.oe ≠ p.a ∧ p.oe ≠ p.b ∧ p.oe ≠ p.c ∧ p.oe ≠ p.r1 ∧ p.oe ≠ p.g1 ∧ p.oe ≠ p.b1 ∧
      p.oe ≠ p.r2 ∧ p.oe ≠ p.g2 ∧ p.oe ≠ p.b2 := by
  have h := roles_nodup h
  simp only [PinTable.roles, List.nodup_cons, List.mem_cons, not_or] at h
  simp_all

theorem lat_ne {p : PinTable} (h : p.disjoint = true) :
    p.lat ≠ p.a ∧ p.lat ≠ p.b ∧ p.lat ≠ p.c ∧ p.lat ≠ p.d ∧ p.lat ≠ p.e ∧ p.a ≠ p.b ∧ p.a ≠ p.c ∧ p.a ≠ p.d ∧ p.a ≠ p.e ∧
      p.b ≠ p.c ∧ p.b ≠ p.d ∧ p.b ≠ p.e ∧ p.c ≠ p.d ∧ p.c ≠ p.e ∧ p.d ≠ p.e := by
  have h := roles_nodup h
  simp only [PinTable.roles, List.nodup_cons, List.mem_cons, not_or] at h
  simp_all

/-- The bits of plane_bits on its own pins (42_frame.md R161). -/
theorem planeBits_lines {p : PinTable} (h : p.disjoint = true) (top bottom : Pixel) (plane : Nat) :
    (planeBits p top bottom plane).getLsbD p.r1.val = top.r.getLsbD plane ∧
      (planeBits p top bottom plane).getLsbD p.g1.val = top.g.getLsbD plane ∧
      (planeBits p top bottom plane).getLsbD p.b1.val = top.b.getLsbD plane ∧
      (planeBits p top bottom plane).getLsbD p.r2.val = bottom.r.getLsbD plane ∧
      (planeBits p top bottom plane).getLsbD p.g2.val = bottom.g.getLsbD plane ∧
      (planeBits p top bottom plane).getLsbD p.b2.val = bottom.b.getLsbD plane := by
  obtain ⟨h1, h2, h3, h4, h5, h6, h7, h8, h9, h10, h11, h12, h13, h14, h15⟩ := colour_ne h
  unfold planeBits
  simp only [BitVec.getLsbD_or, maskIf_bit]
  simp [h1, h2, h3, h4, h5, h6, h7, h8, h9, h10, h11, h12, h13, h14, h15, h1.symm, h2.symm, h3.symm, h4.symm, h5.symm,
    h6.symm, h7.symm, h8.symm, h9.symm, h10.symm, h11.symm, h12.symm, h13.symm, h14.symm, h15.symm]

theorem planeBits_clk {p : PinTable} (h : p.disjoint = true) (top bottom : Pixel) (plane : Nat) :
    (planeBits p top bottom plane).getLsbD p.clk.val = false := by
  obtain ⟨h1, h2, h3, h4, h5, h6, -⟩ := clk_ne h
  unfold planeBits
  simp only [BitVec.getLsbD_or, maskIf_bit]
  simp [h1.symm, h2.symm, h3.symm, h4.symm, h5.symm, h6.symm]

theorem ccMask_bits (p : PinTable) :
    (ccMask p).getLsbD p.clk.val = true ∧ (ccMask p).getLsbD p.r1.val = true ∧ (ccMask p).getLsbD p.g1.val = true ∧
      (ccMask p).getLsbD p.b1.val = true ∧ (ccMask p).getLsbD p.r2.val = true ∧ (ccMask p).getLsbD p.g2.val = true ∧
      (ccMask p).getLsbD p.b2.val = true := by
  unfold ccMask colorMask
  simp only [BitVec.getLsbD_or, pinBit_bit]
  simp

/-- One column is shifted in (43_sequencer.md R182, R201). -/
theorem shiftColumn_panel {dr pl : Fin 8} {col : Fin 32} {s t : State} (hd : s.platform.pins.disjoint = true)
    (h : shiftColumn dr pl col s = .ok t) : t.panel.shift = shiftIn s.panel.shift (columnLines s.frame dr pl col) := by
  have h' := h
  unfold shiftColumn at h'
  obtain ⟨s1, h1, h'⟩ := bind_eq_ok.mp h'
  obtain ⟨s2, h2, h3⟩ := bind_eq_ok.mp h'
  have hm := (clearColourClock_inv h1).1
  obtain ⟨u1, e1, a1, o1, q1, -⟩ := clearColourClock_spec hm
  obtain rfl := Except.ok.inj (e1.symm.trans h1)
  obtain ⟨u2, e2, a2, o2, q2, -⟩ := writeMasked_spec
    (planeBits u1.platform.pins (topPixel u1.frame dr col) (bottomPixel u1.frame dr col) pl.val) (ccMask u1.platform.pins)
    (a1.gmap.trans hm)
  obtain rfl := Except.ok.inj (e2.symm.trans h2)
  obtain ⟨u3, e3, a3, o3, q3, -⟩ := setPins_spec (pinBit u2.platform.pins.clk) (a2.gmap.trans (a1.gmap.trans hm))
  obtain rfl := Except.ok.inj (e3.symm.trans h3)
  rw [planeBits_and_cc] at o2 q2
  obtain ⟨c0, c1, c2, c3, c4, c5, c6⟩ := ccMask_bits s.platform.pins
  obtain ⟨n1, n2, n3, n4, n5, n6, -⟩ := clk_ne hd
  have hp1 : u1.platform = s.platform := a1.platform
  have hp2 : u2.platform = s.platform := a2.platform.trans hp1
  have hf1 : u1.frame = s.frame := a1.frame
  have pc := planeBits_clk hd (topPixel s.frame dr col) (bottomPixel s.frame dr col) pl.val
  obtain ⟨l1, l2, l3, l4, l5, l6⟩ := planeBits_lines hd (topPixel s.frame dr col) (bottomPixel s.frame dr col) pl.val
  rw [hp1, hf1] at o2 q2
  rw [hp2] at o3 q3
  generalize planeBits s.platform.pins (topPixel s.frame dr col) (bottomPixel s.frame dr col) pl.val = pb at *
  have k1 : u1.outlatch.getLsbD s.platform.pins.clk.val = false := by rw [o1]; simp [c0]
  have k2 : u2.outlatch.getLsbD s.platform.pins.clk.val = false := by rw [o2]; simp [c0, pc]
  have k3 : (u2.outlatch ||| pinBit s.platform.pins.clk).getLsbD s.platform.pins.clk.val = true := by simp [pinBit_bit]
  rw [q3, observe_shift_of_rise _ k3 k2]
  rw [q2, observe_shift_of_low _ (.inl (by simp [c0, pc])), observe_shift_of_low _ (.inl (by simp [c0, k1]))]
  rw [q1, observe_shift_of_low _ (.inl (by simp [c0]))]
  congr 1
  unfold SixLines.ofLatch columnLines
  rw [o2]
  simp [c1, c2, c3, c4, c5, c6, pinBit_bit, n1, n2, n3, n4, n5, n6, l1, l2, l3, l4, l5, l6]

theorem shiftColumns_panel {dr pl : Fin 8} (cols : List (Fin 32)) : ∀ {s t : State}, s.platform.pins.disjoint = true →
    shiftColumns dr pl cols s = .ok t →
    t.panel.shift = cols.foldl (fun v c => shiftIn v (columnLines s.frame dr pl c)) s.panel.shift := by
  induction cols with
  | nil =>
    intro s t _ h
    obtain rfl := Except.ok.inj h
    rfl
  | cons col cols ih =>
    intro s t hd h
    unfold shiftColumns at h
    obtain ⟨u, hu, h⟩ := bind_eq_ok.mp h
    have a := (shiftColumn_inv hu).2
    have hd' : u.platform.pins.disjoint = true := by rw [a.platform]; exact hd
    rw [ih hd' h, shiftColumn_panel hd hu, a.frame, List.foldl_cons]

/-- Clearing the colour and clock lines shifts nothing (43_sequencer.md R181). -/
theorem clearColourClock_panel {s t : State} (h : clearColourClock s = .ok t) : t.panel.shift = s.panel.shift := by
  obtain ⟨u, e, -, -, q, -⟩ := clearColourClock_spec (clearColourClock_inv h).1
  obtain rfl := Except.ok.inj (e.symm.trans h)
  rw [q, observe_shift_of_low _ (.inl (by simp [(ccMask_bits s.platform.pins).1]))]

/-- With CLK low, putting an address shifts nothing (43_sequencer.md R183). -/
theorem putAddress_panel {dr : Nat} {s t : State} (h : putAddress dr s = .ok t)
    (hk : s.outlatch.getLsbD s.platform.pins.clk.val = false)
    (hr : s.rowMask.getLsbD s.platform.pins.clk.val = false) : t.panel.shift = s.panel.shift := by
  obtain ⟨u, e, -, -, q, -⟩ := writeMasked_spec (rowAddressBits s.platform.pins s.rowMask dr) s.rowMask (writeMasked_inv h).1
  obtain rfl := Except.ok.inj (e.symm.trans h)
  rw [q, observe_shift_of_low _ (.inl (by simp [hk, hr])), observe_shift_of_low _ (.inl (by simp [hk]))]

/-- With CLK low, the latch pulse latches the shift register and the address lines (43_sequencer.md R184, R202). -/
theorem pulseLatch_panel {s t : State} (h : pulseLatch s = .ok t)
    (hk : s.outlatch.getLsbD s.platform.pins.clk.val = false) (hl : s.platform.pins.clk ≠ s.platform.pins.lat) :
    t.panel = { shift := s.panel.shift, latched := s.panel.shift
                latchedAddr := addressOnLines s.platform.pins s.rowMask
                  (s.outlatch ||| pinBit s.platform.pins.lat) } := by
  have h' := h
  unfold pulseLatch at h'
  obtain ⟨s1, h1, h2⟩ := bind_eq_ok.mp h'
  have hm := (setPins_inv h1).1
  obtain ⟨u1, e1, a1, o1, q1, -⟩ := setPins_spec (pinBit s.platform.pins.lat) hm
  obtain rfl := Except.ok.inj (e1.symm.trans h1)
  obtain ⟨u2, e2, -, -, q2, -⟩ := clearPins_spec (pinBit u1.platform.pins.lat) (a1.gmap.trans hm)
  obtain rfl := Except.ok.inj (e2.symm.trans h2)
  have hp : u1.platform = s.platform := a1.platform
  rw [hp] at q2
  have k1 : u1.outlatch.getLsbD s.platform.pins.clk.val = false := by
    rw [o1]; simp [hk, pinBit_bit, hl.symm]
  rw [q2, observe_of_low _ (.inl (by simp [k1])) (by simp [pinBit_bit]), q1]
  have hs : clockRises s.platform.pins s.outlatch (s.outlatch ||| pinBit s.platform.pins.lat) = false := by
    simp [clockRises, hk, pinBit_bit, hl.symm]
  unfold Panel.observe
  simp [hs, pinBit_bit]

/-- With LAT and CLK low, the dwell leaves the panel's registers as they are (43_sequencer.md R185). -/
theorem dwellPlane_panel {pl : Fin 8} {s t : State} (h : dwellPlane pl s = .ok t)
    (hd : s.platform.pins.disjoint = true) (hk : s.outlatch.getLsbD s.platform.pins.clk.val = false)
    (hl : s.outlatch.getLsbD s.platform.pins.lat.val = false) : t.panel = s.panel := by
  have h' := h
  unfold dwellPlane at h'
  obtain ⟨s1, h1, h'⟩ := bind_eq_ok.mp h'
  obtain ⟨s2, h2, h3⟩ := bind_eq_ok.mp h'
  have hm := (clearPins_inv h1).1
  obtain ⟨u1, e1, a1, o1, q1, -⟩ := clearPins_spec (pinBit s.platform.pins.oe) hm
  obtain rfl := Except.ok.inj (e1.symm.trans h1)
  have a2 := (sleepNanos_inv (u1.timing[pl]).isLt h2).2
  have hg2 : s2.gmap = .mapped := (setPins_inv h3).1
  obtain ⟨u3, e3, -, -, q3, -⟩ := setPins_spec (pinBit s2.platform.pins.oe) hg2
  obtain rfl := Except.ok.inj (e3.symm.trans h3)
  obtain ⟨n1, n2, -⟩ := oe_ne hd
  have hp2 : s2.platform = s.platform := a2.platform.trans a1.platform
  have ho2 : s2.outlatch = u1.outlatch := a2.outlatch
  rw [q3, hp2, ho2, o1]
  rw [observe_of_low _ (.inl (by simp [hk, pinBit_bit, n1])) (by simp [hl, pinBit_bit, n2])]
  rw [show s2.panel = u1.panel from a2.panel, q1]
  exact observe_of_low _ (.inl (by simp [hk])) (by simp [hl])

end Sys2Proof.Machine
end

