-- ==== Sys2Proof/Tests/Slice0.lean ====
section
/-! SUPPORT. Tests, each with its source in the spec, and witnesses that meet the hypotheses of the statements. Expected
values come from 95_test_vectors.md, never from the model. -/

namespace Sys2Proof.Tests

open Sys2Proof.Machine

/-! ### Helpers -/

/-- The next state of an outcome. -/
def nextOf : Host.Outcome State Fault Refusal → Option State
  | .next s => some s
  | .fault _ => none
  | .refused _ => none

/-- The refusal of an outcome. -/
def refusalOf : Host.Outcome State Fault Refusal → Option Refusal
  | .next _ => none
  | .fault _ => none
  | .refused r => some r

/-- The next state of an operation, seen through one function of it. -/
def after {α : Type} (i : Instr) (s : State) (f : State → α) : Option α := (nextOf (exec i s)).map f

/-- The new events, oldest first. -/
def events (s : State) : List BusEvent := s.trace.reverse

def w7 (v : Word) : BusEvent := .write .gpio 7 v
def w10 (v : Word) : BusEvent := .write .gpio 10 v
def readT (v : Word) : BusEvent := .read .timer 1 v

/-- The counter script of 95_test_vectors.md section 3.2: every access one tick, coarse sleeps as given. -/
def scripted (s : State) (n : Nat) (coarse : List Nat) : State :=
  { s with env := { ticks := List.replicate n 1, coarse := coarse, levels := [] } }

/-- After INIT 0 and TINIT, as program P1 of 95_test_vectors.md leaves it, with SLOWDOWN 0 and an empty trace. -/
def ready : State :=
  { State.reset with
    outBits := 0x0CE33070#32, res := 0x0CE33070#32, rowMask := 0x0C400000#32, timing := timingTable, mode := .ready
    gmap := .mapped, tmap := .mapped, fsel := #v[0x00049000#32, 0x00240240#32, 0x00240248#32] }

/-- In Reset with both windows mapped and nothing configured. -/
def mappedOnly : State := { State.reset with gmap := .mapped, tmap := .mapped }

/-- The same machine in the running loop, at the sweep boundary. -/
def running : State := { ready with mode := .running, phase := .poll }

/-- Inside the sweep, before the first access of the micro-operation of a position. -/
def sweeping (p : Pos) : State :=
  { running with phase := running.microPhase .sweep p, pos := p, outlatch := 0x0C400010#32 }

/-- The state after n steps. -/
def steps (n : Nat) (s : State) : Option State := nextOf (Host.Core.run Sys2Proof.core n s)

def stopped : State := { ready with mode := .stopped }

def faulted : State := { State.reset with mode := .faulted, err := .mapError }

/-- A source image of a size, all of one colour. -/
def image (w h : Nat) (p : Pixel) : SourceImage := { width := w, height := h, rows := List.replicate h (List.replicate w p) }

def unprivileged : State := { State.reset with platform := { Platform.exPlatform with privileged := false } }

def unmappable : State := { State.reset with platform := { Platform.exPlatform with mapOkGpio := false, mapOkTimer := false } }

/-- VALID_PINS without pin 4, which is OE (95_test_vectors.md 3.5). -/
def invalidPin : State := { State.reset with platform := { Platform.exPlatform with validPins := 0x0FFFFFEF#32 } }

/-! ### WellFormed refuses an operand out of range (40_gpio.md R120, 43_sequencer.md R182, R185, R186) -/

theorem smoke_cfgout1 : (Instr.cfgout1 ⟨28⟩).wellFormed = false ∧ (Instr.cfgout1 ⟨27⟩).wellFormed = true := by decide
theorem smoke_shiftcol_dr : (Instr.shiftcol 8 0 0).wellFormed = false ∧ (Instr.shiftcol 7 7 31).wellFormed = true := by decide
theorem smoke_shiftcol_pl : (Instr.shiftcol 0 8 0).wellFormed = false := by decide
theorem smoke_shiftcol_col : (Instr.shiftcol 0 0 32).wellFormed = false := by decide
theorem smoke_dwell : (Instr.dwell 8).wellFormed = false ∧ (Instr.dwell 7).wellFormed = true := by decide
theorem smoke_rowplane_dr : (Instr.rowplane 8 0).wellFormed = false ∧ (Instr.rowplane 7 7).wellFormed = true := by decide
theorem smoke_rowplane_pl : (Instr.rowplane 0 8).wellFormed = false := by decide

/-! ### Decoding: every operation's record written out from 30_encoding.md R95, R96, R100 -/

theorem decode_mapopen : decodeTableWord 72 0x010000000100000000 = some (.mapopen .timer) := by decide
theorem decode_mapclose : decodeTableWord 72 0x020000000000000000 = some (.mapclose .gpio) := by decide
theorem decode_init : decodeTableWord 72 0x03FFFFFFFE00000000 = some (.init 0xFFFFFFFE) := by decide
theorem decode_tinit : decodeTableWord 72 0x040000000000000000 = some .tinit := by decide
theorem decode_teardown : decodeTableWord 72 0x050000000000000000 = some .teardown := by decide
theorem decode_run : decodeTableWord 72 0x060000000100000000 = some (.run true) ∧
    decodeTableWord 72 0x060000000000000000 = some (.run false) := by decide
theorem decode_cfgout1 : decodeTableWord 72 0x100000001B00000000 = some (.cfgout1 ⟨27⟩) := by decide
theorem decode_cfgouts : decodeTableWord 72 0x110022001000000000 = some (.cfgouts 0x00220010) := by decide
theorem decode_set : decodeTableWord 72 0x120020000000000000 = some (.set 0x00200000) := by decide
theorem decode_clr : decodeTableWord 72 0x130020000000000000 = some (.clr 0x00200000) := by decide
theorem decode_wrm : decodeTableWord 72 0x140001004000833060 = some (.wrm 0x00010040 0x00833060) := by decide
theorem decode_rowaddr : decodeTableWord 72 0x150000000500000000 = some (.rowaddr 5) := by decide
theorem decode_rdlev : decodeTableWord 72 0x160000000000000000 = some .rdlev := by decide
theorem decode_tread : decodeTableWord 72 0x200000000000000000 = some .tread := by decide
theorem decode_sleepns : decodeTableWord 72 0x210001F40000000000 = some (.sleepns 128000) := by decide
theorem decode_advance : decodeTableWord 72 0x300000000000000000 = some .advance := by decide
theorem decode_planebits : decodeTableWord 72 0x3100AA55F0070F0180 =
    some (.planebits ⟨0xAA, 0x55, 0xF0⟩ 7 ⟨0x0F, 0x01, 0x80⟩) := by decide
theorem decode_clrcc : decodeTableWord 72 0x400000000000000000 = some .clrcc := by decide
theorem decode_shiftcol : decodeTableWord 72 0x41000000060000031F = some (.shiftcol 6 3 31) := by decide
theorem decode_addr : decodeTableWord 72 0x420000000500000000 = some (.addr 5) := by decide
theorem decode_latch : decodeTableWord 72 0x430000000000000000 = some .latch := by decide
theorem decode_dwell : decodeTableWord 72 0x440000000200000000 = some (.dwell 2) := by decide
theorem decode_rowplane : decodeTableWord 72 0x450000000200000001 = some (.rowplane 2 1) := by decide
theorem decode_sweep : decodeTableWord 72 0x460000000000000000 = some .sweep := by decide
theorem decode_scrollchk : decodeTableWord 72 0x470000000000000000 = some .scrollchk := by decide

/-- Illegal commands of 95_test_vectors.md 3.6, 3.5 and 3.3. -/
theorem decode_illegal : [0x000000000000000000, 0x070000000000000000, 0xFF0000000000000000, 0x120000001000000001,
    0x410000000000010000, 0x040000000100000000, 0x060000000200000000, 0x010000000200000000,
    0x310100000000000000].map (decodeTableWord 72) = List.replicate 9 none := by decide

/-! ### The system family (95_test_vectors.md 3.5, P1) -/

theorem test_mapopen : after (.mapopen .gpio) State.reset (fun t => (t.gmap, t.tmap, t.mode, t.trace)) =
    some (.mapped, .unmapped, .reset, []) := by decide
theorem test_mapopen_unprivileged : after (.mapopen .gpio) unprivileged (fun t => (t.err, t.mode, t.gmap, t.trace)) =
    some (.privilegeError, .faulted, .unmapped, []) := by decide
theorem test_mapclose : after (.mapclose .timer) ready (fun t => (t.gmap, t.tmap, t.mode)) =
    some (.mapped, .released, .ready) := by decide
theorem test_init : after (.init 1) State.reset (fun t => (t.fsel.toList, t.outBits, t.res, t.rowMask)) =
    some ([0x00049000#32, 0x00240240#32, 0x00240248#32], 0x0CE33070#32, 0x0CE33070#32, 0x0C400000#32) := by decide
theorem test_init_invalid : after (.init 0) invalidPin (fun t => (t.res, t.outBits, t.err, t.gmap, t.mode)) =
    some (0x0CE33060#32, 0x0CE33060#32, .configurationInvariantViolation, .released, .faulted) := by decide
theorem test_tinit : after .tinit { ready with mode := .reset, tmap := .unmapped } (fun t => (t.tmap, t.mode)) =
    some (.mapped, .ready) := by decide
theorem test_tinit_fails : after .tinit { unmappable with gmap := .mapped } (fun t => (t.err, t.mode, t.gmap, t.tmap)) =
    some (.mapError, .faulted, .released, .unmapped) := by decide
theorem test_teardown : after .teardown stopped (fun t => (t.gmap, t.tmap, t.mode, t.trace)) =
    some (.released, .released, .stopped, []) := by decide

/-! ### The GPIO family (95_test_vectors.md 3.1) -/

theorem test_cfgout1 : after (.cfgout1 ⟨4⟩) { mappedOnly with fsel := #v[0xFFFFFFFF#32, 0, 0] }
    (fun t => (t.fsel.toList, events t, t.outBits)) =
    some ([0xFFFF9FFF#32, 0, 0], [.read .gpio 0 0xFFFFFFFF#32, .write .gpio 0 0xFFFF9FFF#32], 0) := by decide
theorem test_cfgout1_high : refusalOf (exec (.cfgout1 ⟨28⟩) ready) = some .pinIndexOutOfRange := by decide
theorem test_cfgouts : after (.cfgouts 0x00220030) { mappedOnly with outBits := 0x00220010#32 }
    (fun t => (t.res, t.outBits, t.trace.length)) = some (0x00000020#32, 0x00220030#32, 2) := by decide
theorem test_cfgouts_invalid : after (.cfgouts 0xF0000000) mappedOnly (fun t => (t.res, t.outBits, t.trace)) =
    some (0, 0, []) := by decide
theorem test_set : after (.set 0x00020000) { ready with slowdown := 2, outlatch := 0x00000010#32 }
    (fun t => (t.outlatch, events t)) = some (0x00020010#32, List.replicate 3 (w7 0x00020000#32)) := by decide
theorem test_clr : after (.clr 0x00000001) { ready with outlatch := 0x00020010#32 } (fun t => (t.outlatch, events t)) =
    some (0x00020010#32, [w10 0x00000001#32]) := by decide
theorem test_wrm : after (.wrm 0xDEADBEEF 0x0000FFFF) { ready with outlatch := 0x00000010#32 }
    (fun t => (t.outlatch, events t)) = some (0x0000BEEF#32, [w10 0x00004110#32, w7 0x0000BEEF#32]) := by decide
theorem test_rowaddr : after (.rowaddr 5) ready (·.res) = some 0x08400000#32 ∧
    after (.rowaddr 32) ready (·.res) = some 0 := by decide
theorem test_rowaddr_stopped : after (.rowaddr 3) stopped (·.res) = some 0x04400000#32 := by decide
theorem test_cfgouts_order : after (.cfgouts 0x00220010) mappedOnly (fun t => (t.res, events t)) =
    some (0x00220010#32, [.read .gpio 0 0#32, .write .gpio 0 0x00001000#32, .read .gpio 1 0#32,
      .write .gpio 1 0x00200000#32, .read .gpio 2 0#32, .write .gpio 2 0x00000008#32]) := by decide
theorem test_rdlev : after .rdlev { ready with outlatch := 0x08410040#32, env := ⟨[], [], [0xFFFFFFFF#32]⟩ }
    (fun t => (t.res &&& 0x0CE33070#32, t.outlatch)) = some (0x08410040#32, 0x08410040#32) := by decide

/-! ### The timer family (95_test_vectors.md 3.2) -/

theorem test_tread : after .tread (scripted { ready with cnt := 0xFFFFFFFD#32 } 1 []) (fun t => (t.res, events t)) =
    some (0xFFFFFFFE#32, [readT 0xFFFFFFFE#32]) := by decide
theorem test_sleepns_wrap : after (.sleepns 3000) (scripted { ready with cnt := 0xFFFFFFFD#32 } 20 [])
    (fun t => (t.cnt, t.trace.length)) = some (2#32, 5) := by decide
theorem test_sleepns_long : after (.sleepns 128000) (scripted { ready with cnt := 99#32 } 20 [126])
    (fun t => (events t, t.cnt)) =
    some ([readT 100#32, .coarseSleep 68000, readT 227#32, readT 228#32, readT 229#32], 229#32) := by decide
theorem test_sleepns_met : after (.sleepns 128000) (scripted { ready with cnt := 99#32 } 20 [127])
    (fun t => (events t, t.cnt)) =
    some ([readT 100#32, .coarseSleep 68000, readT 228#32], 228#32) := by decide
theorem test_elapsed : elapsed 0xFFFFF000#32 0x00001710#32 = 9999 ∧ elapsed 0xFFFFFFFF#32 0#32 = 0 := by decide

/-! ### The frame family (95_test_vectors.md 3.3) -/

theorem test_advance : after .advance
    { ready with src := some { image 34 16 Pixel.black with rows := List.replicate 16 (List.replicate 33 Pixel.black ++ [⟨9, 8, 7⟩]) },
                 cursor := 33 }
    (fun t => (t.cursor, t.frame[3][0], t.frame[3][1])) = some (0, ⟨9, 8, 7⟩, Pixel.black) := by decide
theorem test_advance_narrow : refusalOf (exec .advance { ready with src := some (image 31 16 Pixel.black) }) =
    some .noUsableSource := by decide
theorem test_advance_without_source : refusalOf (exec .advance ready) = some .wrongState := by decide
theorem test_planebits : after (.planebits ⟨0xAA, 0x55, 0xF0⟩ 4 ⟨0x0F, 0x01, 0x80⟩) ready (·.res) = some 0x00002040#32 ∧
    after (.planebits ⟨0x80, 0x01, 0x00⟩ 7 ⟨0x00, 0x81, 0xFF⟩) ready (·.res) = some 0x00810020#32 := by decide
theorem test_planebits_high : after (.planebits ⟨0x80, 0x01, 0x00⟩ 8 ⟨0x00, 0x81, 0xFF⟩) ready (·.res) = some 0 := by decide

/-! ### The sequencer family (95_test_vectors.md 3.4) -/

theorem test_clrcc : after .clrcc { ready with outlatch := 0xFFFFFFFF#32 } (fun t => (t.outlatch, events t)) =
    some (0xFF7CCF9F#32, [w10 0x00833060#32]) := by decide
/-- FRAME[0][0] red full, FRAME[8][0] blue 1. -/
def twoPixels : FrameGrid :=
  (FrameGrid.black.set 0 (FrameGrid.black[0].set 0 ⟨0xFF, 0, 0⟩)).set 8 (FrameGrid.black[8].set 0 ⟨0, 0, 1⟩)
theorem test_shiftcol : after (.shiftcol 0 0 0) { ready with frame := twoPixels, outlatch := 0xFFFFFFFF#32 }
    (fun t => (t.outlatch, events t)) = some (0xFFFECFBF#32,
      [w10 0x00833060#32, w10 0x00033040#32, w7 0x00800020#32, w7 0x00020000#32]) := by decide
theorem test_shiftcol_high : refusalOf (exec (.shiftcol 0 0 32) ready) = some .indexOutOfRange := by decide
theorem test_addr : after (.addr 5) { ready with outlatch := 0x0C400010#32 } (fun t => (t.outlatch, events t)) =
    some (0x08400010#32, [w10 0x04000000#32, w7 0x08400000#32]) := by decide
theorem test_latch : after .latch { ready with slowdown := 1 } (fun t => (t.outlatch, events t)) =
    some (0, [w7 0x00200000#32, w7 0x00200000#32, w10 0x00200000#32, w10 0x00200000#32]) := by decide
theorem test_dwell : after (.dwell 2) (scripted ready 20 []) (fun t => (t.outlatch, t.trace.length)) =
    some (0x00000010#32, 7) := by decide
theorem test_dwell_high : refusalOf (exec (.dwell 8) ready) = some .indexOutOfRange := by decide
theorem test_rowplane_high : refusalOf (exec (.rowplane 7 8) ready) = some .indexOutOfRange := by decide
theorem test_scrollchk : after .scrollchk
    (scripted { ready with scrollEn := true, lastScroll := 5000#32, cnt := 14999#32, src := some (image 32 16 Pixel.black) } 1 [])
    (fun t => (t.lastScroll, t.cursor)) = some (15000#32, 1) := by decide
theorem test_scrollchk_wrap : after .scrollchk
    (scripted { ready with scrollEn := true, lastScroll := 0xFFFFF000#32, cnt := 0x170F#32 } 1 [])
    (fun t => (t.lastScroll, events t)) = some (0xFFFFF000#32, [readT 0x1710#32]) := by decide
theorem test_run : after (.run true) (scripted { ready with cnt := 0xFFFF#32 } 1 [])
    (fun t => (t.lastScroll, t.mode, t.scrollEn, events t)) = some (0x10000#32, .running, true, [readT 0x10000#32]) := by decide

/-! ### Access by access (92_eei_decisions.md D36; the writes are those of 95_test_vectors.md 3.4) -/

/-- OE is low after the first access of a DWELL, LAT is high after the first access of a LATCH. -/
theorem test_dwell_lights : (steps 1 ((scripted { ready with outlatch := 0x10#32 } 20 []).withRecord
    0x440000000200000000#72)).map
    (fun t => (t.outlatch, events t)) = some (0, [w10 0x10#32]) := by decide
theorem test_latch_pulse : (steps 1 (ready.withRecord 0x430000000000000000#72)).map (fun t => (t.outlatch, events t)) =
    some (0x00200000#32, [w7 0x00200000#32]) := by decide
/-- The host sets STOP_REQ between the two writes of a micro-operation (60_exceptions.md R250). -/
theorem test_stop_request_between : (steps 1 { sweeping { Pos.start with step := .latch } with stopAfter := some 0 }).map
    (fun t => (t.stopReq, t.outlatch, t.pos.step)) = some (true, 0x0C600010#32, .latch) := by decide
/-- Stop entry with SLOWDOWN 2: three writes, and Stopped after the third (43_sequencer.md R190). -/
theorem test_stop_entry : [1, 2, 3].map (fun n => (steps n { running with stopReq := true, slowdown := 2 }).map
    fun t => (t.mode, t.trace)) = [1, 2, 3].map fun n =>
      some (if n = 3 then .stopped else .running, List.replicate n (w7 0x10#32)) := by decide
/-- OE low, double-row 2 latched: row 10 shows the lower line of a column, row 3 is dark (43_sequencer.md R203). -/
theorem test_lit :
    (let s := { ready with panel := { Panel.blank with
       latchedAddr := 2#5, latched := Panel.blank.latched.set 26 { SixLines.dark with b2 := true } } }
     [s.lit 10 26, s.lit 2 26, s.lit 3 26, { s with outlatch := 0x10#32 }.lit 10 26] =
       [(false, false, true), (false, false, false), (false, false, false), (false, false, false)]) := by decide

/-- The frame of program P3 (95_test_vectors.md section 4). -/
def framesP3 : FrameGrid := Vector.ofFn fun r => Vector.ofFn fun c =>
  if r.val = 2 ∧ c.val = 0 then ⟨2, 0, 0⟩ else if r.val = 2 ∧ c.val = 31 then ⟨0xFF, 0xFF, 0xFF⟩
  else if r.val = 10 ∧ c.val = 5 then ⟨0, 0xFD, 2⟩ else if r.val = 10 ∧ c.val = 31 then ⟨2, 0, 3⟩ else Pixel.black

/-- P3's row-plane: the end state, and the panel at step 6. -/
theorem test_rowplane : after (.rowplane 2 1)
    { ready with
      outlatch := 0x0C400010#32, cnt := 999#32, frame := framesP3
      env := ⟨List.replicate 135 0 ++ [1, 1, 1, 0], [], []⟩ }
    (fun t => (t.outlatch, t.cnt, t.trace.length, t.panel.latchedAddr, t.panel.latched[26])) =
    some (0x04000010#32, 1002#32, 139, 2#5, { SixLines.dark with b2 := true }) := by decide +kernel

/-! ### Witnesses: states and operands that meet the hypotheses of the statements, all together -/

/-- A state reached by a step exists. -/
def Answers (s : State) : Prop := ∃ t, step s = .next t

theorem witness_legal_record : decode 0x450000000700000007#72 = .ok (.rowplane 7 7) := rfl
theorem witness_step : (ready.withRecord 0x430000000000000000#72).phase = .idle ∧
    (ready.withRecord 0x430000000000000000#72).mode ≠ .running ∧
    (ready.withRecord 0x430000000000000000#72).inputs = .command 0x430000000000000000#72 :: [] ∧
    decode 0x430000000000000000#72 = .ok .latch ∧ (nextOf (exec .latch ready)).isSome = true ∧
    refusalOf (exec .latch stopped) = some .wrongState ∧ (stopped.withRecord 0x430000000000000000#72).mode ≠ .running :=
  ⟨rfl, by decide, rfl, rfl, by decide, by decide, by decide⟩
theorem witness_illegal_record : (ready.withRecord 0#72).phase = .idle ∧ (ready.withRecord 0#72).mode ≠ .running ∧
    (ready.withRecord 0#72).inputs = .command 0#72 :: [] ∧ ∀ i, decode 0#72 ≠ .ok i :=
  ⟨rfl, by decide, rfl, fun _ h => by cases h⟩
theorem witness_operand_out_of_range : [Instr.cfgout1 ⟨28⟩, .shiftcol 8 0 0, .shiftcol 0 8 0, .shiftcol 0 0 32, .dwell 8,
    .rowplane 8 0, .rowplane 0 8].all (fun i => acceptedIn i ready && !i.wellFormed) = true := by decide

/-- A window that is not Mapped in Ready: GMAP released; and GMAP mapped with TMAP released. -/
theorem witness_window_closed : [Instr.clrcc, .shiftcol 7 7 31, .addr 8, .latch, .dwell 7, .rowplane 7 7, .sweep, .scrollchk,
    .run true].all (fun i => isSequencer i && i.wellFormed) = true ∧
    ({ ready with gmap := .released } : State).gmap ≠ .mapped ∧ ready.mode = .ready ∧ ready.gmap = .mapped ∧
    ({ ready with tmap := .released } : State).tmap ≠ .mapped ∧
    [Instr.dwell 7, .rowplane 7 7, .sweep, .scrollchk, .run false].all (fun i => usesTimer i && i.wellFormed) = true := by
  decide

/-- The reset state and a running state meet the invariant (10_state.md R48). -/
theorem witness_inv_reset : State.reset.Inv where
  inBits_zero := rfl
  col_zero := fun _ => rfl
  err_iff_faulted := by decide
  faulted_unmapped := by decide
  running_mapped := by decide
  outBits_valid := by decide
  outBits_output := by decide
  unmapped_untouched := fun _ => rfl
  constructed_init := by decide
  after_init := fun h => absurd h (by decide)
  cursor_range := fun _ h => by cases h
  phase_fits := rfl
  write_back_last := fun _ _ h => by cases h
  write_back_fresh := fun _ _ h => by cases h
  configured_valid := by decide
  configured_mapped := fun h => absurd rfl h
  configured_output := fun k h => absurd h (by simp [Phase.configuredPins, State.reset, State.start])
  init_rowMask := fun h => absurd h (by decide)
  micro_accesses := fun h => absurd h (by decide)
  stop_accesses := fun _ _ h => by cases h

theorem witness_inv_running : running.Inv where
  inBits_zero := rfl
  col_zero := fun _ => rfl
  err_iff_faulted := by decide
  faulted_unmapped := by decide
  running_mapped := by decide
  outBits_valid := by decide
  outBits_output := by decide
  unmapped_untouched := by decide
  constructed_init := by decide
  after_init := fun _ => ⟨by decide, by decide, by decide⟩
  cursor_range := fun _ h => by cases h
  phase_fits := rfl
  write_back_last := fun _ _ h => by cases h
  write_back_fresh := fun _ _ h => by cases h
  configured_valid := by decide
  configured_mapped := fun h => absurd rfl h
  configured_output := fun k h => absurd h (by simp [Phase.configuredPins, running])
  init_rowMask := fun h => absurd h (by decide)
  micro_accesses := fun h => absurd h (by decide)
  stop_accesses := fun _ _ h => by cases h

/-- A one-column image is supplied at a start state. -/
theorem witness_start_with_source : ∀ img, some (image 1 1 Pixel.black) = some img → 0 < img.width :=
  fun _ h => by cases h; decide

/-- Steps that answer: from Reset, in the running loop at each place, at the stop entry, in Stopped and in Faulted. -/
theorem witness_step_reset : Answers (State.reset.withRecord 0x010000000000000000#72) := ⟨_, rfl⟩
theorem witness_step_to_ready : (nextOf (step (State.reset.withRecord 0x030000000000000000#72))).map (·.gmap) = some .mapped ∧
    (nextOf (step ({ ready with mode := .reset, tmap := .unmapped }.withRecord 0x040000000000000000#72))).map (·.mode) =
      some .ready := by decide
theorem witness_step_to_running : (nextOf (step (ready.withRecord 0x060000000000000000#72))).map (·.mode) =
    some .running := by decide
theorem witness_step_to_stopped : (nextOf (step { running with stopReq := true })).map (·.mode) = some .stopped := by decide
theorem witness_step_to_faulted : (nextOf (step (unprivileged.withRecord 0x040000000000000000#72))).map (·.mode) =
    some .faulted := by decide
theorem witness_step_running : running.mode = .running ∧ Answers running := ⟨rfl, _, rfl⟩
theorem witness_step_stopped : stopped.mode = .stopped ∧ Answers (stopped.withRecord 0x150000000300000000#72) := ⟨rfl, _, rfl⟩
theorem witness_step_faulted : faulted.mode = .faulted ∧ Answers faulted := ⟨rfl, _, rfl⟩
theorem witness_exec_faults : (nextOf (exec .tinit unprivileged)).map (·.mode) = some .faulted := by decide
theorem witness_host_stop : ({ running with stopAfter := some 0 } : State).stopReq = false ∧
    (nextOf (step { running with stopAfter := some 0 })).map (·.stopReq) = some true := by decide
theorem witness_stop_request_twice : ({ running with stopReq := true } : State).stopReq = true := rfl

/-- A scroll load, and a step inside a sweep. -/
theorem witness_scroll_load : (nextOf (step (({ ready with src := some (image 32 16 ⟨1, 2, 3⟩) } : State).withRecord
    0x300000000000000000#72))).map (fun t => (t.cursor, t.frame[15][31])) = some (1, ⟨1, 2, 3⟩) := by decide
theorem witness_step_in_sweep : (sweeping Pos.start).mode = .running ∧ (sweeping Pos.start).phase ≠ .poll ∧
    Answers (sweeping Pos.start) := ⟨rfl, by decide, _, rfl⟩
/-- In the stop entry, its last write. -/
def stopping : State := { running with stopReq := true, phase := .busy .stop (.set 0x10#32 0) [] }
theorem witness_step_in_stop_entry : stopping.mode = .running ∧ stopping.phase ≠ .poll ∧
    (nextOf (step stopping)).map (·.mode) = some .stopped := by decide
/-- A source image handed in: taken with CURSOR 33 and 34 columns, refused with 33 columns; and in the scroll step. -/
theorem witness_source_input : [34, 33].map (fun w =>
    (({ ready with cursor := 33, inputs := [.source (image w 1 Pixel.black)] } : State).phase,
      (nextOf (step { ready with cursor := 33, inputs := [.source (image w 1 Pixel.black)] })).isSome)) =
    [(.idle, true), (.idle, false)] := by decide
theorem witness_running_load : (nextOf (step { running with phase := .load 0, src := some (image 32 16 ⟨1, 2, 3⟩) })).map
    (fun t => (t.cursor, t.phase)) = some (1, .poll) := by decide

/-- The GPIO and timer operations are accepted in Reset with the window mapped and in Ready, CFGOUT1 for the first and the
last pin. -/
theorem witness_pins_accepted : [Instr.set 0, .clr 0xFFFFFFFF, .wrm 1 0x80000000, .rdlev, .cfgouts 0xFFFFFFFF, .tread,
    .sleepns 0, .rowaddr 7, .planebits Pixel.black 7 Pixel.black, .cfgout1 ⟨0⟩, .cfgout1 ⟨27⟩].all
      (fun i => acceptedIn i ready && acceptedIn i mappedOnly) = true := by decide
theorem witness_pin_operands : (⟨0⟩ : PinOperand).raw.toNat = (0 : PinIndex).val ∧
    (⟨27⟩ : PinOperand).raw.toNat = (27 : PinIndex).val := by decide
theorem witness_output_pin : isOutput ready.fsel 27 = true ∧ isOutput ready.fsel 0 = false := by decide
theorem witness_pins_differ : PinTable.exPins.disjoint = true := by decide

/-- A request at the threshold, and one above it. -/
theorem witness_short_sleep : acceptedIn (.sleepns 65000) ready = true ∧
    (65000#32).toNat ≤ ready.platform.sleepThresholdNs := by decide
theorem witness_long_sleep : acceptedIn (.sleepns 65001) ready = true ∧
    ready.platform.sleepThresholdNs < (65001#32).toNat := by decide
theorem witness_elapsed : 5#32 ≤ 5#32 ∧ 0#32 < 0xFFFFFFFF#32 ∧ 4294967295 < 2 ^ 32 := by decide

/-- The smallest usable image at CURSOR 0, and one that is not usable. -/
def withImage (w : Nat) : State := { ready with src := some (image w 16 Pixel.black) }
theorem witness_source : acceptedIn .advance (withImage 32) = true ∧ (withImage 32).src = some (image 32 16 Pixel.black) ∧
    (image 32 16 Pixel.black).usable = true ∧ (withImage 32).cursor = 0 := by decide
theorem witness_unusable_source : acceptedIn .advance (withImage 31) = true ∧ (withImage 31).hasSource = false := by decide

/-- An all-black image, as in the document's scenario (95_test_vectors.md V6). -/
theorem witness_black_image : ∀ r c, (image 32 16 Pixel.black).pixel r c = Pixel.black := by
  intro r c
  have h : ∀ (n k : Nat) {α : Type} (x d : α), (List.replicate n x).getD k d = if k < n then x else d := by
    intro n k α x d
    by_cases hk : k < n <;> simp [List.getD_eq_getElem?_getD, hk]
  unfold SourceImage.pixel image
  rw [h]
  split
  · rw [h]; split <;> rfl
  · rfl

/-- The sequencer operations with their operands at the ends of their ranges. -/
theorem witness_sequencer : ready.mode = .ready ∧ ready.gmap = .mapped ∧ ready.tmap = .mapped ∧
    ready.scrollEn = false ∧ stopped.mode ≠ .ready := by decide
theorem witness_operands : (7#32).toNat = (7 : Fin 8).val ∧ (7#8).toNat = (7 : Fin 8).val ∧
    (31#8).toNat = (31 : Fin 32).val ∧ (0#32).toNat = (0 : Fin 8).val ∧ (7#32).toNat < 8 := by decide
theorem witness_scrolling : ({ ready with scrollEn := true, src := some (image 32 16 Pixel.black) } : State).scrollEn = true ∧
    ({ ready with scrollEn := true, src := some (image 32 16 Pixel.black) } : State).hasSource = true := by decide

/-- An executed ROWPLANE and an executed SWEEP. -/
theorem witness_rowplane : ∃ t, exec (.rowplane 7 7) ready = .next t := by
  obtain ⟨t, h, -⟩ := rowPlane_answers 7 7 (s := ready) rfl rfl
  refine ⟨t, ?_⟩
  rw [execRowplane_eq, if_pos (by decide), octalOperand_eq_ok.mpr (show BitVec.toNat (7 : Word) = (7 : Fin 8).val by decide)]
  simp only [ok_bind, h, complete_ok]
theorem witness_sweep : ∃ t, exec .sweep ready = .next t := by
  obtain ⟨t, h, -⟩ := sweepPanel_spec (s := ready) rfl rfl
  exact ⟨t, by rw [execSweep_eq, if_pos (by decide), h]; rfl⟩

/-- The sweep boundary with and without a stop request, and a whole turn of the loop. -/
theorem witness_stop_entry : ({ running with stopReq := true } : State).mode = .running ∧
    ({ running with stopReq := true } : State).phase = .poll ∧ ({ running with stopReq := true } : State).stopReq = true ∧
    ({ running with stopReq := true } : State).stopAfter = none ∧ ({ running with stopReq := true } : State).gmap = .mapped := by
  decide
theorem witness_loop : running.mode = .running ∧ running.phase = .poll ∧ running.stopReq = false ∧ running.stopAfter = none ∧
    ∃ t u, sweepPanel running = .ok t ∧ scrollCheck t = .ok u := by
  obtain ⟨t, h, a, -⟩ := sweepPanel_spec (s := running) rfl rfl
  exact ⟨rfl, rfl, rfl, rfl, t, t, h, scrollCheck_off a.scrollEn⟩
theorem witness_panel : running.platform.pins.disjoint = true ∧
    running.rowMask = rowMaskFor running.platform.pins 8 ∧ running.gmap = .mapped ∧ running.tmap = .mapped := by decide

/-- Inside a sweep: at a micro-operation other than the dwell, blanked; and at the dwell's last access. -/
def shifting : State := sweeping Pos.start
def dwelt : State :=
  { sweeping { Pos.start with step := .dwell } with
    phase := .busy .sweep (.set 0x10#32 0) [], outlatch := 0x0C400000#32 }
theorem witness_inv_shifting : shifting.Inv where
  inBits_zero := rfl
  col_zero := fun _ => rfl
  err_iff_faulted := by decide
  faulted_unmapped := by decide
  running_mapped := by decide
  outBits_valid := by decide
  outBits_output := by decide
  unmapped_untouched := by decide
  constructed_init := by decide
  after_init := fun _ => ⟨by decide, by decide, by decide⟩
  cursor_range := fun _ h => by cases h
  phase_fits := rfl
  write_back_last := fun _ _ h => by cases h
  write_back_fresh := fun _ _ h => by cases h
  configured_valid := by decide
  configured_mapped := fun h => absurd rfl h
  configured_output := fun k h => absurd h (by simp [show shifting.phase.configuredPins = 0 from rfl])
  init_rowMask := fun h => absurd h (by decide)
  micro_accesses := fun _ => ⟨fun _ left h => ⟨left, h⟩, fun h => absurd h (by decide)⟩
  stop_accesses := fun _ _ h => by cases h
theorem witness_inv_dwelt : dwelt.Inv where
  inBits_zero := rfl
  col_zero := fun _ => rfl
  err_iff_faulted := by decide
  faulted_unmapped := by decide
  running_mapped := by decide
  outBits_valid := by decide
  outBits_output := by decide
  unmapped_untouched := by decide
  constructed_init := by decide
  after_init := fun _ => ⟨by decide, by decide, by decide⟩
  cursor_range := fun _ h => by cases h
  phase_fits := rfl
  write_back_last := fun _ _ h => by cases h
  write_back_fresh := fun _ _ h => by cases h
  configured_valid := by decide
  configured_mapped := fun h => absurd rfl h
  configured_output := fun k h => absurd h (by simp [show dwelt.phase.configuredPins = 0 from rfl])
  init_rowMask := fun h => absurd h (by decide)
  micro_accesses := fun _ => ⟨fun mask left h => absurd h (by simp [show dwelt.phase.accesses = [.set 0x10#32 0] from rfl]),
    fun _ => ⟨0, rfl⟩⟩
  stop_accesses := fun _ _ h => by cases h
theorem witness_blanked_sweep : shifting.mode = .running ∧ shifting.inDwell = false ∧
    shifting.outlatch.getLsbD shifting.platform.pins.oe.val = true ∧ Answers shifting := ⟨by decide, by decide, by decide, _, rfl⟩
theorem witness_dwell_ends : dwelt.mode = .running ∧ dwelt.inDwell = true ∧
    (nextOf (step dwelt)).map (fun t => (t.inDwell, t.outlatch)) = some (false, 0x0C400010#32) := by decide
/-- The system operations: privilege, a failing mapping, Reset with each handle unmapped, release in each mode. -/
theorem witness_unprivileged : acceptedIn (.mapopen .timer) unprivileged = true ∧ acceptedIn (.init 0) unprivileged = true ∧
    acceptedIn .tinit unprivileged = true ∧ unprivileged.platform.privileged = false := by decide
theorem witness_map_fails : acceptedIn (.mapopen .gpio) unmappable = true ∧ acceptedIn (.init 0) unmappable = true ∧
    acceptedIn .tinit unmappable = true ∧
    unmappable.platform.privileged = true ∧ unmappable.platform.mapOkGpio = false ∧
    unmappable.platform.mapOkTimer = false := by decide
theorem witness_construction : State.reset.mode = .reset ∧ State.reset.gmap = .unmapped ∧ State.reset.tmap = .unmapped ∧
    State.reset.platform.privileged = true ∧ State.reset.platform.mapOkGpio = true ∧
    State.reset.platform.mapOkTimer = true ∧
    initWant PinTable.exPins (pinBit 22 ||| pinBit 26 ||| pinBit 27) &&& ~~~State.reset.platform.validPins = 0 := by decide
theorem witness_invalid_pin : invalidPin.mode = .reset ∧ invalidPin.gmap = .unmapped ∧
    initWant PinTable.exPins (pinBit 22 ||| pinBit 26 ||| pinBit 27) &&& ~~~invalidPin.platform.validPins ≠ 0 := by decide
theorem witness_inv_invalid_pin : invalidPin.Inv where
  inBits_zero := rfl
  col_zero := fun _ => rfl
  err_iff_faulted := by decide
  faulted_unmapped := by decide
  running_mapped := by decide
  outBits_valid := by decide
  outBits_output := by decide
  unmapped_untouched := fun _ => rfl
  constructed_init := by decide
  after_init := fun h => absurd h (by decide)
  cursor_range := fun _ h => by cases h
  phase_fits := rfl
  write_back_last := fun _ _ h => by cases h
  write_back_fresh := fun _ _ h => by cases h
  configured_valid := by decide
  configured_mapped := fun h => absurd rfl h
  configured_output := fun k h => absurd h (by simp [Phase.configuredPins, invalidPin, State.reset, State.start])
  init_rowMask := fun h => absurd h (by decide)
  micro_accesses := fun h => absurd h (by decide)
  stop_accesses := fun _ _ h => by cases h
theorem witness_release : mappedOnly.mode = .reset ∧ ready.mode = .ready ∧ stopped.mode = .stopped ∧
    mappedOnly.gmap = .mapped ∧ ready.tmap = .mapped := by decide

end Sys2Proof.Tests
end

section
/-! SUPPORT. The statements about addresses, the timing table, the long sleep and the scroll step. -/

namespace Sys2Proof.Machine

/-! ### Row addresses (40_gpio.md R125, R126) -/

/-- The row mask of this geometry: eight double-rows need three address pins (R125). -/
theorem rowMaskFor_eight (p : PinTable) : rowMaskFor p 8 = pinBit p.a ||| pinBit p.b ||| pinBit p.c := rfl

/-- Each of the three address pins shows its own bit of the index (R126). -/
theorem rowAddressBits_pins {p : PinTable} (h : p.disjoint = true) (dr : Nat) :
    (rowAddressBits p (rowMaskFor p 8) dr).getLsbD p.a.val = dr.testBit 0 ∧
      (rowAddressBits p (rowMaskFor p 8) dr).getLsbD p.b.val = dr.testBit 1 ∧
      (rowAddressBits p (rowMaskFor p 8) dr).getLsbD p.c.val = dr.testBit 2 := by
  obtain ⟨-, -, -, -, -, ab, ac, ad, ae, bc, bd, be, cd, ce, -⟩ := lat_ne h
  simp [rowAddressBits, rowMaskFor_eight, maskIf_bit, pinBit_bit, ab, ac, ab.symm, ac.symm, ad.symm, ae.symm, bc,
    bc.symm, bd.symm, be.symm, cd.symm, ce.symm]

/-- A double-row index is its three bits. -/
theorem octal_eq_of_testBits : ∀ d e : Fin 8, d.val.testBit 0 = e.val.testBit 0 → d.val.testBit 1 = e.val.testBit 1 →
    d.val.testBit 2 = e.val.testBit 2 → d = e := by
  decide

/-- Settles O28: the three address pins give back the three bits of the double-row. -/
theorem doubleRowsHaveDistinctAddresses : Obligations.DoubleRowsHaveDistinctAddresses := by
  intro p hp
  refine ⟨rowMaskFor_eight p, fun d e hde => ?_, ?_⟩
  · obtain ⟨da, db, dc⟩ := rowAddressBits_pins hp d.val
    obtain ⟨ea, eb, ec⟩ := rowAddressBits_pins hp e.val
    rw [hde] at da db dc
    exact octal_eq_of_testBits d e (da.symm.trans ea) (db.symm.trans eb) (dc.symm.trans ec)
  · have bits : Nat.testBit 7 0 = true ∧ Nat.testBit 7 1 = true ∧ Nat.testBit 7 2 = true ∧
        Nat.testBit 7 3 = false ∧ Nat.testBit 7 4 = false := by decide
    simp [rowAddressBits, rowMaskFor_eight, maskIf, bits]

/-! ### The timing table (10_state.md R26, 42_frame.md R164) -/

/-- TIMING[k] is 1000 ns times 2^k (R26). -/
theorem timingTable_toNat (k : Fin 8) : (timingTable[k.val]).toNat = 1000 * 2 ^ k.val := by
  revert k; decide

/-- A weight per set bit adds up to the weighted low bits of the number. -/
theorem sum_weighted_bits (c v w : Nat) :
    ((List.range w).map fun k => if v.testBit k then c * 2 ^ k else 0).sum = c * (v % 2 ^ w) := by
  induction w with
  | zero => simp [Nat.mod_one]
  | succ w ih =>
    rw [List.range_succ, List.map_append, List.sum_append, ih, Nat.mod_pow_succ, List.map_singleton, List.sum_singleton,
      Nat.testBit_eq_decide_div_mod_eq]
    rcases Nat.mod_two_eq_zero_or_one (v / 2 ^ w) with h | h <;> simp [h, Nat.mul_add]

/-- Settles O38: the table's weights are 1000 * 2^k, so the bits of v add up to 1000 * v. -/
theorem modulatedDwellIsLinear : Obligations.ModulatedDwellIsLinear := by
  refine ⟨fun v => ?_, timingTable_toNat 0, fun k => ?_⟩
  · have hw : (fun k : Fin 8 => if v.getLsbD k.val then (timingTable[k]).toNat else 0) =
        (fun k => if v.toNat.testBit k then 1000 * 2 ^ k else 0) ∘ Fin.val := by
      funext k; exact congrArg (if v.getLsbD k.val then · else 0) (timingTable_toNat k)
    have hplanes : (List.finRange 8).map Fin.val = List.range 8 := by decide
    rw [hw, ← List.map_map, hplanes, sum_weighted_bits, Nat.mod_eq_of_lt v.isLt]
  · have hk := timingTable_toNat k.castSucc
    have hk' := timingTable_toNat k.succ
    simp only [Fin.val_castSucc, Fin.val_succ] at hk hk'
    rw [hk, hk', Nat.pow_succ]
    omega

/-! ### The long sleep (41_timer.md R143 to R145) -/

/-- A request above the threshold: the measured coarse sleep, then a busy-wait of what it left (R143). -/
theorem sleepNanos_long {n : Nat} {s : State} (hm : s.tmap = .mapped) (hlong : s.platform.sleepThresholdNs < n) :
    ∃ u pre, TimeAside s u ∧
      u.trace = [.read .timer s.platform.timerWord u.cnt, .coarseSleep (n - s.platform.jitterAllowanceNs),
        .read .timer s.platform.timerWord pre] ++ s.trace ∧
      sleepNanos n s = if n ≤ elapsed pre u.cnt * 1000 then .ok u
        else busyWait ((n - elapsed pre u.cnt * 1000) / 1000) u := by
  obtain ⟨u, pre, hu, a, htr⟩ := measuredCoarseSleep_spec (n - s.platform.jitterAllowanceNs) hm
  refine ⟨u, pre, a, htr, ?_⟩
  unfold sleepNanos
  rw [if_pos hlong, hu]; rfl

/-- Settles O33: the request is met by the coarse sleep, or the busy-wait takes the rest. -/
theorem longSleepTakesOffTheCoarseSleep : Obligations.LongSleepTakesOffTheCoarseSleep := by
  intro n s ha hlong
  have hm : s.tmap = .mapped := by
    simp only [acceptedIn, Bool.and_eq_true, beq_iff_eq] at ha
    exact ha.1
  obtain ⟨u, pre, a, htr, hs⟩ := sleepNanos_long hm hlong
  rw [execSleepns_eq, if_pos ha, hs]
  by_cases hmet : n.toNat ≤ elapsed pre u.cnt * 1000
  · rw [if_pos hmet]
    exact ⟨u, pre, u.cnt, rfl, fun _ => htr, fun hlt => absurd hmet (Nat.not_le.mpr hlt)⟩
  · have hT : (n.toNat - elapsed pre u.cnt * 1000) / 1000 < Config.counterMax :=
      nsToTicks_lt (Nat.lt_of_le_of_lt (Nat.sub_le _ _) n.isLt)
    obtain ⟨t, start, last, mid, ht, -, htr', rfl, hreach, hmid⟩ := busyWait_spec hT (a.tmap.trans hm)
    rw [a.platform, htr] at htr'
    rw [a.platform] at hmid
    rw [if_neg hmet, ht]
    exact ⟨t, pre, u.cnt, rfl, fun h => absurd h hmet, fun _ => ⟨start, mid, htr', hreach, hmid⟩⟩

/-! ### SCROLLCHK (43_sequencer.md R188) -/

/-- A usable source image is present exactly when there is one that is usable. -/
theorem hasSource_iff {s : State} : s.hasSource = true ↔ ∃ img, s.src = some img ∧ img.usable = true := by
  unfold State.hasSource
  cases s.src <;> simp

/-- In Ready with both windows mapped SCROLLCHK is the scroll step. -/
theorem execScrollchk_ready {s : State} (hr : s.mode = .ready) (hg : s.gmap = .mapped) (ht : s.tmap = .mapped) :
    exec .scrollchk s = complete (scrollCheck s) := by
  rw [execScrollchk_eq, if_pos (by simp [acceptedIn, hr]), requireMapped_ok (w := .gpio) hg,
    requireMapped_ok (w := .timer) ht]
  rfl

/-- A scroll step that is due, with a usable image: the counter read and the scroll load (R188, 42_frame.md R160). -/
theorem scrollCheck_due {s : State} {img : SourceImage} (he : s.scrollEn = true) (ht : s.tmap = .mapped)
    (hd : 10000 ≤ elapsed s.lastScroll s.tick.cnt) (hi : s.src = some img) (hu : img.usable = true) :
    scrollCheck s = .ok { s.tick.record (.read .timer s.platform.timerWord s.tick.cnt) with
      lastScroll := s.tick.cnt, frame := img.visible s.cursor, cursor := (s.cursor + 1) % img.width } := by
  have hload := advanceFrame_eq_ok (s := s.tick.record (.read .timer s.platform.timerWord s.tick.cnt)) |>.mpr
    ⟨img, hi, hu, rfl⟩
  rw [scrollCheck_on he ht, if_pos hd, hload]; rfl

/-- Settles O47, by the scroll step with and without SCROLL_EN. -/
theorem scrollchkAdvancesAfterTenMilliseconds : Obligations.ScrollchkAdvancesAfterTenMilliseconds := by
  intro s hr hg ht
  rw [execScrollchk_ready hr hg ht]
  refine ⟨fun he => by rw [scrollCheck_off he]; rfl, fun he hsrc => ?_⟩
  obtain ⟨img, hi, hu⟩ := hasSource_iff.mp hsrc
  by_cases hd : 10000 ≤ elapsed s.lastScroll s.tick.cnt
  · rw [scrollCheck_due he ht hd hi hu]
    exact ⟨_, rfl, rfl, fun hlt => absurd hd (Nat.not_le.mpr hlt), fun _ => ⟨img, hi, rfl⟩⟩
  · rw [scrollCheck_on he ht, if_neg hd]
    exact ⟨_, rfl, rfl, fun _ => rfl, fun h => absurd h hd⟩

end Sys2Proof.Machine
end

section
/-! SUPPORT. What a step adds to the trace and does to a line of the latch; the panel stays blanked outside the dwell. -/

namespace Sys2Proof.Machine

/-! ### After the last access -/

/-- What a task completes is no access. -/
@[simp] theorem completeTask_trace (task : Task) (s : State) : (completeTask task s).trace = s.trace := by
  cases task with
  | init m => show (finishInit _ _).trace = _; unfold finishInit; split <;> simp
  | plain => rfl
  | outputs m => rfl
  | rowPlane => rfl
  | sweep => rfl
  | stop => rfl

/-- What a task completes writes no pin. -/
@[simp] theorem completeTask_outlatch (task : Task) (s : State) : (completeTask task s).outlatch = s.outlatch := by
  cases task with
  | init m => show (finishInit _ _).outlatch = _; unfold finishInit; split <;> simp
  | plain => rfl
  | outputs m => rfl
  | rowPlane => rfl
  | sweep => rfl
  | stop => rfl

@[simp] theorem carryOn_trace (task : Task) (s : State) (as : List Access) : (carryOn task s as).trace = s.trace := by
  cases as with
  | nil => exact completeTask_trace task s
  | cons a rest => rfl

@[simp] theorem carryOn_outlatch (task : Task) (s : State) (as : List Access) :
    (carryOn task s as).outlatch = s.outlatch := by
  cases as with
  | nil => exact completeTask_outlatch task s
  | cons a rest => rfl

/-! ### A line that no access lowers -/

/-- From s to t nothing lowers pin k: no write to the clear-register names it, and the latch keeps it high. -/
structure KeepsHigh (k : PinIndex) (s t : State) : Prop where
  writes : ∃ evs, t.trace = evs ++ s.trace ∧ ∀ v, .write .gpio 10 v ∈ evs → v.getLsbD k.val = false
  latch : s.outlatch.getLsbD k.val = true → t.outlatch.getLsbD k.val = true

/-- Without a new event and with the latch as it was. -/
theorem KeepsHigh.of_silent {k : PinIndex} {s t : State} (ht : t.trace = s.trace) (ho : t.outlatch = s.outlatch) :
    KeepsHigh k s t :=
  ⟨⟨[], ht, fun _ h => by cases h⟩, fun h => by rw [ho]; exact h⟩

/-- With one new event that is no such write, and the latch as it was. -/
theorem KeepsHigh.of_event {k : PinIndex} {s t : State} (e : BusEvent) (ht : t.trace = e :: s.trace)
    (he : ∀ v, e = .write .gpio 10 v → v.getLsbD k.val = false)
    (ho : s.outlatch.getLsbD k.val = true → t.outlatch.getLsbD k.val = true) : KeepsHigh k s t :=
  ⟨⟨[e], ht, fun v h => he v (List.mem_singleton.mp h).symm⟩, ho⟩

/-- An access lowers a pin only if it is a clear that names it. -/
theorem Performed.keepsHigh {k : PinIndex} {a : Access} {s t : State} {more : List Access} (h : Performed a s more t)
    (ha : ∀ mask left, a = .clear mask left → mask.getLsbD k.val = false) : KeepsHigh k s t := by
  cases h with
  | set mask left h => exact .of_event _ rfl (by simp [Config.setWord]) (fun hk => by simp [hk])
  | clear mask left h =>
    have hm := ha mask left rfl
    have hk32 : k.val < 32 := by omega
    refine .of_event _ rfl (fun v hv => ?_) (fun hk => by simpa [hk, hk32] using hm)
    obtain rfl : mask = v := by simpa using hv
    exact hm
  | configure j h => exact .of_event _ rfl (by simp) id
  | configureWrite j old h =>
    have hj := fselWordOf_lt j
    exact .of_event _ rfl (fun v hv => by simp at hv; omega) id
  | delay hd hm h e he ht =>
    exact .of_event e ht (fun v hv => by simp [hv, BusEvent.isDelay] at he) (fun hk => by rw [h.outlatch]; exact hk)

/-- The same, with the task going on. -/
theorem Performed.keepsHigh_carryOn {k : PinIndex} {a : Access} {s t : State} {more : List Access} {task : Task}
    (h : Performed a s more t) (ha : ∀ mask left, a = .clear mask left → mask.getLsbD k.val = false)
    (as : List Access) : KeepsHigh k s (carryOn task t as) := by
  obtain ⟨hw, hl⟩ := h.keepsHigh ha
  exact ⟨by rwa [carryOn_trace], by rwa [carryOn_outlatch]⟩

/-! ### OE in a row-plane -/

/-- The host's part of a step keeps the invariant. -/
theorem State.Inv.hostTick {s : State} (h : s.Inv) : s.hostTick.Inv := by
  rw [hostTick_eq]
  exact ⟨h.inBits_zero, h.col_zero, h.err_iff_faulted, h.faulted_unmapped, h.running_mapped, h.outBits_valid,
    h.outBits_output, h.unmapped_untouched, h.constructed_init, h.after_init, h.cursor_range, h.phase_fits,
    h.write_back_last, h.write_back_fresh, h.configured_valid, h.configured_mapped, h.configured_output, h.init_rowMask,
    h.micro_accesses, h.stop_accesses⟩

/-- While Running ROW_MASK is this geometry's (70_reset_and_hazards.md R283). -/
theorem State.Inv.running_rowMask {s : State} (h : s.Inv) (hm : s.mode = .running) :
    s.rowMask = rowMaskFor s.platform.pins 8 :=
  (h.after_init (h.constructed_init (by simp [State.constructed, hm]))).1

/-- OE is no colour or clock line (00_scope.md R11). -/
theorem ccMask_oe {p : PinTable} (h : p.disjoint = true) : (ccMask p).getLsbD p.oe.val = false := by
  obtain ⟨hclk, -, -, -, -, hr1, hg1, hb1, hr2, hg2, hb2⟩ := oe_ne h
  simp [ccMask, colorMask, pinBit_bit, hclk.symm, hr1.symm, hg1.symm, hb1.symm, hr2.symm, hg2.symm, hb2.symm]

/-- OE is no address line of this geometry. -/
theorem rowMaskFor_oe {p : PinTable} (h : p.disjoint = true) : (rowMaskFor p 8).getLsbD p.oe.val = false := by
  obtain ⟨-, -, ha, hb, hc, -⟩ := oe_ne h
  simp [rowMaskFor, pinBit_bit, ha.symm, hb.symm, hc.symm]

/-- No clear of steps 1 to 5 names OE (43_sequencer.md R181 to R184). -/
theorem microAccesses_clear_oe {s : State} {q : Pos} (hd : s.platform.pins.disjoint = true)
    (hr : s.rowMask = rowMaskFor s.platform.pins 8) (hq : q.step ≠ .dwell) {mask : PinMask} {n : Nat}
    (h : .clear mask n ∈ s.microAccesses q) : mask.getLsbD s.platform.pins.oe.val = false := by
  have hcc := ccMask_oe hd
  have hrow := rowMaskFor_oe hd
  have hlat : s.platform.pins.lat ≠ s.platform.pins.oe := (oe_ne hd).2.1.symm
  obtain ⟨dr, pl, col, st⟩ := q
  cases st with
  | clearBefore =>
    obtain ⟨rfl, -⟩ : mask = ccMask s.platform.pins ∧ _ := by
      simpa [State.microAccesses, State.clearingColourClock, State.clearing] using h
    exact hcc
  | shift =>
    simp only [State.microAccesses, State.shiftingColumn, State.clearingColourClock, State.writing, State.clearing,
      State.setting, List.cons_append, List.nil_append, List.mem_cons, Access.clear.injEq, reduceCtorEq,
      List.not_mem_nil, or_false] at h
    rcases h with ⟨rfl, -⟩ | ⟨rfl, -⟩ <;> simp [hcc]
  | clearAfter =>
    obtain ⟨rfl, -⟩ : mask = ccMask s.platform.pins ∧ _ := by
      simpa [State.microAccesses, State.clearingColourClock, State.clearing] using h
    exact hcc
  | address =>
    obtain ⟨rfl, -⟩ : mask = ~~~rowAddressBits s.platform.pins s.rowMask dr.val &&& s.rowMask ∧ _ := by
      simpa [State.microAccesses, State.puttingAddress, State.writing, State.clearing, State.setting] using h
    simp [hr, hrow]
  | latch =>
    obtain ⟨rfl, -⟩ : mask = pinBit s.platform.pins.lat ∧ _ := by
      simpa [State.microAccesses, State.pulsingLatch, State.clearing, State.setting] using h
    simp [pinBit_bit, hlat]
  | dwell => exact absurd rfl hq

/-- A step of the running loop outside step 6 lowers OE nowhere (43_sequencer.md R193). -/
theorem running_keepsHigh_oe {s t : State} (hinv : s.Inv) (hm : s.mode = .running)
    (hd : s.platform.pins.disjoint = true) (h : StepCase s t) (hn : s.inDwell = false) :
    KeepsHigh s.platform.pins.oe s t := by
  have hr := hinv.running_rowMask hm
  cases h with
  | waits hp hi => exact absurd hm hi
  | source img rest hp hi => exact absurd hm hi
  | whole i r rest hp hi => exact absurd hm hi
  | begun i rest hp hi => exact absurd hm hi
  | scrollchk rest hp hi => rw [hm] at hi; cases hi
  | stop hp hi hreq h =>
    obtain ⟨more, u, hu, rfl⟩ := proceed_inv h
    exact hu.keepsHigh_carryOn (fun _ _ ha => by cases ha) _
  | sweep hp hi hreq h =>
    obtain ⟨a, rest, hl⟩ := microAccesses_cons s Pos.start
    rw [hl] at h
    obtain ⟨more, u, hu, rfl⟩ := proceed_inv h
    have hk : KeepsHigh s.platform.pins.oe { s with pos := Pos.start } (carryOn .sweep u (more ++ rest)) :=
      hu.keepsHigh_carryOn (fun mask left ha =>
        microAccesses_clear_oe (q := Pos.start) hd hr (by decide) (by rw [hl, ha]; exact List.mem_cons_self)) _
    exact ⟨hk.writes, hk.latch⟩
  | scroll hp hi h =>
    obtain ⟨r, hr', h⟩ := bind_eq_ok.mp h
    obtain rfl := Except.ok.inj h
    obtain ⟨-, rfl⟩ := timerRead_inv hr'
    exact .of_event _ rfl (by simp) id
  | load now hp hi h =>
    obtain ⟨v, hv, h⟩ := bind_eq_ok.mp h
    obtain rfl := Except.ok.inj h
    obtain ⟨img, -, -, rfl⟩ := advanceFrame_eq_ok.mp hv
    exact .of_silent rfl rfl
  | @access u task a rest more hp hf hu =>
    refine hu.keepsHigh_carryOn (fun mask left ha => ?_) _
    by_cases hmic : s.phase.inMicro = true
    · have hq : s.pos.step ≠ .dwell := by simpa [State.inDwell, hmic] using hn
      obtain ⟨n, hmem⟩ := (hinv.micro_accesses hmic).1 mask left (by rw [hp, ha]; exact List.mem_cons_self)
      exact microAccesses_clear_oe hd hr hq hmem
    · rw [hp, hm] at hf
      rw [hp] at hmic
      cases task with
      | stop =>
        obtain ⟨-, left', ha'⟩ := hinv.stop_accesses a rest hp
        rw [ha] at ha'; cases ha'
      | plain => cases hf
      | outputs m => cases hf
      | init m => cases hf
      | rowPlane => cases hf
      | sweep => exact absurd rfl hmic

/-- Whether a task is inside a micro-operation does not depend on its accesses. -/
theorem busy_inMicro (task : Task) (a b : Access) (as bs : List Access) :
    (Phase.busy task a as).inMicro = (Phase.busy task b bs).inMicro := by
  cases task <;> rfl

/-- A step that ends step 6 leaves OE high: its last access raises it (43_sequencer.md R185). -/
theorem dwell_ends_oe_high {s t : State} (hinv : s.Inv) (h : StepCase s t) (hin : s.inDwell = true)
    (hout : t.inDwell = false) : t.outlatch.getLsbD s.platform.pins.oe.val = true := by
  obtain ⟨hmic, hstep⟩ : s.phase.inMicro = true ∧ s.pos.step = .dwell := by simpa [State.inDwell] using hin
  have notMicro : ∀ ph : Phase, ph.inMicro = false → s.phase ≠ ph := by
    rintro ph hph rfl; rw [hmic] at hph; cases hph
  cases h with
  | waits hp => exact absurd hp (notMicro _ rfl)
  | source img rest hp => exact absurd hp (notMicro _ rfl)
  | whole i r rest hp => exact absurd hp (notMicro _ rfl)
  | begun i rest hp => exact absurd hp (notMicro _ rfl)
  | scrollchk rest hp => exact absurd hp (notMicro _ rfl)
  | stop hp => exact absurd hp (notMicro _ rfl)
  | sweep hp => exact absurd hp (notMicro _ rfl)
  | scroll hp => exact absurd hp (notMicro _ rfl)
  | load now hp => exact absurd hp (notMicro _ rfl)
  | @access u task a rest more hp hf hu =>
    rw [hp] at hmic
    obtain ⟨left, hlast⟩ := (hinv.micro_accesses (by rw [hp]; exact hmic)).2 hstep
    rw [hp] at hlast
    cases hnext : more ++ rest with
    | cons b bs =>
      have hmic' : (Phase.busy task b bs).inMicro = true := (busy_inMicro task a b rest bs).symm.trans hmic
      rw [hnext] at hout
      simp [carryOn, State.inDwell, hmic', hu.busAside.pos, hstep] at hout
    | nil =>
      obtain ⟨-, rfl⟩ := List.append_eq_nil_iff.mp hnext
      obtain rfl : a = .set (pinBit s.platform.pins.oe) left := by simpa [Phase.accesses] using hlast
      cases hu with
      | set mask left hg => simp [pinBit_bit]
      | delay ha => cases ha

/-- Settles O52, from the cases of a step. -/
theorem panelIsBlankedOutsideTheDwell : Obligations.PanelIsBlankedOutsideTheDwell := by
  intro s t hinv hm hd hstep
  have hcase := step_cases hstep
  have hdwell : s.hostTick.inDwell = s.inDwell := by simp [State.inDwell]
  constructor
  · intro hn
    obtain ⟨hw, hl⟩ := running_keepsHigh_oe hinv.hostTick (by simpa using hm) (by simpa using hd) hcase (hdwell.trans hn)
    simp only [State.hostTick_platform, State.hostTick_trace, State.hostTick_outlatch] at hw hl
    exact ⟨hw, hl⟩
  · intro hin hout
    have := dwell_ends_oe_high hinv.hostTick hcase (hdwell.trans hin) hout
    simpa using this

end Sys2Proof.Machine
end

section
/-! SUPPORT. One step makes at most one access; and the operation a record decodes to runs, access by access, to what exec
answers (92_eei_decisions.md D36, 60_exceptions.md R248, R262). -/

namespace Sys2Proof.Machine

/-! ### At most one access a step -/

/-- From s to t at most one event is new. -/
def AtMostOneEvent (s t : State) : Prop := t.trace = s.trace ∨ ∃ e, t.trace = e :: s.trace

theorem Performed.atMostOneEvent {a : Access} {s t : State} {more : List Access} (h : Performed a s more t)
    (task : Task) (as : List Access) : AtMostOneEvent s (carryOn task t as) := by
  obtain ⟨e, he⟩ := h.trace
  exact .inr ⟨e, by rw [carryOn_trace, he]⟩

/-- A task's first step. -/
theorem start_atMostOneEvent {task : Task} {as : List Access} {s t : State} (h : start task as s = .ok t) :
    AtMostOneEvent s t := by
  cases as with
  | nil =>
    obtain rfl := Except.ok.inj h
    exact .inl (completeTask_trace task s)
  | cons a rest =>
    obtain ⟨more, u, hu, rfl⟩ := proceed_inv h
    exact hu.atMostOneEvent task _

theorem Begun.atMostOneEvent {s t : State} (h : Begun s t) : AtMostOneEvent s t := by
  cases h with
  | plain as hw hm h => exact start_atMostOneEvent h
  | outputs mask hm hg h => exact start_atMostOneEvent h
  | init n hm hg h =>
    have := start_atMostOneEvent h
    simpa [AtMostOneEvent] using this
  | march task p ht hp hm h => exact start_atMostOneEvent (s := { s with pos := p }) h

theorem scrollStep_atMostOneEvent {s t : State} (h : scrollStep s = .ok t) : AtMostOneEvent s t := by
  obtain ⟨r, hr, h⟩ := bind_eq_ok.mp h
  obtain ⟨-, rfl⟩ := timerRead_inv hr
  obtain rfl := Except.ok.inj h
  exact .inr ⟨_, rfl⟩

/-- An operation's meaning is reached through the acceptance table only. -/
theorem of_accepted {b : Bool} {x : Host.Outcome State Fault Refusal} {t : State}
    (h : (if b = true then x else .refused .wrongState) = .next t) : b = true ∧ x = .next t := by
  cases b with
  | true => exact ⟨rfl, h⟩
  | false => cases h

/-- An operation done whole in one step makes at most one access. -/
theorem exec_atMostOneEvent {i : Instr} {s t : State} (hf : firstStep i s = none) (h : exec i s = .next t) :
    AtMostOneEvent s t := by
  cases i with
  | mapopen w =>
    obtain ⟨-, hx⟩ := of_accepted (execMapopen_eq w s ▸ h)
    obtain rfl := Host.Outcome.next.inj hx
    rcases openWindow_cases w s with ⟨-, ho⟩ | ⟨-, -, ho⟩ | ⟨-, -, ho⟩ <;> rw [ho] <;> exact .inl (by simp)
  | mapclose w =>
    obtain ⟨-, hx⟩ := of_accepted (execMapclose_eq w s ▸ h)
    obtain rfl := Host.Outcome.next.inj hx
    exact .inl (by simp)
  | init n =>
    obtain ⟨-, hx⟩ := of_accepted (execInit_eq n s ▸ h)
    rcases openWindow_cases .gpio s with ⟨-, ho⟩ | ⟨-, -, ho⟩ | ⟨-, -, ho⟩
    · rw [ho] at hx
      obtain rfl := Host.Outcome.next.inj hx
      exact .inl rfl
    · rw [ho] at hx
      obtain rfl := Host.Outcome.next.inj hx
      exact .inl rfl
    · simp [firstStep, ho] at hf
  | tinit =>
    obtain ⟨-, hx⟩ := of_accepted (execTinit_eq s ▸ h)
    obtain rfl := Host.Outcome.next.inj hx
    rcases openWindow_cases .timer s with ⟨-, ho⟩ | ⟨-, -, ho⟩ | ⟨-, -, ho⟩ <;> rw [ho] <;> exact .inl (by simp)
  | teardown =>
    obtain ⟨-, hx⟩ := of_accepted (execTeardown_eq s ▸ h)
    obtain rfl := Host.Outcome.next.inj hx
    exact .inl rfl
  | run e =>
    obtain ⟨-, hx⟩ := of_accepted (execRun_eq e s ▸ h)
    obtain ⟨-, -, hx⟩ := bind_eq_ok.mp (complete_eq_next.mp hx)
    obtain ⟨-, -, hx⟩ := bind_eq_ok.mp hx
    obtain ⟨r, hr, hx⟩ := bind_eq_ok.mp hx
    obtain ⟨-, rfl⟩ := timerRead_inv hr
    obtain rfl := Except.ok.inj hx
    exact .inr ⟨_, rfl⟩
  | rowaddr dr =>
    obtain ⟨-, hx⟩ := of_accepted (execRowaddr_eq dr s ▸ h)
    obtain rfl := Host.Outcome.next.inj hx
    exact .inl rfl
  | rdlev =>
    obtain ⟨-, hx⟩ := of_accepted (execRdlev_eq s ▸ h)
    obtain rfl := Host.Outcome.next.inj hx
    exact .inr ⟨_, rfl⟩
  | tread =>
    obtain ⟨-, hx⟩ := of_accepted (execTread_eq s ▸ h)
    obtain rfl := Host.Outcome.next.inj hx
    exact .inr ⟨_, rfl⟩
  | advance =>
    obtain ⟨-, hx⟩ := of_accepted (execAdvance_eq s ▸ h)
    obtain ⟨img, -, -, rfl⟩ := advanceFrame_eq_ok.mp (complete_eq_next.mp hx)
    exact .inl rfl
  | planebits top plane bottom =>
    obtain ⟨-, hx⟩ := of_accepted (execPlanebits_eq top plane bottom s ▸ h)
    obtain rfl := Host.Outcome.next.inj hx
    exact .inl rfl
  | scrollchk =>
    have he : s.scrollEn = false := by simpa [firstStep] using hf
    obtain ⟨-, hx⟩ := of_accepted (execScrollchk_eq s ▸ h)
    obtain ⟨-, -, hx⟩ := bind_eq_ok.mp (complete_eq_next.mp hx)
    obtain ⟨-, -, hx⟩ := bind_eq_ok.mp hx
    rw [scrollCheck_off he] at hx
    obtain rfl := Except.ok.inj hx
    exact .inl rfl
  | cfgout1 pin => cases hf
  | cfgouts mask => cases hf
  | set mask => cases hf
  | clr mask => cases hf
  | wrm value mask => cases hf
  | sleepns n => cases hf
  | clrcc => cases hf
  | shiftcol dr pl col => cases hf
  | addr dr => cases hf
  | latch => cases hf
  | dwell pl => cases hf
  | rowplane dr pl => cases hf
  | sweep => cases hf

/-- A step makes at most one access (92_eei_decisions.md D36). -/
theorem StepCase.atMostOneEvent {s t : State} (h : StepCase s t) : AtMostOneEvent s t := by
  cases h with
  | waits hp hm hi => exact .inl rfl
  | source img rest hp hm hi hc => exact .inl rfl
  | whole i r rest hp hm hi hd hf h => exact exec_atMostOneEvent (s := { s with inputs := rest }) hf h
  | begun i rest hp hm ha h => exact Begun.atMostOneEvent (s := { s with inputs := rest }) h
  | scrollchk rest hp hm he h => exact scrollStep_atMostOneEvent (s := { s with inputs := rest }) h
  | stop hp hm hr h =>
    obtain ⟨more, u, hu, rfl⟩ := proceed_inv h
    exact hu.atMostOneEvent _ _
  | sweep hp hm hr h => exact start_atMostOneEvent (s := { s with pos := Pos.start }) h
  | scroll hp hm h => exact scrollStep_atMostOneEvent h
  | load now hp hm h =>
    obtain ⟨v, hv, h⟩ := bind_eq_ok.mp h
    obtain ⟨img, -, -, rfl⟩ := advanceFrame_eq_ok.mp hv
    obtain rfl := Except.ok.inj h
    exact .inl rfl
  | access task a rest more hp hf hu => exact hu.atMostOneEvent _ _

/-! ### The controls of an operation -/

theorem BusAside.control {s t : State} (h : BusAside s t) : t.control = s.control := by
  unfold State.control; rw [h]

theorem finishInit_control (want : PinMask) (s : State) : (finishInit want s).control = s.control := by
  unfold finishInit readyIf
  split
  · split <;> rfl
  · rfl

/-- An operation of several accesses, from s: x is its first step and t what it does as a whole. -/
inductive Unfolds (s : State) : Except Refusal State → State → Prop
  /-- a list of accesses and what the last one completes -/
  | accesses {task : Task} {as : List Access} {s' u t : State} {n : Nat} (hs : s'.control = s.control)
      (hf : ∀ a rest, (Phase.busy task a rest).fits s'.mode = true) (hp : Performs as s' n u)
      (ht : ∀ c, completeTask task (u.under c) = t.under (c.at' .idle)) (hc : t.control = s.control) :
      Unfolds s (start task as s') t
  /-- from micro-operation to micro-operation -/
  | march {inSweep : Bool} {q q' : Pos} {t : State} (hf : marchFits inSweep s.mode)
      (hr : Reaches s q (s.microPhase (marching inSweep) q) t q' .idle) (hc : t.control = s.control.move q' s.phase) :
      Unfolds s (start (marching inSweep) (s.microAccesses q) { s with pos := q }) t
  /-- the scroll step -/
  | scroll {t : State} (hm : s.mode = .ready) (ht : s.tmap = .mapped) (hr : Reaches s s.pos .scroll t s.pos .idle)
      (hc : t.control = s.control) : Unfolds s (scrollStep s) t

/-- A command that completes with its last access. -/
theorem Unfolds.command {s t : State} {as : List Access} (hm : s.mode = .reset ∨ s.mode = .ready)
    (h : ∃ n, Performs as s n t) : Unfolds s (start .plain as s) t := by
  obtain ⟨n, hn⟩ := h
  exact .accesses rfl (fun a rest => by rcases hm with h | h <;> rw [h] <;> rfl) hn (fun c => rfl) hn.busAside.control

/-- The acceptance table's setup condition (30_encoding.md R102). -/
theorem setup_mode {g : Bool} {m : Mode} (h : (g && (m == .reset || m == .ready)) = true) : m = .reset ∨ m = .ready := by
  simp only [Bool.and_eq_true, Bool.or_eq_true, beq_iff_eq] at h
  exact h.2

theorem PinsAside.control {s t : State} (h : PinsAside s t) : t.control = s.control := h.busAside.control

/-- INIT with its window open (44_system.md R222). -/
theorem Unfolds.init {s t : State} (n : Word) (hm : s.mode = .reset)
    (h : constructGpio n (s.setHandle .gpio .mapped) = .ok t) :
    Unfolds s (start (.init (s.newPins s.wantedPins)) (configuring (s.newPins s.wantedPins))
      ((s.setHandle .gpio .mapped).withHoldings n)) t := by
  obtain ⟨v, hv, hc⟩ := constructGpio_spec n (s := s.setHandle .gpio .mapped) rfl
  obtain rfl := Except.ok.inj (hc.symm.trans h)
  obtain ⟨u, hu, hv⟩ := bind_eq_ok.mp hv
  obtain rfl := Except.ok.inj hv
  obtain ⟨k, hk⟩ := configurePins_performs _ _ hu
  have hb := hk.busAside
  refine .accesses (u := u) rfl (fun a rest => ?_) hk (fun c => ?_) ?_
  · show (s.mode == .reset) = true
    rw [hm]; rfl
  · have hw : initWant u.platform.pins u.rowMask = s.wantedPins := by rw [hb.platform, hb.rowMask]; rfl
    rw [completeInit_under]
    show (finishInit (initWant u.platform.pins u.rowMask) (u.nowConfigured _)).under _ = _
    rw [hw]; rfl
  · rw [finishInit_control]
    exact hb.control

/-- An operation of several accesses unfolds into its first step and what exec says it does as a whole. -/
theorem firstStep_unfolds {i : Instr} {s t : State} {x : Except Refusal State}
    (hx : firstStep i s = some x) (h : exec i s = .next t) : Unfolds s x t := by
  cases i with
  | mapopen w => cases hx
  | mapclose w => cases hx
  | init n =>
    obtain ⟨ha, h⟩ := of_accepted (execInit_eq n s ▸ h)
    simp only [acceptedIn, Bool.and_eq_true, beq_iff_eq] at ha
    unfold firstStep at hx
    rcases openWindow_cases .gpio s with ⟨-, ho⟩ | ⟨-, -, ho⟩ | ⟨-, -, ho⟩ <;> simp only [ho] at h hx
    · cases hx
    · cases hx
    · obtain rfl := Option.some.inj hx
      exact .init n ha.1 (complete_eq_next.mp h)
  | tinit => cases hx
  | teardown => cases hx
  | run e => cases hx
  | cfgout1 pin =>
    obtain ⟨ha, h⟩ := of_accepted (execCfgout1_eq pin s ▸ h)
    obtain ⟨k, hk, h⟩ := bind_eq_ok.mp (complete_eq_next.mp h)
    obtain rfl := Option.some.inj hx
    rw [hk]
    exact .command (setup_mode ha) ⟨_, configureAsOutput_performs h⟩
  | cfgouts mask =>
    obtain ⟨ha, h⟩ := of_accepted (execCfgouts_eq mask s ▸ h)
    obtain ⟨u, hu, h⟩ := bind_eq_ok.mp (complete_eq_next.mp h)
    obtain rfl := Except.ok.inj h
    obtain rfl := Option.some.inj hx
    obtain ⟨n, hn⟩ := configurePins_performs _ _ hu
    refine .accesses rfl (fun a rest => ?_) hn (fun c => rfl) hn.busAside.control
    rcases setup_mode ha with h | h <;> rw [h] <;> rfl
  | set mask =>
    obtain ⟨ha, h⟩ := of_accepted (execSet_eq mask s ▸ h)
    obtain rfl := Option.some.inj hx
    exact .command (setup_mode ha) ⟨_, setPins_performs (complete_eq_next.mp h)⟩
  | clr mask =>
    obtain ⟨ha, h⟩ := of_accepted (execClr_eq mask s ▸ h)
    obtain rfl := Option.some.inj hx
    exact .command (setup_mode ha) ⟨_, clearPins_performs (complete_eq_next.mp h)⟩
  | wrm value mask =>
    obtain ⟨ha, h⟩ := of_accepted (execWrm_eq value mask s ▸ h)
    obtain rfl := Option.some.inj hx
    exact .command (setup_mode ha) (writeMasked_performs (complete_eq_next.mp h))
  | rowaddr dr => cases hx
  | rdlev => cases hx
  | tread => cases hx
  | sleepns n =>
    obtain ⟨ha, h⟩ := of_accepted (execSleepns_eq n s ▸ h)
    obtain rfl := Option.some.inj hx
    exact .command (setup_mode ha) (sleepNanos_performs (complete_eq_next.mp h))
  | advance => cases hx
  | planebits top plane bottom => cases hx
  | clrcc =>
    obtain ⟨ha, h⟩ := of_accepted (execClrcc_eq s ▸ h)
    obtain rfl := Option.some.inj hx
    exact .command (.inr (beq_iff_eq.mp ha)) (clearColourClock_performs (complete_eq_next.mp h))
  | shiftcol dr pl col =>
    obtain ⟨ha, h⟩ := of_accepted (execShiftcol_eq dr pl col s ▸ h)
    obtain ⟨d, hd, h⟩ := bind_eq_ok.mp (complete_eq_next.mp h)
    obtain ⟨p, hp, h⟩ := bind_eq_ok.mp h
    obtain ⟨c, hc, h⟩ := bind_eq_ok.mp h
    obtain rfl := Option.some.inj hx
    rw [hd, hp, hc]
    exact .command (.inr (beq_iff_eq.mp ha)) (shiftColumn_performs h)
  | addr dr =>
    obtain ⟨ha, h⟩ := of_accepted (execAddr_eq dr s ▸ h)
    obtain rfl := Option.some.inj hx
    exact .command (.inr (beq_iff_eq.mp ha)) (putAddress_performs (complete_eq_next.mp h))
  | latch =>
    obtain ⟨ha, h⟩ := of_accepted (execLatch_eq s ▸ h)
    obtain rfl := Option.some.inj hx
    exact .command (.inr (beq_iff_eq.mp ha)) (pulseLatch_performs (complete_eq_next.mp h))
  | dwell pl =>
    obtain ⟨ha, h⟩ := of_accepted (execDwell_eq pl s ▸ h)
    obtain ⟨p, hp, h⟩ := bind_eq_ok.mp (complete_eq_next.mp h)
    obtain rfl := Option.some.inj hx
    rw [hp]
    exact .command (.inr (beq_iff_eq.mp ha)) (dwellPlane_performs h)
  | rowplane dr pl =>
    obtain ⟨ha, h⟩ := of_accepted (execRowplane_eq dr pl s ▸ h)
    obtain ⟨d, hd, h⟩ := bind_eq_ok.mp (complete_eq_next.mp h)
    obtain ⟨p, hp, h⟩ := bind_eq_ok.mp h
    obtain rfl := Option.some.inj hx
    rw [hd, hp]
    have hf : marchFits false s.mode := .inl (beq_iff_eq.mp ha)
    obtain ⟨hg, ht⟩ := rowPlane_inv h
    obtain ⟨u, hu, a, -⟩ := rowPlane_answers d p hg ht
    obtain rfl := Except.ok.inj (hu.symm.trans h)
    exact .march (inSweep := false) hf (rowPlane_reaches d p hf h).2 a.control
  | sweep =>
    obtain ⟨ha, h⟩ := of_accepted (execSweep_eq s ▸ h)
    replace h := complete_eq_next.mp h
    obtain rfl := Option.some.inj hx
    have hr : s.mode = .ready := beq_iff_eq.mp ha
    obtain ⟨hg, ht⟩ := sweepPanel_inv h
    obtain ⟨u, hu, a, -⟩ := sweepPanel_spec hg ht
    obtain rfl := Except.ok.inj (hu.symm.trans h)
    obtain ⟨hm, hreach⟩ := sweepPanel_reaches (.inl hr) h
    rw [show u.phaseAfterSweep = .idle by simp [State.phaseAfterSweep, hm, hr]] at hreach
    exact .march (inSweep := true) (.inl hr) hreach a.control
  | scrollchk =>
    obtain ⟨ha, h⟩ := of_accepted (execScrollchk_eq s ▸ h)
    have hr : s.mode = .ready := beq_iff_eq.mp ha
    obtain ⟨-, -, h⟩ := bind_eq_ok.mp (complete_eq_next.mp h)
    obtain ⟨_, ht, h⟩ := bind_eq_ok.mp h
    simp only [firstStep] at hx
    split at hx
    · next he =>
      obtain rfl := Option.some.inj hx
      have hreach := scroll_reaches (q := s.pos) (.inl hr) he h
      rw [show s.phaseAfterScroll = .idle by simp [State.phaseAfterScroll, hr]] at hreach
      refine .scroll hr (requireMapped_eq_ok.mp ht) hreach ?_
      rcases scrollCheck_inv h with a | ⟨img, -, -, a⟩
      · exact a.busAside.control
      · exact a.busAside.control
    · cases hx

/-! ### From the record to exec's answer -/

/-- n + 1 steps lead from s0 to t, with the host's clock advanced n times; between them the operation is under way. -/
def Answered (s0 t : State) : Prop := ∃ n, RunsTo State.underWay s0 (n + 1) (Nat.repeat State.hostTick n t)

/-- A way to an idle place whose first step the idle controller takes. -/
theorem Reaches.answered {s0 s t : State} {q q' : Pos} {ph : Phase} (hr : Reaches s q ph t q' .idle)
    (hph : ph ≠ .idle) (hi : s.phase = .idle) (hs : s.control = s0.control.tick)
    (hc : t.control = s.control.move q' s.phase) (hx : step s0 = step (s.under (s0.control.move q ph))) :
    Answered s0 t := by
  obtain ⟨n, hn⟩ := hr s0.control
  cases n with
  | zero => exact absurd (congrArg State.phase (Host.Outcome.next.inj hn.run)) hph
  | succ n =>
    have hclock : t.control.ticks n = (s0.control.ticks (n + 1)).move q' .idle := by
      rw [hc, hi, Control.ticks_move, hs]; rfl
    refine ⟨n, ?_⟩
    rw [repeat_hostTick, hclock]
    exact .of_step hx hn

/-- A step inside a task does not look at the phase. -/
theorem proceed_phase (task : Task) (a : Access) (rest : List Access) (s : State) (ph : Phase) :
    proceed task a rest { s with phase := ph } = proceed task a rest s := by
  have hp : perform a { s with phase := ph } = _ := perform_under (s.control.at' ph) a s
  unfold proceed
  rw [hp]
  cases h : perform a s with
  | error r => rfl
  | ok r =>
    have hc : r.2.control = s.control := (perform_cases h).busAside.control
    show Except.ok (carryOn task (r.2.under (s.control.at' ph)) _) = _
    rw [← hc]
    exact congrArg Except.ok (carryOn_phase task r.2 ph _)

/-- An operation of several accesses runs, access by access, to what it does as a whole. -/
theorem Unfolds.answered {s0 s t : State} {x : Except Refusal State} (h : Unfolds s x t) (hi : s0.phase = .idle)
    (hs : s.control = s0.control.tick) (hx : step s0 = complete x) : Answered s0 t := by
  have hsi : s.phase = .idle := (congrArg Control.phase hs).trans hi
  cases h with
  | @accesses task as s' u _ n hs' hf hp ht hc =>
    obtain ⟨m, hm⟩ := start_runs hp hf hx
    have hph : (s.control.ticks m).at' .idle = s.control.ticks m := by
      rw [← hsi, ← Control.ticks_at]; rfl
    rw [ht, hs', hph, ← hc, ← repeat_hostTick] at hm
    exact ⟨m, hm⟩
  | @march inSweep q q' _ hf hr hc =>
    obtain ⟨a, rest, hl⟩ := microAccesses_cons s q
    have hph : s.microPhase (marching inSweep) q = .busy (marching inSweep) a rest := by
      unfold State.microPhase; rw [hl]; rfl
    refine hr.answered (microPhase_busy s _ q).1 hsi hs hc ?_
    rw [hx, hl, hph, busy_step rfl (hf.fits a rest), hostTick_under]
    show complete (proceed (marching inSweep) a rest { s with pos := q }) =
      complete (proceed (marching inSweep) a rest (s.under (s0.control.tick.move q (.busy (marching inSweep) a rest))))
    rw [← hs]
    exact congrArg complete (proceed_phase _ a rest { s with pos := q } _).symm
  | scroll hm ht hr hc =>
    refine hr.answered (by simp) hsi hs hc ?_
    have hy : scrollStep (s.under (s0.control.tick.move s.pos .scroll)) = scrollStep s := by
      rw [← hs]
      exact (scrollStep_under _ ht).trans (scrollStep_under s.control ht).symm
    rw [hx, scroll_step (s := s.under (s0.control.move s.pos .scroll)) rfl (.inl hm), hostTick_under]
    exact congrArg complete hy.symm

/-- The idle controller runs the operation of the record it takes (60_exceptions.md R262). -/
theorem step_command {s : State} {r : Record} {rest : List HostInput} {i : Instr} (hi : s.phase = .idle)
    (hm : s.mode ≠ .running) (hin : s.inputs = .command r :: rest) (hd : decode r = .ok i) :
    step s = runOperation i { s.hostTick with inputs := rest } := by
  have hf : s.phase.fits s.mode = true := by rw [hi]; simpa [Phase.fits] using hm
  unfold step controllerStep
  rw [State.hostTick_phase, State.hostTick_mode, if_pos hf, hi]
  simp only [takeInput, State.hostTick_inputs, hin, runRecord, hd]

theorem runOperation_whole {i : Instr} {s t : State} (h : exec i s = .next t) (hf : firstStep i s = none) :
    runOperation i s = .next t := by
  simp only [runOperation, h, hf]

theorem runOperation_first {i : Instr} {s t : State} {x : Except Refusal State} (h : exec i s = .next t)
    (hf : firstStep i s = some x) : runOperation i s = complete x := by
  simp only [runOperation, h, hf]

theorem runOperation_refused {i : Instr} {s : State} {why : Refusal} (h : exec i s = .refused why) :
    runOperation i s = .refused why := by
  simp only [runOperation, h]

/-- Settles O5: a step is one access at most, and the accesses of an operation are what exec does as a whole. -/
theorem stepRunsTheDecodedOperation : Obligations.StepRunsTheDecodedOperation := by
  refine ⟨fun s t h => ?_, fun s r rest i hi hm hin hd => ?_⟩
  · have := (step_cases h).atMostOneEvent
    rwa [AtMostOneEvent, State.hostTick_trace] at this
  · have hstep := step_command hi hm hin hd
    rw [hostTick_eq] at hstep
    intro s'
    refine ⟨fun t ht => ?_, fun why hwhy => hstep.trans (runOperation_refused hwhy)⟩
    have hans : Answered s t := by
      cases hf : firstStep i s' with
      | none => exact ⟨0, .one (hstep.trans (runOperation_whole ht hf))⟩
      | some x => exact (firstStep_unfolds hf ht).answered hi rfl (hstep.trans (runOperation_first ht hf))
    obtain ⟨n, hn⟩ := hans
    exact ⟨n, hn.run, fun k h0 hk => hn.between k h0 (Nat.lt_succ_of_le hk)⟩

end Sys2Proof.Machine
end

section
/-! SUPPORT. What an operation that is over in its first step can do, and how a task's first step goes, said once. -/

namespace Sys2Proof.Machine

/-! ### An operation that is over in its first step -/

/-- What an operation done whole in one step can have done. -/
inductive WholeEffect : State → State → Prop
  /-- only RES, POS, pins and time -/
  | pins {s t : State} (p : Pos) (r : Word) (hp : p = s.pos ∨ p.col = 0) (h : PinsAside { s with pos := p, res := r } t) :
      WholeEffect s t
  | load {s t : State} (img : SourceImage) (last : Word) (hs : s.src = some img) (hu : img.usable = true)
      (h : TimeAside { s with lastScroll := last, frame := img.visible s.cursor,
                              cursor := (s.cursor + 1) % img.width } t) : WholeEffect s t
  | run {s t : State} (e : Bool) (hr : s.mode = .ready) (hm : s.gmap = .mapped) (ht : s.tmap = .mapped)
      (h : t = { s with
        scrollEn := e, lastScroll := t.cnt, mode := .running, pos := Pos.start, phase := .poll,
        trace := .read .timer s.platform.timerWord t.cnt :: s.trace, cnt := t.cnt, env := t.env, draws := t.draws }) :
      WholeEffect s t
  | opened {s : State} (w : Window) (hr : s.mode = .reset) (h : s.handle w = .unmapped) :
      WholeEffect s (s.setHandle w .mapped)
  | tinit {s : State} (hr : s.mode = .reset) (h : s.tmap = .unmapped) :
      WholeEffect s (readyIf (s.gmap == .mapped && s.initCompleted) (s.setHandle .timer .mapped))
  | closed {s : State} (w : Window) (h : s.handle w = .mapped) : WholeEffect s (s.setHandle w .released)
  | teardown {s : State} : WholeEffect s { s with gmap := s.gmap.release, tmap := s.tmap.release }
  /-- a mapping fault of MAPOPEN, INIT or TINIT -/
  | mapFault {s : State} (e : ErrCode) (he : e ≠ .none) (hr : s.mode = .reset) : WholeEffect s (raise e s)

/-- INIT is over in its first step only if its window cannot be mapped (44_system.md R222). -/
theorem execInit_whole {n : Word} {s t : State} (hf : firstStep (.init n) s = none) (h : exec (.init n) s = .next t) :
    WholeEffect s t := by
  obtain ⟨ha, h⟩ := of_accepted (execInit_eq n s ▸ h)
  simp only [acceptedIn, Bool.and_eq_true, beq_iff_eq] at ha
  rcases openWindow_cases .gpio s with ⟨-, ho⟩ | ⟨-, -, ho⟩ | ⟨-, -, ho⟩
  · rw [ho] at h
    obtain rfl := Host.Outcome.next.inj h
    exact .mapFault _ (by decide) ha.1
  · rw [ho] at h
    obtain rfl := Host.Outcome.next.inj h
    exact .mapFault _ (by decide) ha.1
  · simp [firstStep, ho] at hf

/-- An operation done whole in one step does one of these things. -/
theorem exec_wholeEffect {i : Instr} {s t : State} (hf : firstStep i s = none) (h : exec i s = .next t) :
    WholeEffect s t := by
  obtain ⟨ha, he⟩ := exec_effect h
  have reset : ∀ {b : Bool}, (s.mode == .reset && b) = true → s.mode = .reset := by
    intro b hb
    simp only [Bool.and_eq_true, beq_iff_eq] at hb
    exact hb.1
  cases he with
  | pins p r hp hk => exact .pins p r hp hk
  | load img last hs hu hk => exact .load img last hs hu hk
  | run e hm ht hk => exact .run e (beq_iff_eq.mp ha) hm ht hk
  | opened w hw => exact .opened w (reset ha) hw
  | tinit hw => exact .tinit (reset ha) hw
  | closed w hw => exact .closed w hw
  | teardown => exact .teardown
  | mapFault e he hr hi => exact .mapFault e he hr
  | oneOutput pin k hm hk hc => cases hf
  | outputs mask hm hk hc => cases hf
  | init n hg hr hw hk hc => exact execInit_whole hf h
  | initFault n hg hr hw hk hc => exact execInit_whole hf h

/-! ### A task's step -/

/-- A task fits a MODE whatever its accesses are. -/
theorem busy_fits {task : Task} {a : Access} {rest : List Access} {m : Mode}
    (h : (Phase.busy task a rest).fits m = true) (b : Access) (bs : List Access) :
    (Phase.busy task b bs).fits m = true := by
  cases task <;> exact h

/-- A task's first step: complete at once, or one access. -/
theorem start_cases {task : Task} {as : List Access} {s t : State} (h : start task as s = .ok t) :
    as = [] ∧ t = completeTask task s ∨
      ∃ a rest more u, as = a :: rest ∧ Performed a s more u ∧ t = carryOn task u (more ++ rest) := by
  cases as with
  | nil => exact .inl ⟨rfl, (Except.ok.inj h).symm⟩
  | cons a rest =>
    obtain ⟨more, u, hu, ht⟩ := proceed_inv h
    exact .inr ⟨a, rest, more, u, rfl, hu, ht⟩

/-! ### The tasks' MODEs (30_encoding.md R102) -/

theorem plain_fits {m : Mode} (hm : m = .reset ∨ m = .ready) (a : Access) (rest : List Access) :
    (Phase.busy .plain a rest).fits m = true := by
  rcases hm with rfl | rfl <;> rfl

theorem outputs_fits {m : Mode} (hm : m = .reset ∨ m = .ready) (pins : PinMask) (a : Access) (rest : List Access) :
    (Phase.busy (.outputs pins) a rest).fits m = true := by
  rcases hm with rfl | rfl <;> rfl

theorem init_fits {m : Mode} (hm : m = .reset) (pins : PinMask) (a : Access) (rest : List Access) :
    (Phase.busy (.init pins) a rest).fits m = true := by
  rw [hm]; rfl

/-- The task is made of micro-operations. -/
def Task.IsMarch (task : Task) : Prop := task = .rowPlane ∨ task = .sweep

theorem march_fits {task : Task} {m : Mode} (ht : task.IsMarch) (hm : m = .ready ∨ task = .sweep ∧ m = .running)
    (a : Access) (rest : List Access) : (Phase.busy task a rest).fits m = true := by
  rcases hm with rfl | ⟨rfl, rfl⟩
  · rcases ht with rfl | rfl <;> rfl
  · rfl

end Sys2Proof.Machine
end

section
/-! SUPPORT. The invariant holds at the start, and every step keeps it: its parts that hold whatever is under way, and its
parts that say what is left of a task, are each kept by an access and by what the last access completes (10_state.md R48,
70_reset_and_hazards.md R283). -/

namespace Sys2Proof.Machine

/-! ### The invariant's two halves -/

/-- The parts of the invariant that hold whatever is under way. -/
structure State.Settled (s : State) : Prop where
  inBits_zero : s.inBits = 0
  col_zero : s.pos.step ≠ .shift → s.pos.col = 0
  err_iff_faulted : s.err ≠ .none ↔ s.mode = .faulted
  faulted_unmapped : s.mode = .faulted → s.gmap ≠ .mapped ∧ s.tmap ≠ .mapped
  running_mapped : s.mode = .running → s.gmap = .mapped ∧ s.tmap = .mapped
  outBits_valid : s.outBits &&& ~~~s.platform.validPins = 0
  outBits_output : ∀ k : PinIndex, s.outBits.getLsbD k.val = true → isOutput s.fsel k = true
  unmapped_untouched : s.gmap = .unmapped → s.outBits = 0
  constructed_init : s.constructed = true → s.initCompleted = true
  after_init : s.initCompleted = true →
    s.rowMask = rowMaskFor s.platform.pins Config.doubleRows ∧ s.timing = timingTable ∧
      initWant s.platform.pins s.rowMask &&& ~~~s.outBits = 0
  cursor_range : ∀ img, s.src = some img → s.cursor < img.width

/-- The pins a task configures. -/
def Task.pins : Task → PinMask
  | .plain => 0
  | .outputs m => m
  | .init m => m
  | .rowPlane => 0
  | .sweep => 0
  | .stop => 0

/-- The parts of the invariant that say what is left of a task, with these accesses still to make, none left included. -/
structure Pending (task : Task) (as : List Access) (s : State) : Prop where
  fits : ∀ a rest, (Phase.busy task a rest).fits s.mode = true
  write_back_last : ∀ k old, .configureWrite k old ∉ as.tail
  write_back_fresh : ∀ k old, as.head? = some (.configureWrite k old) → old = s.fsel[fselWordOf k]
  valid : task.pins &&& ~~~s.platform.validPins = 0
  mapped : task.pins ≠ 0 → s.gmap = .mapped
  output : ∀ k : PinIndex, task.pins.getLsbD k.val = true →
    isOutput s.fsel k = true ∨ .configure k ∈ as ∨ ∃ old, .configureWrite k old ∈ as
  rowMask : ∀ m, task = .init m → s.rowMask = rowMaskFor s.platform.pins Config.doubleRows
  clears : task.IsMarch → ∀ mask left, .clear mask left ∈ as → ∃ n, .clear mask n ∈ s.microAccesses s.pos
  dwell_last : task.IsMarch → s.pos.step = .dwell → as ≠ [] →
    ∃ left, as.getLast? = some (.set (pinBit s.platform.pins.oe) left)
  stop : task = .stop → as = [] ∨ ∃ left, as = [.set (pinBit s.platform.pins.oe) left]

theorem busy_configuredPins (task : Task) (a : Access) (rest : List Access) :
    (Phase.busy task a rest).configuredPins = task.pins := by
  cases task <;> rfl

theorem busy_inInit {task : Task} {a : Access} {rest : List Access} :
    (Phase.busy task a rest).inInit = true ↔ ∃ m, task = .init m := by
  cases task <;> simp [Phase.inInit]

theorem busy_inMicro_iff {task : Task} {a : Access} {rest : List Access} :
    (Phase.busy task a rest).inMicro = true ↔ task.IsMarch := by
  cases task <;> simp [Phase.inMicro, Task.IsMarch]

theorem State.Inv.settled {s : State} (h : s.Inv) : s.Settled := { h with }

/-- Inside a task the invariant says what is left of it. -/
theorem State.Inv.pending {s : State} {task : Task} {a : Access} {rest : List Access} (h : s.Inv)
    (hp : s.phase = .busy task a rest) : Pending task (a :: rest) s := by
  obtain ⟨-, -, -, -, -, -, -, -, -, -, -, hfit, hlast, hfresh, hvalid, hmapped, hout, hrow, hmic, hstop⟩ := h
  rw [hp] at hfit hlast hfresh hvalid hmapped hout hrow hmic hstop
  rw [busy_configuredPins] at hvalid hmapped hout
  rw [busy_inInit] at hrow
  rw [busy_inMicro_iff] at hmic
  exact {
    fits := busy_fits hfit
    write_back_last := hlast
    write_back_fresh := hfresh
    valid := hvalid
    mapped := hmapped
    output := hout
    rowMask := fun m hm => hrow ⟨m, hm⟩
    clears := fun hm => (hmic hm).1
    dwell_last := fun hm hd _ => (hmic hm).2 hd
    stop := fun ht => by
      obtain ⟨rfl, left, rfl⟩ := hstop a rest (by rw [ht])
      exact .inr ⟨left, rfl⟩ }

/-- The two halves make the invariant, inside a task. -/
theorem State.Settled.inv_busy {s : State} {task : Task} {a : Access} {rest : List Access} (h : s.Settled)
    (hp : Pending task (a :: rest) s) : State.Inv { s with phase := .busy task a rest } :=
  { h with
    phase_fits := hp.fits a rest
    write_back_last := hp.write_back_last
    write_back_fresh := hp.write_back_fresh
    configured_valid := by rw [busy_configuredPins]; exact hp.valid
    configured_mapped := by rw [busy_configuredPins]; exact hp.mapped
    configured_output := by rw [busy_configuredPins]; exact hp.output
    init_rowMask := fun hi => let ⟨m, hm⟩ := busy_inInit.mp hi; hp.rowMask m hm
    micro_accesses := fun hm =>
      have hm' := busy_inMicro_iff.mp hm
      ⟨hp.clears hm', fun hd => hp.dwell_last hm' hd (by simp)⟩
    stop_accesses := fun b bs hb => by
      obtain ⟨rfl, rfl, rfl⟩ := Phase.busy.inj hb
      obtain hnil | ⟨left, hl⟩ := hp.stop rfl
      · cases hnil
      · obtain ⟨rfl, rfl⟩ := List.cons.inj hl
        exact ⟨rfl, left, rfl⟩ }

/-- Outside a task the first half and the phase's MODE make the invariant. -/
theorem State.Settled.inv {s : State} (h : s.Settled) (hf : s.phase.fits s.mode = true)
    (hb : ∀ task a rest, s.phase ≠ .busy task a rest) : s.Inv := by
  obtain ⟨ha, hc, hi, hm⟩ : s.phase.accesses = [] ∧ s.phase.configuredPins = 0 ∧ s.phase.inInit = false ∧
      s.phase.inMicro = false := by
    cases hp : s.phase with
    | idle => exact ⟨rfl, rfl, rfl, rfl⟩
    | poll => exact ⟨rfl, rfl, rfl, rfl⟩
    | scroll => exact ⟨rfl, rfl, rfl, rfl⟩
    | load now => exact ⟨rfl, rfl, rfl, rfl⟩
    | busy task a rest => exact absurd hp (hb task a rest)
  exact { h with
    phase_fits := hf
    write_back_last := by simp [ha]
    write_back_fresh := by simp [ha]
    configured_valid := by simp [hc]
    configured_mapped := by simp [hc]
    configured_output := by simp [hc]
    init_rowMask := by simp [hi]
    micro_accesses := by simp [hm]
    stop_accesses := fun a rest hp => absurd hp (hb .stop a rest) }

/-- Idle outside Running. -/
theorem State.Settled.inv_idle {s : State} (h : s.Settled) (hi : s.phase = .idle) (hm : s.mode ≠ .running) : s.Inv :=
  h.inv (by rw [hi]; simpa [Phase.fits] using hm) (by rw [hi]; simp)

/-! ### What the first half does not look at -/

theorem State.Settled.of_aside {s t : State} (h : s.Settled)
    (e : t = { s with
      slowdown := t.slowdown, res := t.res, phase := t.phase, stopReq := t.stopReq, scrollEn := t.scrollEn,
      outlatch := t.outlatch, cnt := t.cnt, frame := t.frame, lastScroll := t.lastScroll, panel := t.panel,
      trace := t.trace, env := t.env, draws := t.draws, inputs := t.inputs, stopAfter := t.stopAfter }) : t.Settled := by
  rw [e]
  exact { h with }

/-- Another place in the sweep. -/
theorem State.Settled.move {s : State} (h : s.Settled) {p : Pos} (hp : p.step ≠ .shift → p.col = 0) :
    State.Settled { s with pos := p } :=
  { h with col_zero := hp }

/-- The scroll load keeps CURSOR in range (10_state.md R44). -/
theorem State.Settled.load {s : State} (h : s.Settled) {img : SourceImage} (hs : s.src = some img)
    (hu : img.usable = true) (frame : FrameGrid) :
    State.Settled { s with frame := frame, cursor := (s.cursor + 1) % img.width } :=
  { h with
    cursor_range := fun img' hi => by
      obtain rfl := Option.some.inj (hs.symm.trans hi)
      have := usable_width hu
      exact Nat.mod_lt _ (by omega) }

theorem release_ne_mapped (h : Handle) : h.release ≠ .mapped := by cases h <;> decide

theorem release_eq_unmapped {h : Handle} : h.release = .unmapped ↔ h = .unmapped := by cases h <;> decide

/-- A fault in Reset (60_exceptions.md R246). -/
theorem State.Settled.raise {s : State} (h : s.Settled) {e : ErrCode} (he : e ≠ .none) :
    (Machine.raise e s).Settled :=
  { h with
    err_iff_faulted := ⟨fun _ => rfl, fun _ => he⟩
    faulted_unmapped := fun _ => ⟨release_ne_mapped _, release_ne_mapped _⟩
    running_mapped := fun hm => by cases hm
    unmapped_untouched := fun hg => h.unmapped_untouched (release_eq_unmapped.mp hg)
    constructed_init := fun hc => by cases hc }

/-- Outside Faulted no error is recorded. -/
theorem State.Settled.err_none {s : State} (h : s.Settled) (hm : s.mode ≠ .faulted) : s.err = .none :=
  Decidable.byContradiction fun he => hm (h.err_iff_faulted.mp he)

/-- MODE moves on after a complete INIT, with the windows mapped where it matters. -/
theorem State.Settled.toMode {s : State} (h : s.Settled) {m : Mode} (hm : s.mode ≠ .faulted) (hf : m ≠ .faulted)
    (hi : s.initCompleted = true) (hr : m = .running → s.gmap = .mapped ∧ s.tmap = .mapped) :
    State.Settled { s with mode := m } :=
  { h with
    err_iff_faulted := ⟨fun he => absurd (h.err_none hm) he, fun h' => absurd h' hf⟩
    faulted_unmapped := fun h' => absurd h' hf
    running_mapped := hr
    constructed_init := fun _ => hi }

/-- Handles outside Running and Faulted; what nothing was mapped for stays untouched. -/
theorem State.Settled.handles {s : State} (h : s.Settled) (hr : s.mode ≠ .running) {g t : Handle}
    (hf : s.mode = .faulted → g ≠ .mapped ∧ t ≠ .mapped) (hg : g = .unmapped → s.gmap = .unmapped) :
    State.Settled { s with gmap := g, tmap := t } :=
  { h with
    faulted_unmapped := hf
    running_mapped := fun hm => absurd hm hr
    unmapped_untouched := fun hu => h.unmapped_untouched (hg hu) }

/-! ### One access of a task -/

/-- Only a read-modify-write's read leaves a write-back, of the word it has read. -/
theorem Performed.write_back {a : Access} {s t : State} {more : List Access} (h : Performed a s more t) {k : PinIndex}
    {old : Word} (hk : .configureWrite k old ∈ more) : more = [.configureWrite k old] ∧ old = t.fsel[fselWordOf k] := by
  cases h with
  | set mask left hg => cases left <;> simp [burstRest] at hk
  | clear mask left hg => cases left <;> simp [burstRest] at hk
  | configure j hg =>
    obtain ⟨rfl, rfl⟩ := Access.configureWrite.inj (List.mem_singleton.mp hk)
    exact ⟨rfl, rfl⟩
  | configureWrite j w hg => cases hk
  | delay ha hm ht e he htr => exact absurd (List.all_eq_true.mp hm _ hk) Bool.false_ne_true

/-- A clear leaves only its own repetition. -/
theorem Performed.clear_mem {a : Access} {s t : State} {more : List Access} (h : Performed a s more t) {mask : PinMask}
    {left : Nat} (hk : .clear mask left ∈ more) : ∃ n, a = .clear mask n := by
  cases h with
  | set m n hg => cases n <;> simp [burstRest] at hk
  | clear m n hg =>
    cases n with
    | zero => cases hk
    | succ n => exact ⟨n + 1, by rw [(Access.clear.inj (List.mem_singleton.mp hk)).1]⟩
  | configure j hg => simp at hk
  | configureWrite j w hg => cases hk
  | delay ha hm ht e he htr => exact absurd (List.all_eq_true.mp hm _ hk) Bool.false_ne_true

/-- A set leaves nothing or its own repetition. -/
theorem Performed.after_set {s t : State} {more : List Access} {mask : PinMask} {n : Nat}
    (h : Performed (.set mask n) s more t) : more = [] ∨ ∃ left, more = [.set mask left] := by
  cases h with
  | set m n hg =>
    cases n with
    | zero => exact .inl rfl
    | succ n => exact .inr ⟨n, rfl⟩
  | delay ha => cases ha

/-- The read of a read-modify-write leaves its write-back. -/
theorem Performed.after_configure {s t : State} {more : List Access} {k : PinIndex}
    (h : Performed (.configure k) s more t) : ∃ old, more = [.configureWrite k old] := by
  cases h with
  | configure k hg => exact ⟨_, rfl⟩
  | delay ha => cases ha

/-- A fresh write-back makes its pin an output; no other access writes a function-select word (40_gpio.md R120). -/
theorem Performed.fsel {a : Access} {s t : State} {more : List Access} (h : Performed a s more t)
    (hfresh : ∀ k old, a = .configureWrite k old → old = s.fsel[fselWordOf k]) :
    t.fsel = s.fsel ∧ (∀ k old, a ≠ .configureWrite k old) ∨
      ∃ k old, a = .configureWrite k old ∧ t.fsel = withOutput s.fsel k := by
  cases h with
  | set mask left hg => exact .inl ⟨rfl, by simp⟩
  | clear mask left hg => exact .inl ⟨rfl, by simp⟩
  | configure k hg => exact .inl ⟨rfl, by simp⟩
  | configureWrite k old hg =>
    obtain rfl := hfresh k old rfl
    exact .inr ⟨k, _, rfl, rfl⟩
  | delay ha hm ht e he htr => exact .inl ⟨ht.fsel, fun k old hk => by rw [hk] at ha; cases ha⟩

theorem isOutput_withOutput_self (fsel : Vector Word 3) (k : PinIndex) : isOutput (withOutput fsel k) k = true := by
  unfold isOutput
  rw [fselField_withOutput_self]; rfl

/-- Configuring a pin takes no output away. -/
theorem isOutput_withOutput {fsel : Vector Word 3} {j : PinIndex} (h : isOutput fsel j = true) (k : PinIndex) :
    isOutput (withOutput fsel k) j = true := by
  by_cases hj : j = k
  · rw [hj]; exact isOutput_withOutput_self fsel k
  · unfold isOutput at *
    rwa [fselField_withOutput_other fsel hj]

theorem Performed.isOutput {a : Access} {s t : State} {more : List Access} (h : Performed a s more t)
    (hfresh : ∀ k old, a = .configureWrite k old → old = s.fsel[fselWordOf k]) {j : PinIndex}
    (hj : isOutput s.fsel j = true) : isOutput t.fsel j = true := by
  rcases h.fsel hfresh with ⟨he, -⟩ | ⟨k, -, -, he⟩
  · rwa [he]
  · rw [he]; exact isOutput_withOutput hj k

theorem BusAside.microAccesses {s t : State} (h : BusAside s t) (p : Pos) : t.microAccesses p = s.microAccesses p := by
  rw [h]; rfl

/-- An access keeps the first half: it changes no more than the bus shows, and takes no output away. -/
theorem State.Settled.performed {a : Access} {s t : State} {more : List Access} (h : s.Settled)
    (hu : Performed a s more t) (hfresh : ∀ k old, a = .configureWrite k old → old = s.fsel[fselWordOf k]) :
    t.Settled := by
  have hout : ∀ k : PinIndex, s.outBits.getLsbD k.val = true → isOutput t.fsel k = true :=
    fun k hk => hu.isOutput hfresh (h.outBits_output k hk)
  rw [hu.busAside]
  exact { h with outBits_output := hout }

/-- A list of accesses that ends with a set still does after an access, until it is used up. -/
theorem Performed.getLast_set {a : Access} {rest more : List Access} {s t : State} {mask : PinMask}
    (hu : Performed a s more t) (h : ∃ left, (a :: rest).getLast? = some (.set mask left)) (hne : more ++ rest ≠ []) :
    ∃ left, (more ++ rest).getLast? = some (.set mask left) := by
  obtain ⟨left, hl⟩ := h
  cases rest with
  | nil =>
    obtain rfl : a = .set mask left := Option.some.inj hl
    rcases hu.after_set with rfl | ⟨left', rfl⟩
    · exact absurd rfl hne
    · exact ⟨left', rfl⟩
  | cons b bs =>
    rw [List.getLast?_cons_cons] at hl
    exact ⟨left, by rw [List.getLast?_append, hl]; rfl⟩

/-- What is written back next has just been read. -/
theorem Pending.fresh {task : Task} {a : Access} {rest : List Access} {s : State} (h : Pending task (a :: rest) s) :
    ∀ k old, a = .configureWrite k old → old = s.fsel[fselWordOf k] :=
  fun k old ha => h.write_back_fresh k old (by rw [ha]; rfl)

/-- After an access each pin of a task is an output or still to come: its read leaves its write-back, and that makes it an
output (40_gpio.md R120). -/
theorem Pending.output_performed {task : Task} {a : Access} {rest more : List Access} {s t : State}
    (h : Pending task (a :: rest) s) (hu : Performed a s more t) {k : PinIndex}
    (hk : task.pins.getLsbD k.val = true) : isOutput t.fsel k = true ∨ .configure k ∈ more ++ rest ∨
      ∃ old, .configureWrite k old ∈ more ++ rest := by
  rcases h.output k hk with ho | hc | ⟨old, hw⟩
  · exact .inl (hu.isOutput h.fresh ho)
  · rcases List.mem_cons.mp hc with rfl | hc
    · obtain ⟨old, rfl⟩ := hu.after_configure
      exact .inr (.inr ⟨old, List.mem_append_left _ List.mem_cons_self⟩)
    · exact .inr (.inl (List.mem_append_right _ hc))
  · rcases List.mem_cons.mp hw with rfl | hw
    · rcases hu.fsel h.fresh with ⟨-, hn⟩ | ⟨j, old', ha, he⟩
      · exact absurd rfl (hn k old)
      · obtain ⟨rfl, -⟩ := Access.configureWrite.inj ha
        exact .inl (by rw [he]; exact isOutput_withOutput_self s.fsel k)
    · exact absurd hw (h.write_back_last k old)

/-- An access keeps the second half. -/
theorem Pending.performed {task : Task} {a : Access} {rest more : List Access} {s t : State}
    (h : Pending task (a :: rest) s) (hu : Performed a s more t) : Pending task (more ++ rest) t := by
  have hb := hu.busAside
  have hrest : ∀ k old, .configureWrite k old ∉ rest := h.write_back_last
  exact {
    fits := by rw [hb.mode]; exact h.fits
    write_back_last := fun k old hk => by
      cases more with
      | nil => exact hrest k old (List.mem_of_mem_tail hk)
      | cons b bs =>
        rcases List.mem_append.mp (show _ ∈ bs ++ rest from hk) with hk | hk
        · have := (hu.write_back (List.mem_cons_of_mem b hk)).1
          obtain ⟨-, rfl⟩ := List.cons.inj this
          cases hk
        · exact hrest k old hk
    write_back_fresh := fun k old hk => by
      cases more with
      | nil => exact absurd (List.mem_of_mem_head? hk) (hrest k old)
      | cons b bs =>
        obtain rfl : b = .configureWrite k old := Option.some.inj hk
        exact (hu.write_back List.mem_cons_self).2
    valid := by rw [hb.platform]; exact h.valid
    mapped := by rw [hb.gmap]; exact h.mapped
    output := fun k => h.output_performed hu
    rowMask := by rw [hb.rowMask, hb.platform]; exact h.rowMask
    clears := fun hm mask left hk => by
      rw [hb.microAccesses, hb.pos]
      rcases List.mem_append.mp hk with hk | hk
      · obtain ⟨n, rfl⟩ := hu.clear_mem hk
        exact h.clears hm mask n List.mem_cons_self
      · exact h.clears hm mask left (List.mem_cons_of_mem a hk)
    dwell_last := fun hm hd hne => by
      rw [hb.platform]
      exact hu.getLast_set (h.dwell_last hm (by rw [← hb.pos]; exact hd) (by simp)) hne
    stop := fun ht => by
      rw [hb.platform]
      rcases h.stop ht with hnil | ⟨left, hl⟩
      · cases hnil
      · obtain ⟨rfl, rfl⟩ := List.cons.inj hl
        rw [List.append_nil]
        exact hu.after_set }

/-! ### The first access, and what the last one completes -/

/-- The controller enters a micro-operation: its accesses are all to come (43_sequencer.md R191). -/
theorem Pending.march {task : Task} {s : State} (ht : task.IsMarch)
    (hf : ∀ a rest, (Phase.busy task a rest).fits s.mode = true) (p : Pos) :
    Pending task (s.microAccesses p) { s with pos := p } := by
  have hpins : task.pins = 0 := by rcases ht with rfl | rfl <;> rfl
  exact {
    fits := hf
    write_back_last := fun k old hk => micro_no_write_back s p k old (List.mem_of_mem_tail hk)
    write_back_fresh := fun k old hk => absurd (List.mem_of_mem_head? hk) (micro_no_write_back s p k old)
    valid := by simp [hpins]
    mapped := fun hn => absurd hpins hn
    output := by simp [hpins]
    rowMask := fun m hm => by rcases ht with rfl | rfl <;> cases hm
    clears := fun _ mask left hk => ⟨left, hk⟩
    dwell_last := fun _ hd _ => by
      obtain ⟨dr, pl, col, st⟩ := p
      obtain rfl : st = .dwell := hd
      exact ⟨s.slowdown.toNat, by
        simp [State.microAccesses, State.dwelling, State.setting, List.getLast?_append]⟩
    stop := fun hs => by rcases ht with rfl | rfl <;> cases hs }

/-- The invariant at the start of a micro-operation. -/
theorem State.Settled.inv_micro {task : Task} {s : State} (h : s.Settled) (ht : task.IsMarch)
    (hf : ∀ a rest, (Phase.busy task a rest).fits s.mode = true) {p : Pos} (hp : p.step ≠ .shift → p.col = 0) :
    State.Inv { s with pos := p, phase := s.microPhase task p } := by
  have hpend := Pending.march ht hf p
  obtain ⟨a, rest, hl⟩ := microAccesses_cons s p
  unfold State.microPhase
  rw [hl] at hpend ⊢
  exact (h.move hp).inv_busy hpend

/-- COL is 0 outside step 2, also at the next micro-operation (43_sequencer.md R191). -/
theorem Pos.next_col {p : Pos} (h : p.step ≠ .shift → p.col = 0) : p.next.step ≠ .shift → p.next.col = 0 := by
  obtain ⟨dr, pl, col, st⟩ := p
  cases st with
  | clearBefore => exact fun _ => rfl
  | shift =>
    intro hs
    unfold Pos.next at hs ⊢
    by_cases hc : col.val < 31
    · simp [hc] at hs
    · simp [hc]
  | clearAfter => exact fun _ => h (by simp)
  | address => exact fun _ => h (by simp)
  | latch => exact fun _ => h (by simp)
  | dwell => exact fun _ => afterRowPlane_col dr pl

theorem phaseAfterScroll_fits (s : State) : s.phaseAfterScroll.fits s.mode = true := by
  unfold State.phaseAfterScroll
  split <;> simp [Phase.fits, *]

theorem phaseAfterScroll_rests (s : State) (task : Task) (a : Access) (rest : List Access) :
    s.phaseAfterScroll ≠ .busy task a rest := by
  unfold State.phaseAfterScroll
  split <;> simp

theorem phaseAfterSweep_fits (s : State) : s.phaseAfterSweep.fits s.mode = true := by
  unfold State.phaseAfterSweep
  split
  · split <;> simp [Phase.fits, *]
  · simp [Phase.fits, *]

theorem phaseAfterSweep_rests (s : State) (task : Task) (a : Access) (rest : List Access) :
    s.phaseAfterSweep ≠ .busy task a rest := by
  unfold State.phaseAfterSweep
  split
  · split <;> simp
  · simp

theorem or_and_not_eq_zero {a b v : Word} (ha : a &&& ~~~v = 0) (hb : b &&& ~~~v = 0) : (a ||| b) &&& ~~~v = 0 := by
  rw [show (a ||| b) &&& ~~~v = a &&& ~~~v ||| b &&& ~~~v by ext i; simp [Bool.and_or_distrib_right], ha, hb]; rfl

theorem and_not_or_eq_zero {w a b : Word} (h : w &&& ~~~a = 0 ∨ w &&& ~~~b = 0) : w &&& ~~~(a ||| b) = 0 := by
  rw [BitVec.not_or]
  rcases h with h | h
  · rw [← BitVec.and_assoc, h]; exact BitVec.zero_and
  · rw [BitVec.and_comm (~~~a), ← BitVec.and_assoc, h]; exact BitVec.zero_and

/-- The pins just configured enter OUT_BITS (40_gpio.md R121). -/
theorem State.Settled.nowConfigured {s : State} (h : s.Settled) {m : PinMask}
    (hv : m &&& ~~~s.platform.validPins = 0) (hm : m ≠ 0 → s.gmap = .mapped)
    (ho : ∀ k : PinIndex, m.getLsbD k.val = true → isOutput s.fsel k = true) : (s.nowConfigured m).Settled :=
  { h with
    outBits_valid := or_and_not_eq_zero h.outBits_valid hv
    outBits_output := fun k hk => by
      rw [State.nowConfigured_outBits, BitVec.getLsbD_or, Bool.or_eq_true] at hk
      exact hk.elim (h.outBits_output k) (ho k)
    unmapped_untouched := fun hg => by
      have hm0 : m = 0 := Decidable.byContradiction fun hn => by
        rw [State.nowConfigured_gmap, hm hn] at hg
        cases hg
      rw [State.nowConfigured_outBits, h.unmapped_untouched hg, hm0]; rfl
    after_init := fun hi => by
      obtain ⟨hr, ht, hw⟩ := h.after_init hi
      exact ⟨hr, ht, and_not_or_eq_zero (.inl hw)⟩ }

/-- With every access made, the pins of a task are outputs. -/
theorem Pending.done {task : Task} {s : State} (h : Pending task [] s) {k : PinIndex}
    (hk : task.pins.getLsbD k.val = true) : isOutput s.fsel k = true := by
  simpa using h.output k hk

/-- The timing table is one of a complete INIT (44_system.md R223). -/
theorem timingTable_first : (timingTable[0] == BitVec.ofNat 32 Config.baseDwell) = true := by decide

/-- INIT's end in Reset: complete, or the configuration fault (44_system.md R222). -/
theorem State.Settled.finishInit {s : State} (h : s.Settled) (hm : s.mode = .reset)
    (hr : s.rowMask = rowMaskFor s.platform.pins Config.doubleRows) (ho : s.res &&& ~~~s.outBits = 0) :
    (finishInit (initWant s.platform.pins s.rowMask) s).Settled := by
  unfold Machine.finishInit
  split
  · next hw =>
    have hs : State.Settled { s with timing := timingTable } :=
      { h with
        constructed_init := fun _ => timingTable_first
        after_init := fun _ => ⟨hr, rfl, by rw [← hw]; exact ho⟩ }
    cases s.tmap == .mapped with
    | false => exact hs
    | true => exact hs.toMode (m := .ready) (by simp [hm]) (by simp) timingTable_first (by simp)
  · exact h.raise (by simp)

theorem finishInit_mode (want : PinMask) (s : State) : (finishInit want s).mode =
    if s.res = want then if s.tmap = .mapped then .ready else s.mode else .faulted := by
  unfold finishInit
  split
  · simp
  · rfl

/-- Only a sweep and stop entry are under way in Running (43_sequencer.md R189). -/
theorem Pending.not_running {task : Task} {as : List Access} {s : State} (h : Pending task as s) (hw : task ≠ .sweep)
    (ht : task ≠ .stop) : s.mode ≠ .running := by
  intro hm
  have hf := h.fits (.set 0 0) []
  rw [hm] at hf
  cases task with
  | sweep => exact hw rfl
  | stop => exact ht rfl
  | plain => cases hf
  | outputs m => cases hf
  | init m => cases hf
  | rowPlane => cases hf

/-- A task's completion leaves the invariant. -/
theorem State.Settled.completeTask {task : Task} {s : State} (h : s.Settled) (hp : Pending task [] s) :
    (completeTask task s).Inv := by
  have hfits := hp.fits
  cases task with
  | plain =>
    refine (h.of_aside rfl : State.Settled { s with phase := .idle }).inv_idle rfl (hp.not_running (by simp) (by simp))
  | outputs m =>
    refine ((h.nowConfigured hp.valid hp.mapped fun k hk => hp.done hk).of_aside rfl :
      State.Settled { s.nowConfigured m with phase := .idle }).inv_idle rfl (hp.not_running (by simp) (by simp))
  | init m =>
    have hm : s.mode = .reset := by simpa [Phase.fits] using hfits (.set 0 0) []
    have hs := (h.nowConfigured hp.valid hp.mapped fun k hk => hp.done hk).finishInit hm (hp.rowMask m rfl)
      (and_not_or_eq_zero (.inr (BitVec.and_not_self m)))
    refine (hs.of_aside rfl : State.Settled
      { Machine.finishInit (initWant s.platform.pins s.rowMask) (s.nowConfigured m) with phase := .idle }).inv_idle rfl ?_
    show (Machine.finishInit _ _).mode ≠ _
    rw [finishInit_mode]
    split
    · split <;> simp [hm]
    · simp
  | rowPlane =>
    have hc := Pos.next_col h.col_zero
    by_cases hd : s.pos.step = .dwell
    · have hm : s.mode = .ready := by simpa [Phase.fits] using hfits (.set 0 0) []
      have hs : State.Settled { s with pos := s.pos.next, phase := .idle } := (h.move hc).of_aside rfl
      simpa [Machine.completeTask, hd] using hs.inv_idle rfl (by simp [hm])
    · simpa [Machine.completeTask, hd] using h.inv_micro (.inl rfl) hfits hc
  | sweep =>
    have hc := Pos.next_col h.col_zero
    by_cases hd : s.pos.endsSweep = true
    · have hs : State.Settled { s with pos := s.pos.next, phase := s.phaseAfterSweep } := (h.move hc).of_aside rfl
      simpa [Machine.completeTask, hd] using hs.inv (phaseAfterSweep_fits s) (phaseAfterSweep_rests s)
    · simpa [Machine.completeTask, hd] using h.inv_micro (.inr rfl) hfits hc
  | stop =>
    have hm : s.mode = .running := by simpa [Phase.fits] using hfits (.set 0 0) []
    have hs := h.toMode (m := .stopped) (by simp [hm]) (by simp) (h.constructed_init (by simp [State.constructed, hm]))
      (by simp)
    exact (hs.of_aside rfl : State.Settled { s with mode := .stopped, phase := .idle }).inv_idle rfl (by simp)

/-- With accesses left or none, a task's next state meets the invariant. -/
theorem State.Settled.carryOn {task : Task} {as : List Access} {s : State} (h : s.Settled) (hp : Pending task as s) :
    (carryOn task s as).Inv := by
  cases as with
  | nil => exact h.completeTask hp
  | cons a rest => exact h.inv_busy hp

/-- One access of a task keeps the invariant. -/
theorem State.Settled.access {task : Task} {a : Access} {rest more : List Access} {s u : State} (h : s.Settled)
    (hp : Pending task (a :: rest) s) (hu : Performed a s more u) : (Machine.carryOn task u (more ++ rest)).Inv :=
  (h.performed hu hp.fresh).carryOn (hp.performed hu)

/-- A task's first step leads to a state that meets the invariant. -/
theorem State.Settled.start {task : Task} {as : List Access} {s t : State} (h : s.Settled) (hp : Pending task as s)
    (hstart : Machine.start task as s = .ok t) : t.Inv := by
  obtain ⟨rfl, rfl⟩ | ⟨a, rest, more, u, rfl, hu, rfl⟩ := start_cases hstart
  · exact h.completeTask hp
  · exact h.access hp hu

/-! ### A task begins -/

theorem mem_configuring {m : PinMask} {k : PinIndex} : .configure k ∈ configuring m ↔ m.getLsbD k.val = true := by
  simp [configuring, pinsOf]

theorem configuring_no_write_back (m : PinMask) : ∀ k old, .configureWrite k old ∉ configuring m := by
  simp [configuring]

theorem newPins_valid (s : State) (mask : PinMask) : s.newPins mask &&& ~~~s.platform.validPins = 0 := by
  unfold State.newPins
  ext i hi
  simp only [BitVec.getElem_and, BitVec.getElem_not]
  cases s.platform.validPins[i] <;> simp

/-- A task with accesses that are no micro-operation's begins: nothing has been read, every pin is still to come. -/
theorem Pending.begun {task : Task} {as : List Access} {s : State}
    (hf : ∀ a rest, (Phase.busy task a rest).fits s.mode = true) (hw : ∀ k old, .configureWrite k old ∉ as)
    (hv : task.pins &&& ~~~s.platform.validPins = 0) (hg : task.pins ≠ 0 → s.gmap = .mapped)
    (ho : ∀ k : PinIndex, task.pins.getLsbD k.val = true → .configure k ∈ as)
    (hr : ∀ m, task = .init m → s.rowMask = rowMaskFor s.platform.pins Config.doubleRows) (hm : ¬ task.IsMarch)
    (hs : task ≠ .stop) : Pending task as s where
  fits := hf
  write_back_last k old hk := hw k old (List.mem_of_mem_tail hk)
  write_back_fresh k old hk := absurd (List.mem_of_mem_head? hk) (hw k old)
  valid := hv
  mapped := hg
  output k hk := .inr (.inl (ho k hk))
  rowMask := hr
  clears ht := absurd ht hm
  dwell_last ht := absurd ht hm
  stop ht := absurd ht hs

/-- A command of several accesses begins. -/
theorem State.Settled.begun {s t : State} (h : s.Settled) (hb : Begun s t) : t.Inv := by
  cases hb with
  | plain as hw hm hk =>
    exact h.start (.begun (plain_fits hm) hw (by simp [Task.pins]) (by simp [Task.pins]) (by simp [Task.pins])
      (by simp) (by simp [Task.IsMarch]) (by simp)) hk
  | outputs mask hm hg hk =>
    exact h.start (Pending.begun (task := .outputs (s.newPins mask)) (outputs_fits hm _)
      (configuring_no_write_back _) (newPins_valid s mask) (fun _ => hg) (fun k => mem_configuring.mpr) (by simp)
      (by simp [Task.IsMarch]) (by simp)) hk
  | init n hm hg hk =>
    have hs : State.Settled ((s.setHandle .gpio .mapped).withHoldings n) :=
      { h.handles (g := .mapped) (t := s.tmap) (by simp [hm]) (by simp [hm]) (by simp) with
        after_init := fun hi => by
          obtain ⟨hr, ht, hw⟩ := h.after_init hi
          rw [hr] at hw
          exact ⟨rfl, ht, hw⟩ }
    exact hs.start (Pending.begun (task := .init (s.newPins s.wantedPins)) (init_fits hm _)
      (configuring_no_write_back _) (newPins_valid s _) (fun _ => rfl) (fun k => mem_configuring.mpr) (fun _ _ => rfl)
      (by simp [Task.IsMarch]) (by simp)) hk
  | march task p ht hp hm hk =>
    exact (h.move fun _ => hp).start (Pending.march ht (march_fits ht hm) p) hk

/-- Stop entry begins (43_sequencer.md R190). -/
theorem Pending.stopEntry {s : State} (hm : s.mode = .running) (left : Nat) :
    Pending .stop [.set (pinBit s.platform.pins.oe) left] s where
  fits _ _ := by rw [hm]; rfl
  write_back_last := by simp
  write_back_fresh := by simp
  valid := by simp [Task.pins]
  mapped := by simp [Task.pins]
  output := by simp [Task.pins]
  rowMask := by simp
  clears := by simp [Task.IsMarch]
  dwell_last := by simp [Task.IsMarch]
  stop _ := .inr ⟨left, rfl⟩

/-! ### The steps of the loop that are no task's -/

/-- The scroll step's counter read: time passes, and the scroll load is next or the step between sweeps is over. -/
theorem scrollStep_inv {s t : State} (h : scrollStep s = .ok t) :
    (∃ now, t.phase = .load now) ∧ TimeAside { s with phase := t.phase } t ∨
      t.phase = s.phaseAfterScroll ∧ TimeAside { s with phase := t.phase } t := by
  obtain ⟨r, hr, h⟩ := bind_eq_ok.mp h
  obtain ⟨-, rfl⟩ := timerRead_inv hr
  obtain rfl := Except.ok.inj h
  by_cases hd : Config.scrollPeriodTicks ≤ elapsed s.lastScroll s.tick.cnt
  · exact .inl ⟨⟨_, if_pos hd⟩, rfl⟩
  · exact .inr ⟨if_neg hd, rfl⟩

theorem loadStep_inv {now : Word} {s t : State} (h : loadStep now s = .ok t) :
    ∃ img, s.src = some img ∧ img.usable = true ∧
      t = { s with
        frame := img.visible s.cursor, cursor := (s.cursor + 1) % img.width, lastScroll := now,
        phase := s.phaseAfterScroll } := by
  obtain ⟨u, hu, h⟩ := bind_eq_ok.mp h
  obtain ⟨img, hs, hus, rfl⟩ := advanceFrame_eq_ok.mp hu
  obtain rfl := Except.ok.inj h
  exact ⟨img, hs, hus, rfl⟩

theorem State.Settled.scrollStep {s t : State} (h : s.Settled) (hm : s.mode = .ready ∨ s.mode = .running)
    (hk : scrollStep s = .ok t) : t.Inv := by
  rcases scrollStep_inv hk with ⟨⟨now, hp⟩, a⟩ | ⟨hp, a⟩
  · have hs : t.Settled := h.of_aside (by rw [a])
    have hmode : t.mode = s.mode := a.mode
    exact hs.inv (by rw [hp, hmode]; simpa [Phase.fits] using hm) (by simp [hp])
  · have hs : t.Settled := h.of_aside (by rw [a])
    have hmode : t.mode = s.mode := a.mode
    exact hs.inv (by rw [hp, hmode]; exact phaseAfterScroll_fits s) (by rw [hp]; exact phaseAfterScroll_rests s)

theorem State.Settled.loadStep {now : Word} {s t : State} (h : s.Settled) (hk : loadStep now s = .ok t) : t.Inv := by
  obtain ⟨img, hs, hu, rfl⟩ := loadStep_inv hk
  exact ((h.load hs hu (img.visible s.cursor)).of_aside rfl).inv (phaseAfterScroll_fits s) (phaseAfterScroll_rests s)

/-! ### An operation that is whole in one step -/

/-- It leaves the invariant to the idle controller, or to RUN's loop. -/
theorem WholeEffect.inv {s t : State} (h : WholeEffect s t) (hs : s.Settled) (hi : s.phase = .idle)
    (hm : s.mode ≠ .running) : t.Inv := by
  cases h with
  | pins p r hp hk =>
    have hmove : State.Settled { s with pos := p, res := r } :=
      (hs.move (p := p) fun hstep => hp.elim (fun he => by rw [he] at hstep ⊢; exact hs.col_zero hstep) id).of_aside rfl
    have hset : t.Settled := hmove.of_aside (by rw [hk])
    exact hset.inv_idle (hk.phase.trans hi) (by rw [hk.mode]; exact hm)
  | load img last hsrc hu hk =>
    have hset : t.Settled := (hs.load hsrc hu (img.visible s.cursor)).of_aside (by rw [hk])
    exact hset.inv_idle (hk.phase.trans hi) (by rw [hk.mode]; exact hm)
  | run e hr hg ht hk =>
    have hmove : State.Settled { s with pos := Pos.start, mode := .running } :=
      (hs.toMode (m := .running) (by simp [hr]) (by simp) (hs.constructed_init (by simp [State.constructed, hr]))
        (fun _ => ⟨hg, ht⟩)).move (fun _ => rfl)
    rw [hk]
    exact (hmove.of_aside rfl).inv rfl (by simp)
  | opened w hr hw =>
    cases w with
    | gpio => exact (hs.handles (t := s.tmap) hm (by simp [hr]) (by simp)).inv_idle hi hm
    | timer => exact (hs.handles (g := s.gmap) hm (by simp [hr]) id).inv_idle hi hm
  | tinit hr hw =>
    have hopen : State.Settled (s.setHandle .timer .mapped) := hs.handles (g := s.gmap) hm (by simp [hr]) id
    cases hb : s.gmap == .mapped && s.initCompleted with
    | false => exact hopen.inv_idle hi hm
    | true =>
      obtain ⟨-, hinit⟩ := Bool.and_eq_true_iff.mp hb
      exact (hopen.toMode (m := .ready) (by simp [hr]) (by simp) hinit (by simp)).inv_idle hi (by simp)
  | closed w hw =>
    cases w with
    | gpio =>
      exact (hs.handles (t := s.tmap) hm (fun hf => ⟨by simp, (hs.faulted_unmapped hf).2⟩) (by simp)).inv_idle hi hm
    | timer =>
      exact (hs.handles (g := s.gmap) hm (fun hf => ⟨(hs.faulted_unmapped hf).1, by simp⟩) id).inv_idle hi hm
  | teardown =>
    exact (hs.handles hm (fun _ => ⟨release_ne_mapped _, release_ne_mapped _⟩) release_eq_unmapped.mp).inv_idle hi hm
  | mapFault e he hr => exact (hs.raise he).inv_idle hi (by simp)

/-! ### Every start and every step -/

/-- A start state meets the invariant if its source image, where it has one, is not empty (10_state.md R44, R49). -/
theorem State.start_inv (pl : Platform) (fsel : Vector Word 3) (outlatch cnt : Word) (frame : FrameGrid)
    {src : Option SourceImage} (panel : Panel) (env : Env) (inputs : List HostInput) (stopAfter : Option Nat)
    (hsrc : ∀ img, src = some img → 0 < img.width) :
    (State.start pl fsel outlatch cnt frame src panel env inputs stopAfter).Inv := by
  have hs : State.Settled (State.start pl fsel outlatch cnt frame src panel env inputs stopAfter) :=
    { inBits_zero := rfl
      col_zero := fun _ => rfl
      err_iff_faulted := by simp [State.start]
      faulted_unmapped := fun hm => by cases hm
      running_mapped := fun hm => by cases hm
      outBits_valid := BitVec.zero_and
      outBits_output := fun k hk => by simp [State.start] at hk
      unmapped_untouched := fun _ => rfl
      constructed_init := fun hc => by cases hc
      after_init := fun hi => absurd hi
        (show ¬ ((Vector.replicate 8 (0 : Word))[0] == BitVec.ofNat 32 Config.baseDwell) = true by decide)
      cursor_range := hsrc }
  exact hs.inv_idle rfl (by simp [State.start])

/-- Settles O10: nothing is under way, mapped or configured. -/
theorem everyStartStateMeetsTheInvariant : Obligations.EveryStartStateMeetsTheInvariant :=
  ⟨State.start_inv _ _ _ _ _ _ _ _ _ (fun _ h => by cases h),
    fun pl fsel outlatch cnt frame panel env inputs stopAfter _ =>
      State.start_inv pl fsel outlatch cnt frame panel env inputs stopAfter⟩

/-- Every case of a step keeps the invariant. -/
theorem StepCase.inv {s t : State} (h : StepCase s t) (hinv : s.Inv) : t.Inv := by
  have hs := hinv.settled
  cases h with
  | waits hp hm hi => exact hinv
  | source img rest hp hm hi hc =>
    have hset : State.Settled { s with inputs := rest, src := some img } :=
      { hs with cursor_range := fun img' he => by rw [← Option.some.inj he]; exact hc }
    exact hset.inv_idle hp hm
  | whole i r rest hp hm hi hd hf hk => exact (exec_wholeEffect hf hk).inv (hs.of_aside rfl) hp hm
  | begun i rest hp hm ha hk => exact State.Settled.begun (hs.of_aside rfl) hk
  | scrollchk rest hp hm he hk => exact (hs.of_aside rfl : State.Settled { s with inputs := rest }).scrollStep (.inl hm) hk
  | stop hp hm hr hk => exact hs.start (.stopEntry hm s.slowdown.toNat) hk
  | sweep hp hm hr hk => exact hs.begun (.march .sweep Pos.start (.inr rfl) rfl (.inr ⟨rfl, hm⟩) hk)
  | scroll hp hm hk => exact hs.scrollStep hm hk
  | load now hp hm hk => exact hs.loadStep hk
  | access task a rest more hp hf hu => exact hs.access (hinv.pending hp) hu

/-- Settles O11, from the cases of a step: inside a task by what is left of it, elsewhere by what the operation did. -/
theorem everyStepKeepsTheInvariant : Obligations.EveryStepKeepsTheInvariant :=
  fun _ _ hinv h => (step_cases h).inv hinv.hostTick

end Sys2Proof.Machine
end

section
/-! SUPPORT. The whole-machine rules that need no more than an outline of a step: MODE, the mappings, STOP_REQ, the frame and
the configuration (10_state.md R27, R29, R42, R43 to R45, R48). -/

namespace Sys2Proof.Machine

/-! ### A step in outline -/

/-- What is written before a task's first access: POS; by INIT its handle and its holding registers (44_system.md R222). -/
inductive Prepared : Task → State → State → Prop
  | place {task : Task} {s : State} (p : Pos) (rest : List HostInput) :
      Prepared task s { s with pos := p, inputs := rest }
  | init {s : State} (n : Word) (m : PinMask) (rest : List HostInput) (hg : s.gmap = .unmapped) :
      Prepared (.init m) s { (s.setHandle .gpio .mapped).withHoldings n with inputs := rest }

/-- A function-select word changes by a read-modify-write alone: if the write-back that is next, where one is, is fresh,
then by making a pin an output (40_gpio.md R120). -/
def FselStep (s u : State) : Prop :=
  (∀ k old, s.phase.accesses.head? = some (.configureWrite k old) → old = s.fsel[fselWordOf k]) →
    u.fsel = s.fsel ∨ ∃ k, u.fsel = withOutput s.fsel k

/-- A step in outline. -/
inductive Outline : State → State → Prop
  /-- idle: nothing to take, or a source image -/
  | input {s : State} (rest : List HostInput) (src : Option SourceImage) (hp : s.phase = .idle) (hm : s.mode ≠ .running)
      (hs : src = s.src ∨ ∃ img, s.inputs = .source img :: rest ∧ src = some img) :
      Outline s { s with inputs := rest, src := src }
  /-- idle: a whole operation -/
  | whole {s t : State} (rest : List HostInput) (hm : s.mode ≠ .running) (h : WholeEffect { s with inputs := rest } t) :
      Outline s t
  /-- a task's access, or its completion without one -/
  | task {task : Task} {s s0 u : State} (as : List Access) (hf : ∀ a rest, (Phase.busy task a rest).fits s.mode = true)
      (hp : Prepared task s s0) (hb : BusAside s0 u) (hfs : FselStep s u) : Outline s (carryOn task u as)
  /-- the scroll step's counter read -/
  | scroll {s t : State} (rest : List HostInput) (h : TimeAside { s with inputs := rest, phase := t.phase } t) :
      Outline s t
  /-- the scroll load of the scroll step -/
  | load {s t : State} (now : Word) (hp : s.phase = .load now) (img : SourceImage) (hs : s.src = some img)
      (hu : img.usable = true)
      (h : t = { s with
        frame := img.visible s.cursor, cursor := (s.cursor + 1) % img.width, lastScroll := now, phase := t.phase }) :
      Outline s t

/-- An access writes a function-select word only as a write-back. -/
theorem Performed.fselStep {a : Access} {s s0 u : State} {more : List Access} (hu : Performed a s0 more u)
    (hs : s0.fsel = s.fsel) (ha : ∀ k old, a = .configureWrite k old → s.phase.accesses.head? = some a) : FselStep s u := by
  intro hfresh
  rw [← hs] at hfresh ⊢
  rcases hu.fsel fun k old hk => hfresh k old (by rw [← hk]; exact ha k old hk) with ⟨he, -⟩ | ⟨k, -, -, he⟩
  · exact .inl he
  · exact .inr ⟨k, he⟩

/-- A task that begins with something else than a write-back. -/
theorem Outline.of_start {task : Task} {as : List Access} {s s0 t : State}
    (hf : ∀ a rest, (Phase.busy task a rest).fits s.mode = true) (hp : Prepared task s s0) (hs : s0.fsel = s.fsel)
    (hw : ∀ k old, .configureWrite k old ∉ as) (h : start task as s0 = .ok t) : Outline s t := by
  obtain ⟨rfl, rfl⟩ | ⟨a, rest, more, u, rfl, hu, rfl⟩ := start_cases h
  · exact .task [] hf hp (BusAside.refl s0) fun _ => .inl hs
  · exact .task _ hf hp hu.busAside (hu.fselStep hs fun k old ha => absurd (by rw [ha]; exact List.mem_cons_self) (hw k old))

/-- A command of several accesses begins. -/
theorem Begun.outline {s t : State} {rest : List HostInput} (h : Begun { s with inputs := rest } t) : Outline s t := by
  cases h with
  | plain as hw hm hk => exact .of_start (plain_fits hm) (.place s.pos rest) rfl hw hk
  | outputs mask hm hg hk =>
    exact .of_start (outputs_fits hm _) (.place s.pos rest) rfl (configuring_no_write_back _) hk
  | init n hm hg hk => exact .of_start (init_fits hm _) (.init n _ rest hg) rfl (configuring_no_write_back _) hk
  | march task p ht hp hm hk =>
    exact .of_start (march_fits ht hm) (.place p rest) rfl (micro_no_write_back _ p) hk

theorem scrollStep_outline {s t : State} {rest : List HostInput} (h : scrollStep { s with inputs := rest } = .ok t) :
    Outline s t := by
  rcases scrollStep_inv h with ⟨-, a⟩ | ⟨-, a⟩ <;> exact .scroll rest a

/-- Every step has its outline. -/
theorem StepCase.outline {s t : State} (h : StepCase s t) : Outline s t := by
  cases h with
  | waits hp hm hi => exact .input s.inputs s.src hp hm (.inl rfl)
  | source img rest hp hm hi hc => exact .input rest (some img) hp hm (.inr ⟨img, hi, rfl⟩)
  | whole i r rest hp hm hi hd hf hk => exact .whole rest hm (exec_wholeEffect hf hk)
  | begun i rest hp hm ha hk => exact hk.outline
  | scrollchk rest hp hm he hk => exact scrollStep_outline hk
  | stop hp hm hr hk =>
    exact .of_start (as := [.set (pinBit s.platform.pins.oe) s.slowdown.toNat]) (fun a bs => by rw [hm]; rfl)
      (.place s.pos s.inputs) rfl (by simp) hk
  | sweep hp hm hr hk =>
    exact .of_start (march_fits (.inr rfl) (.inr ⟨rfl, hm⟩)) (.place Pos.start s.inputs) rfl
      (micro_no_write_back s Pos.start) hk
  | scroll hp hm hk => exact scrollStep_outline (rest := s.inputs) hk
  | load now hp hm hk =>
    obtain ⟨img, hs, hu, rfl⟩ := loadStep_inv hk
    exact .load now hp img hs hu rfl
  | access task a rest more hp hf hu =>
    exact .task _ (busy_fits (by rwa [hp] at hf)) (.place s.pos s.inputs) hu.busAside
      (hu.fselStep rfl fun k old ha => by rw [hp]; rfl)

/-! ### What each part leaves unchanged -/

/-- What the last access completes writes these registers only. -/
theorem carryOn_aside {task : Task} {s t : State} {as : List Access} (h : t = carryOn task s as) : t = { s with
    outBits := t.outBits, res := t.res, timing := t.timing, mode := t.mode, pos := t.pos, phase := t.phase
    err := t.err, gmap := t.gmap, tmap := t.tmap } := by
  rw [h]
  cases as with
  | cons a rest => rfl
  | nil =>
    cases task with
    | init m =>
      simp only [carryOn, completeTask, finishInit]
      split
      · unfold readyIf; split <;> rfl
      · rfl
    | plain => rfl
    | outputs m => rfl
    | rowPlane => rfl
    | sweep => rfl
    | stop => rfl

theorem Prepared.aside {task : Task} {s s0 : State} (h : Prepared task s s0) : s0 = { s with
    pos := s0.pos, inputs := s0.inputs, gmap := s0.gmap, slowdown := s0.slowdown, rowMask := s0.rowMask } := by
  cases h <;> rfl

theorem WholeEffect.aside {s t : State} (h : WholeEffect s t) : t = { s with
    res := t.res, mode := t.mode, pos := t.pos, phase := t.phase, scrollEn := t.scrollEn, err := t.err
    outlatch := t.outlatch, cnt := t.cnt, gmap := t.gmap, tmap := t.tmap, frame := t.frame, cursor := t.cursor
    lastScroll := t.lastScroll, panel := t.panel, trace := t.trace, env := t.env, draws := t.draws } := by
  cases h with
  | pins p r hp hk => rw [hk]
  | load img last hs hu hk => rw [hk]
  | run e hr hm ht hk => rw [hk]
  | opened w hr hw => cases w <;> rfl
  | tinit hr hw => unfold readyIf; split <;> rfl
  | closed w hw => cases w <;> rfl
  | teardown => rfl
  | mapFault e he hr => rfl

/-- A task's step, whatever it completes, leaves these registers. -/
theorem taskStep_aside {task : Task} {s s0 u t : State} {as : List Access} (hp : Prepared task s s0)
    (hb : BusAside s0 u) (ht : t = carryOn task u as) :
    t.stopReq = s.stopReq ∧ t.inBits = s.inBits ∧ t.platform = s.platform ∧ t.frame = s.frame ∧ t.cursor = s.cursor ∧
      t.src = s.src ∧ t.fsel = u.fsel := by
  rw [hp.aside] at hb
  rw [carryOn_aside ht]
  exact ⟨hb.stopReq, hb.inBits, hb.platform, hb.frame, hb.cursor, hb.src, rfl⟩

/-- No step of the controller writes STOP_REQ, IN_BITS or the platform's parameters. -/
theorem Outline.constants {s t : State} (h : Outline s t) :
    t.stopReq = s.stopReq ∧ t.inBits = s.inBits ∧ t.platform = s.platform := by
  cases h with
  | input rest src hp hm hs => exact ⟨rfl, rfl, rfl⟩
  | whole rest hm hk => rw [hk.aside]; exact ⟨rfl, rfl, rfl⟩
  | task as hf hp hb hfs =>
    obtain ⟨h1, h2, h3, -⟩ := taskStep_aside hp hb rfl
    exact ⟨h1, h2, h3⟩
  | scroll rest hk => exact ⟨hk.stopReq, hk.inBits, hk.platform⟩
  | load now hp img hs hu hk => rw [hk]; exact ⟨rfl, rfl, rfl⟩

/-! ### MODE (10_state.md R27) -/

theorem mayBecome_refl (m : Mode) : m.mayBecome m = true := by cases m <;> rfl

theorem WholeEffect.mode {s t : State} (h : WholeEffect s t) : s.mode.mayBecome t.mode = true := by
  cases h with
  | pins p r hp hk => rw [hk.mode]; exact mayBecome_refl _
  | load img last hs hu hk => rw [hk.mode]; exact mayBecome_refl _
  | run e hr hm ht hk => rw [hk, hr]; rfl
  | opened w hr hw => rw [State.setHandle_mode]; exact mayBecome_refl _
  | tinit hr hw => rw [readyIf_mode, State.setHandle_mode, hr]; split <;> rfl
  | closed w hw => rw [State.setHandle_mode]; exact mayBecome_refl _
  | teardown => exact mayBecome_refl _
  | mapFault e he hr => rw [raise_mode, hr]; rfl

/-- INIT is completed in Reset, stop entry in Running; no other task's completion writes MODE. -/
theorem carryOn_mode {task : Task} {s : State} (hf : ∀ a rest, (Phase.busy task a rest).fits s.mode = true)
    (as : List Access) : s.mode.mayBecome (carryOn task s as).mode = true := by
  cases as with
  | cons a rest => exact mayBecome_refl _
  | nil =>
    have hfit := hf (.set 0 0) []
    cases task with
    | plain => exact mayBecome_refl _
    | outputs m => exact mayBecome_refl _
    | init m =>
      have hm : s.mode = .reset := by simpa [Phase.fits] using hfit
      show s.mode.mayBecome (finishInit _ _).mode = true
      rw [finishInit_mode, State.nowConfigured_mode, hm]
      split
      · split <;> rfl
      · rfl
    | rowPlane => exact mayBecome_refl _
    | sweep => exact mayBecome_refl _
    | stop =>
      have hm : s.mode = .running := by simpa [Phase.fits] using hfit
      rw [hm]; rfl

theorem Prepared.mode {task : Task} {s s0 : State} (h : Prepared task s s0) : s0.mode = s.mode := by
  rw [h.aside]

theorem Outline.mode {s t : State} (h : Outline s t) : s.mode.mayBecome t.mode = true := by
  cases h with
  | input rest src hp hm hs => exact mayBecome_refl _
  | whole rest hm hk => exact hk.mode
  | task as hf hp hb hfs =>
    have hm := hb.mode.trans hp.mode
    rw [← hm] at hf ⊢
    exact carryOn_mode hf as
  | scroll rest hk => rw [hk.mode]; exact mayBecome_refl _
  | load now hp img hs hu hk => rw [hk]; exact mayBecome_refl _

/-- Settles O12. -/
theorem modeFollowsItsDiagram : Obligations.ModeFollowsItsDiagram := by
  intro s t h
  have := (step_cases h).outline.mode
  rwa [State.hostTick_mode] at this

/-! ### The mappings (10_state.md R42) -/

/-- No mapping goes back from s to t. -/
def HandlesAge (s t : State) : Prop := s.gmap.age ≤ t.gmap.age ∧ s.tmap.age ≤ t.tmap.age

theorem HandlesAge.of_eq {s t : State} (hg : t.gmap = s.gmap) (ht : t.tmap = s.tmap) : HandlesAge s t :=
  ⟨Nat.le_of_eq (by rw [hg]), Nat.le_of_eq (by rw [ht])⟩

theorem age_le_release (h : Handle) : h.age ≤ h.release.age := by cases h <;> decide

theorem HandlesAge.setHandle {s : State} {w : Window} {h : Handle} (hw : (s.handle w).age ≤ h.age) :
    HandlesAge s (s.setHandle w h) := by
  cases w with
  | gpio => exact ⟨hw, Nat.le_refl _⟩
  | timer => exact ⟨Nat.le_refl _, hw⟩

theorem WholeEffect.handlesAge {s t : State} (h : WholeEffect s t) : HandlesAge s t := by
  cases h with
  | pins p r hp hk => exact .of_eq hk.gmap hk.tmap
  | load img last hs hu hk => exact .of_eq hk.gmap hk.tmap
  | run e hr hm ht hk => rw [hk]; exact .of_eq rfl rfl
  | opened w hr hw => exact .setHandle (by rw [hw]; decide)
  | tinit hr hw =>
    have := HandlesAge.setHandle (s := s) (w := .timer) (h := .mapped) (by rw [State.handle, hw]; decide)
    simpa [HandlesAge] using this
  | closed w hw => exact .setHandle (by rw [hw]; decide)
  | teardown => exact ⟨age_le_release _, age_le_release _⟩
  | mapFault e he hr => exact ⟨age_le_release _, age_le_release _⟩

/-- Only INIT's fault, at its end, releases a handle inside a task. -/
theorem carryOn_handlesAge (task : Task) (s : State) (as : List Access) : HandlesAge s (carryOn task s as) := by
  cases as with
  | cons a rest => exact .of_eq rfl rfl
  | nil =>
    cases task with
    | init m =>
      show HandlesAge s { finishInit _ _ with phase := .idle }
      unfold finishInit
      split
      · exact .of_eq (readyIf_gmap _ _) (readyIf_tmap _ _)
      · exact ⟨age_le_release _, age_le_release _⟩
    | plain => exact .of_eq rfl rfl
    | outputs m => exact .of_eq rfl rfl
    | rowPlane => exact .of_eq rfl rfl
    | sweep => exact .of_eq rfl rfl
    | stop => exact .of_eq rfl rfl

theorem Prepared.handlesAge {task : Task} {s s0 : State} (h : Prepared task s s0) : HandlesAge s s0 := by
  cases h with
  | place p rest => exact .of_eq rfl rfl
  | init n m rest hg => exact ⟨by rw [hg]; exact Nat.zero_le _, Nat.le_refl _⟩

theorem Outline.handlesAge {s t : State} (h : Outline s t) : HandlesAge s t := by
  cases h with
  | input rest src hp hm hs => exact .of_eq rfl rfl
  | whole rest hm hk => exact hk.handlesAge
  | @task task _ s0 u as hf hp hb hfs =>
    obtain ⟨hg, ht⟩ := carryOn_handlesAge task u as
    rw [hb.gmap] at hg
    rw [hb.tmap] at ht
    exact ⟨Nat.le_trans hp.handlesAge.1 hg, Nat.le_trans hp.handlesAge.2 ht⟩
  | scroll rest hk => exact .of_eq hk.gmap hk.tmap
  | load now hp img hs hu hk => rw [hk]; exact .of_eq rfl rfl

/-- Settles O13. -/
theorem mappingsAreReleasedOnce : Obligations.MappingsAreReleasedOnce := by
  intro s t h
  have := (step_cases h).outline.handlesAge
  rwa [HandlesAge, State.hostTick_gmap, State.hostTick_tmap] at this

/-! ### STOP_REQ (10_state.md R29, 60_exceptions.md R250, R251) -/

/-- Every state is one that the host's part of a step leads to. -/
theorem hostTick_surjective (s : State) : State.hostTick { s with stopAfter := s.stopAfter.map (· + 1) } = s := by
  obtain ⟨n, h⟩ | h : (∃ n, s.stopAfter = some n) ∨ s.stopAfter = none := by
    cases s.stopAfter <;> simp
  · simp only [State.hostTick, h, Option.map_some]; rw [← h]
  · simp only [State.hostTick, h, Option.map_none]; rw [← h]

/-- A step of the controller alone is one of the cases of a step. -/
theorem controllerStep_cases {s t : State} (h : controllerStep s = .next t) : StepCase s t := by
  rw [← hostTick_surjective s] at h ⊢
  exact step_cases h

/-- Settles O14: the controller never writes STOP_REQ, the host's part sets it when its moment has come. -/
theorem stopRequestIsSetByTheHostOnly : Obligations.StopRequestIsSetByTheHostOnly := by
  have controller : ∀ s t : State, controllerStep s = .next t → t.stopReq = s.stopReq :=
    fun s t h => (controllerStep_cases h).outline.constants.1
  refine ⟨rfl, fun s t h => ?_, controller, fun s h => ?_⟩
  · rw [controller _ t h, hostTick_eq]
  · unfold State.requestStop
    rw [← h]

/-! ### The frame and the source image (10_state.md R43 to R45) -/

/-- The frame and the cursor stay, or the scroll load has moved them by one column (42_frame.md R160). -/
def FrameStep (s t : State) : Prop :=
  t.frame = s.frame ∧ t.cursor = s.cursor ∨
    ∃ img, s.src = some img ∧ img.usable = true ∧ t.frame = img.visible s.cursor ∧ t.cursor = (s.cursor + 1) % img.width

theorem WholeEffect.frameStep {s t : State} (h : WholeEffect s t) : FrameStep s t := by
  cases h with
  | pins p r hp hk => exact .inl ⟨hk.frame, hk.cursor⟩
  | load img last hs hu hk => exact .inr ⟨img, hs, hu, hk.frame, hk.cursor⟩
  | run e hr hm ht hk => rw [hk]; exact .inl ⟨rfl, rfl⟩
  | opened w hr hw => exact .inl ⟨by simp, by simp⟩
  | tinit hr hw => exact .inl ⟨by simp, by simp⟩
  | closed w hw => exact .inl ⟨by simp, by simp⟩
  | teardown => exact .inl ⟨rfl, rfl⟩
  | mapFault e he hr => exact .inl ⟨rfl, rfl⟩

theorem Outline.frameStep {s t : State} (h : Outline s t) : FrameStep s t := by
  cases h with
  | input rest src hp hm hs => exact .inl ⟨rfl, rfl⟩
  | whole rest hm hk => exact hk.frameStep
  | task as hf hp hb hfs =>
    obtain ⟨-, -, -, hframe, hcursor, -⟩ := taskStep_aside hp hb rfl
    exact .inl ⟨hframe, hcursor⟩
  | scroll rest hk => exact .inl ⟨hk.frame, hk.cursor⟩
  | load now hp img hs hu hk => rw [hk]; exact .inr ⟨img, hs, hu, rfl, rfl⟩

/-- While Running the frame changes in the scroll load's own step alone (43_sequencer.md R187, R188). -/
theorem Outline.frame_running {s t : State} (h : Outline s t) (hr : s.mode = .running)
    (hl : ∀ now, s.phase ≠ .load now) : t.frame = s.frame ∧ t.cursor = s.cursor := by
  cases h with
  | input rest src hp hm hs => exact absurd hr hm
  | whole rest hm hk => exact absurd hr hm
  | task as hf hp hb hfs =>
    obtain ⟨-, -, -, hframe, hcursor, -⟩ := taskStep_aside hp hb rfl
    exact ⟨hframe, hcursor⟩
  | scroll rest hk => exact ⟨hk.frame, hk.cursor⟩
  | load now hp img hs hu hk => exact absurd hp (hl now)

/-- The source image stays, or the idle controller takes one from the host (60_exceptions.md R262). -/
theorem Outline.src {s t : State} (h : Outline s t) : t.src = s.src ∨
    s.mode ≠ .running ∧ ∃ img rest, s.phase = .idle ∧ s.inputs = .source img :: rest ∧ t.src = some img := by
  cases h with
  | input rest src hp hm hs =>
    rcases hs with hs | ⟨img, hi, hs⟩
    · exact .inl hs
    · exact .inr ⟨hm, img, rest, hp, hi, hs⟩
  | whole rest hm hk => rw [hk.aside]; exact .inl rfl
  | task as hf hp hb hfs =>
    obtain ⟨-, -, -, -, -, hsrc, -⟩ := taskStep_aside hp hb rfl
    exact .inl hsrc
  | scroll rest hk => exact .inl hk.src
  | load now hp img hs hu hk => rw [hk]; exact .inl rfl

/-- The idle controller takes the image its host supplies, if the cursor stays in range (log entry 11). -/
theorem step_source {s : State} {img : SourceImage} {rest : List HostInput} (hi : s.phase = .idle)
    (hm : s.mode ≠ .running) (hin : s.inputs = .source img :: rest) :
    step s = if s.cursor < img.width then .next { s.hostTick with inputs := rest, src := some img }
      else .refused .sourceRejected := by
  have hf : s.phase.fits s.mode = true := by rw [hi]; simpa [Phase.fits] using hm
  unfold step controllerStep
  rw [State.hostTick_phase, State.hostTick_mode, if_pos hf, hi]
  simp only [takeInput, State.hostTick_inputs, hin, supplySource, State.hostTick_cursor]

/-- Settles O18. -/
theorem frameChangesOnlyByScrollLoad : Obligations.FrameChangesOnlyByScrollLoad := by
  refine ⟨fun s t h => ?_, fun s img rest hi hm hin => step_source hi hm hin⟩
  have ho := (step_cases h).outline
  have hframe := ho.frameStep
  have hrun := ho.frame_running
  have hsrc := ho.src
  simp only [FrameStep, State.hostTick_frame, State.hostTick_cursor, State.hostTick_src, State.hostTick_mode,
    State.hostTick_phase, State.hostTick_inputs] at hframe hrun hsrc
  refine ⟨hframe.imp_right fun ⟨img, hs, hu, hf, hc⟩ => ⟨img, hs, hu, fun r c => by rw [hf, visible_get], hc⟩, hrun,
    fun hm => hsrc.resolve_right fun hn => hn.1 hm, hsrc.imp_right And.right⟩

/-! ### The configuration (10_state.md R21, R22, R31) -/

theorem WholeEffect.outBits {s t : State} (h : WholeEffect s t) : t.outBits = s.outBits := by rw [h.aside]

theorem WholeEffect.fsel {s t : State} (h : WholeEffect s t) : t.fsel = s.fsel := by rw [h.aside]

/-- A task's completion takes pins into OUT_BITS or leaves it. -/
theorem carryOn_outBits (task : Task) (s : State) (as : List Access) :
    ∃ m, (carryOn task s as).outBits = s.outBits ||| m := by
  have same : s.outBits = s.outBits ||| 0 := BitVec.or_zero.symm
  cases as with
  | cons a rest => exact ⟨0, same⟩
  | nil =>
    cases task with
    | outputs m => exact ⟨m, rfl⟩
    | init m =>
      refine ⟨m, ?_⟩
      show (finishInit _ _).outBits = _
      unfold finishInit
      split <;> simp
    | plain => exact ⟨0, same⟩
    | rowPlane => exact ⟨0, same⟩
    | sweep => exact ⟨0, same⟩
    | stop => exact ⟨0, same⟩

theorem Outline.outBits {s t : State} (h : Outline s t) : ∃ m, t.outBits = s.outBits ||| m := by
  have same : s.outBits = s.outBits ||| 0 := BitVec.or_zero.symm
  cases h with
  | input rest src hp hm hs => exact ⟨0, same⟩
  | whole rest hm hk => exact ⟨0, hk.outBits.trans same⟩
  | @task task _ s0 u as hf hp hb hfs =>
    rw [show s.outBits = u.outBits by rw [hb.outBits, hp.aside]]
    exact carryOn_outBits task u as
  | scroll rest hk => exact ⟨0, hk.outBits.trans same⟩
  | load now hp img hs hu hk => rw [hk]; exact ⟨0, same⟩

/-- From a state that meets the invariant the function-select words change by making one pin an output. -/
theorem Outline.fsel {s t : State} (h : Outline s t) (hinv : s.Inv) :
    t.fsel = s.fsel ∨ ∃ k, t.fsel = withOutput s.fsel k := by
  cases h with
  | input rest src hp hm hs => exact .inl rfl
  | whole rest hm hk => exact .inl hk.fsel
  | task as hf hp hb hfs =>
    obtain ⟨-, -, -, -, -, -, hfsel⟩ := taskStep_aside hp hb rfl
    rw [hfsel]
    exact hfs hinv.write_back_fresh
  | scroll rest hk => exact .inl hk.fsel
  | load now hp img hs hu hk => rw [hk]; exact .inl rfl

/-- Settles O19: OUT_BITS takes pins in, and a fresh write-back makes its pin an output. -/
theorem configurationOnlyGrows : Obligations.ConfigurationOnlyGrows := by
  intro s t hinv h
  have ho := (step_cases h).outline
  obtain ⟨-, hin, hpl⟩ := ho.constants
  obtain ⟨m, hout⟩ := ho.outBits
  have hfsel := ho.fsel hinv.hostTick
  rw [State.hostTick_inBits] at hin
  rw [State.hostTick_platform] at hpl
  rw [State.hostTick_outBits] at hout
  rw [State.hostTick_fsel] at hfsel
  refine ⟨by rw [hout]; exact and_not_or_eq_zero (.inl (BitVec.and_not_self _)), hin, hpl, fun k => ?_, fun n => ?_⟩
  · rcases hfsel with hf | ⟨j, hf⟩
    · exact .inl (by rw [hf])
    · rw [hf]
      by_cases hk : k = j
      · rw [hk]; exact .inr (fselField_withOutput_self s.fsel j)
      · exact .inl (fselField_withOutput_other s.fsel hk)
  · rcases hfsel with hf | ⟨j, hf⟩
    · rw [hf]
    · rw [hf]; exact outside_withOutput s.fsel j n

end Sys2Proof.Machine
end

section
/-! SUPPORT. The operations on pins, the delay, and the start and end of a construction (40_gpio.md R120 to R127, 41_timer.md
R143, 44_system.md R221, R222, R224), each from what its shared operation does. -/

namespace Sys2Proof.Machine

/-! ### The acceptance table -/

/-- The acceptance table's window condition (30_encoding.md R102). -/
theorem setup_mapped {h : Handle} {b : Bool} (ha : (h == .mapped && b) = true) : h = .mapped := by
  simp only [Bool.and_eq_true, beq_iff_eq] at ha
  exact ha.1

/-! ### Set and clear (40_gpio.md R122, R123) -/

/-- Settles O20. -/
theorem setRaisesTheNamedPins : Obligations.SetRaisesTheNamedPins := by
  intro mask s ha
  obtain ⟨t, ht, a, ho, -, htr⟩ := setPins_spec mask (setup_mapped ha)
  rw [execSet_eq, if_pos ha, ht]
  exact ⟨t, rfl, a, htr, fun k _ => by rw [ho, BitVec.getLsbD_or]⟩

/-- Settles O21. -/
theorem clrLowersTheNamedPins : Obligations.ClrLowersTheNamedPins := by
  intro mask s ha
  obtain ⟨t, ht, a, ho, -, htr⟩ := clearPins_spec mask (setup_mapped ha)
  rw [execClr_eq, if_pos ha, ht]
  exact ⟨t, rfl, a, htr, fun k hk => by simp [ho, hk]⟩

/-! ### The level-register (10_state.md R37, 40_gpio.md R127) -/

theorem foldl_or_bit (f : PinIndex → PinMask) (ks : List PinIndex) (m : PinMask) (i : Nat) :
    (ks.foldl (fun m k => m ||| f k) m).getLsbD i = (m.getLsbD i || ks.any fun k => (f k).getLsbD i) := by
  induction ks generalizing m with
  | nil => simp
  | cons k ks ih => rw [List.foldl_cons, ih, BitVec.getLsbD_or, List.any_cons, Bool.or_assoc]

/-- The mask of output pins has the bit of every output pin. -/
theorem outputPins_bit {fsel : Vector Word 3} {k : PinIndex} (h : isOutput fsel k = true) :
    (outputPins fsel).getLsbD k.val = true := by
  unfold outputPins
  rw [foldl_or_bit, Bool.or_eq_true]
  exact .inr (List.any_eq_true.mpr ⟨k, List.mem_finRange k, by simp [maskIf, h, pinBit_bit]⟩)

/-- An output pin shows the latch, whatever the environment draws. -/
theorem pinLevels_bit {fsel : Vector Word 3} {k : PinIndex} (h : isOutput fsel k = true) (latch drawn : Word) :
    (pinLevels fsel latch drawn).getLsbD k.val = latch.getLsbD k.val := by
  simp [pinLevels, outputPins_bit h]

/-- Settles O24. -/
theorem rdlevReadsTheOutputPins : Obligations.RdlevReadsTheOutputPins := by
  intro s ha
  rw [execRdlev_eq, if_pos ha]
  exact ⟨_, rfl, rfl, fun k hk => pinLevels_bit hk s.outlatch s.tick.drawnLevels⟩

/-! ### Configuring pins (40_gpio.md R120, R121) -/

/-- Settles O25, from what configuring a pin does to each field. -/
theorem cfgout1MakesThePinAnOutput : Obligations.Cfgout1MakesThePinAnOutput := by
  intro pin k s ha hk
  obtain ⟨t, ht, a, hf, htr⟩ := configureAsOutput_spec k (setup_mapped ha)
  replace hf : t.fsel = withOutput s.fsel k := hf
  rw [execCfgout1_eq, if_pos ha, pinOperand_eq_ok.mpr hk]
  refine ⟨t, s.fsel[fselWordOf k], fselWithOutput s.fsel[fselWordOf k] k, congrArg complete ht, a, htr, ?_, ?_, ?_, ?_⟩
  · rw [hf]; exact fselField_withOutput_self s.fsel k
  · intro j hj
    rw [hf]; exact fselField_withOutput_other s.fsel hj
  · intro n
    rw [hf]; exact outside_withOutput s.fsel k n
  · intro n hn
    obtain rfl : n = fselWordOf k := Fin.ext hn
    exact ⟨rfl, by rw [hf, withOutput, fsel_get_set, if_pos rfl]; rfl⟩

/-- Once configured, the pins of a mask are not new (40_gpio.md R121). -/
theorem newPins_nowConfigured (s : State) (mask : PinMask) : (s.nowConfigured (s.newPins mask)).newPins mask = 0 := by
  have bits : ∀ m v o n : Bool, (m && v && !(o || (m && v && !(o || n)) || n)) = false := by decide
  unfold State.newPins
  ext i hi
  simp only [State.nowConfigured_platform, State.nowConfigured_outBits, State.nowConfigured_inBits, BitVec.getElem_and,
    BitVec.getElem_not, BitVec.getElem_or]
  exact (bits _ _ _ _).trans (BitVec.getElem_zero hi).symm

/-- Without a new pin CFGOUTS makes no access and only clears RES. -/
theorem configureOutputs_none {mask : PinMask} {s : State} (h : s.newPins mask = 0) :
    configureOutputs mask s = .ok { s with res := 0 } := by
  have none : ∀ ks : List PinIndex, configurePins 0 ks s = .ok s := by
    intro ks
    induction ks with
    | nil => rfl
    | cons k ks ih => simpa [configurePins] using ih
  have hout : s.outBits ||| 0 = s.outBits := BitVec.or_zero
  unfold configureOutputs
  simp only [h, none, ok_bind, State.nowConfigured, hout]

/-- Settles O26. -/
theorem cfgoutsConfiguresTheNewValidPins : Obligations.CfgoutsConfiguresTheNewValidPins := by
  intro mask s ha
  have hm := setup_mapped ha
  obtain ⟨t, ht, he, hf, ho, htr⟩ := configureOutputs_fields mask hm
  have hres : t.res = s.newPins mask := by rw [he]
  have hnew : t.newPins mask = 0 := by
    have := newPins_nowConfigured s mask
    rw [he]; exact this
  have hat : acceptedIn (.cfgouts mask) t = true := by rw [he]; exact ha
  rw [execCfgouts_eq, if_pos ha, ht]
  refine ⟨t, rfl, ?_, ?_, ?_, ho, ?_⟩
  · rw [hres, show (List.finRange 28).filter _ = pinsOf (s.newPins mask) from rfl, ← htr]
    exact he
  · intro k hk
    rw [hf, if_pos (by rwa [← hres])]
  · intro k hk
    rw [hf, if_neg (by rw [← hres, hk]; simp)]
  · rw [execCfgouts_eq, if_pos hat, configureOutputs_none hnew]; rfl

/-! ### The delay (41_timer.md R143) -/

theorem isDelay_cases {p : Platform} {e : BusEvent} (h : e.isDelay p = true) :
    (∃ v, e = .read .timer p.timerWord v) ∨ ∃ d, e = .coarseSleep d := by
  cases e with
  | read w word v =>
    simp only [BusEvent.isDelay, Bool.and_eq_true, beq_iff_eq] at h
    obtain ⟨rfl, rfl⟩ := h
    exact .inl ⟨v, rfl⟩
  | write w word v => cases h
  | coarseSleep d => exact .inr ⟨d, rfl⟩

theorem BusyWaitEvents.ne_nil {p : Platform} {target : Nat} {evs : List BusEvent} (h : BusyWaitEvents p target evs) :
    evs ≠ [] := by
  obtain ⟨first, last, mid, rfl, -⟩ := h
  simp

/-- A delay reads the counter at least once. -/
theorem SleepEvents.ne_nil {p : Platform} {n : Nat} {evs : List BusEvent} (h : SleepEvents p n evs) : evs ≠ [] := by
  obtain ⟨hshort, hlong⟩ := h
  by_cases hn : n ≤ p.sleepThresholdNs
  · exact (hshort hn).ne_nil
  · obtain ⟨pre, post, tail, rfl, -⟩ := hlong (Nat.lt_of_not_le hn)
    simp

/-- Settles O31. -/
theorem sleepnsAlwaysReturns : Obligations.SleepnsAlwaysReturns := by
  intro n s ha
  obtain ⟨t, evs, ht, a, htr, hevs⟩ := sleepNanos_spec n.isLt (setup_mapped ha)
  rw [execSleepns_eq, if_pos ha, ht]
  exact ⟨t, evs, rfl, a, htr, hevs.ne_nil, fun e he => isDelay_cases (List.all_eq_true.mp hevs.delay e he)⟩

/-! ### Start and end of a construction (10_state.md R49, 44_system.md R221, R222, R224) -/

/-- Settles O9. -/
theorem resetLeavesTheListedValues : Obligations.ResetLeavesTheListedValues := by
  intro pl fsel outlatch cnt frame src panel env inputs stopAfter
  have htiming : ∀ k : Fin 8, (Vector.replicate 8 (0 : Word))[k] = 0 := by decide
  exact ⟨rfl, rfl, rfl, rfl, rfl, htiming, rfl, rfl, rfl, rfl, rfl, rfl, rfl, rfl, rfl, rfl, rfl, rfl, rfl, rfl, rfl, rfl,
    rfl, rfl, rfl, rfl⟩

theorem release_eq (h : Handle) : h.release = if h = .mapped then .released else h := by cases h <;> rfl

/-- Settles O57. -/
theorem releaseTouchesNoRegister : Obligations.ReleaseTouchesNoRegister := by
  intro s hm
  have hmay : (s.mode == .reset || s.mode == .ready || s.mode == .stopped) = true := by
    simpa [or_assoc] using hm
  refine ⟨fun hg => ?_, fun ht => ?_, ?_⟩
  · rw [execMapclose_eq, if_pos (by simpa [acceptedIn, State.handle, hg] using hmay)]; rfl
  · rw [execMapclose_eq, if_pos (by simpa [acceptedIn, State.handle, ht] using hmay)]; rfl
  · rw [execTeardown_eq, if_pos (show acceptedIn .teardown s = true from hmay), release_eq, release_eq]

/-- INIT in Reset with a window that opens (44_system.md R222). -/
theorem execInit_opens {n : Word} {s : State} (hm : s.mode = .reset) (hg : s.gmap = .unmapped)
    (hp : s.platform.privileged = true) (hok : s.platform.mapOkGpio = true) :
    exec (.init n) s = complete (constructGpio n (s.setHandle .gpio .mapped)) := by
  rw [execInit_eq, if_pos (by simp [acceptedIn, hm, hg])]
  simp only [openWindow, hp, State.mapOk, hok, if_true]

/-- Before anything is configured, the new pins of a mask are its valid ones. -/
theorem State.Inv.newPins_unmapped {s : State} (h : s.Inv) (hg : s.gmap = .unmapped) (mask : PinMask) :
    s.newPins mask = mask &&& s.platform.validPins := by
  unfold State.newPins
  rw [h.unmapped_untouched hg, h.inBits_zero, show ~~~((0 : PinMask) ||| 0) = BitVec.allOnes 32 by decide,
    BitVec.and_allOnes]

theorem and_eq_left_of_and_not {a v : Word} (h : a &&& ~~~v = 0) : a &&& v = a := by
  calc a &&& v = a &&& v ||| a &&& ~~~v := by rw [h]; exact BitVec.or_zero.symm
    _ = a := by ext i; simp [← Bool.and_or_distrib_left]

/-- INIT's end with every wanted pin configured. -/
theorem finishInit_complete {want : PinMask} {s : State} (h : s.res = want) : finishInit want s =
    { s with timing := timingTable, mode := if s.tmap = .mapped then .ready else s.mode } := by
  unfold finishInit readyIf
  by_cases ht : s.tmap = .mapped <;> simp [h, ht]

/-- Configuring pins writes no pin level. -/
theorem configureEvents_no_level (fsel : Vector Word 3) (ks : List PinIndex) (v : Word) {word : Nat}
    (hw : word = 7 ∨ word = 10) : .write .gpio word v ∉ configureEvents fsel ks := by
  intro hmem
  obtain ⟨n, v', hn, he | he⟩ := configureEvents_words ks fsel _ hmem
  · cases he
  · obtain ⟨-, rfl, -⟩ := BusEvent.write.inj he
    omega

/-- Settles O58: the new pins are all the wanted ones, so the check at INIT's end passes. -/
theorem initConfiguresExactlyTheWantedPins : Obligations.InitConfiguresExactlyTheWantedPins := by
  intro n s hinv hm hg hp hok row want evs hvalid
  have hnew : s.newPins want = want := (hinv.newPins_unmapped hg want).trans (and_eq_left_of_and_not hvalid)
  have hout : s.outBits ||| want = want := by rw [hinv.unmapped_untouched hg]; exact BitVec.zero_or
  obtain ⟨u, hu, he, hf, -, htr⟩ :=
    configureOutputs_fields want (s := (s.setHandle .gpio .mapped).withHoldings n) rfl
  obtain ⟨u', hu', hc⟩ := constructGpio_spec n (s := s.setHandle .gpio .mapped) rfl
  obtain rfl := Except.ok.inj (hu.symm.trans hu')
  replace hf : ∀ j : PinIndex, fselField u.fsel j = if want.getLsbD j.val = true then 0b001#3 else fselField s.fsel j := by
    rw [← hnew]; exact hf
  replace htr : u.trace = evs.reverse ++ s.trace := by
    rw [show evs = configureEvents s.fsel (pinsOf (s.newPins want)) by rw [hnew]; rfl]; exact htr
  replace he : u = { s with
      gmap := .mapped, slowdown := n, rowMask := row, outBits := want, res := want, fsel := u.fsel,
      trace := evs.reverse ++ s.trace, cnt := u.cnt, env := u.env, draws := u.draws } := by
    rw [← htr]
    refine he.trans ?_
    show ({ s with
      gmap := .mapped, slowdown := n, rowMask := row, outBits := s.outBits ||| s.newPins want, res := s.newPins want,
      fsel := u.fsel, trace := u.trace, cnt := u.cnt, env := u.env, draws := u.draws } : State) = _
    rw [hnew, hout]
  have hfin := finishInit_complete (want := want) (s := u) (by rw [he])
  refine ⟨_, (execInit_opens hm hg hp hok).trans (congrArg complete (hc.trans (congrArg Except.ok hfin))), ?_,
    timingTable_toNat, fun k hk => ?_, fun k hk => ?_, fun word v hw => configureEvents_no_level _ _ v hw⟩
  · rw [he, hm]
  · exact (hf k).trans (if_pos hk)
  · exact (hf k).trans (if_neg (by simp [hk]))

end Sys2Proof.Machine
end

section
/-! SUPPORT. The refusals that come after the mode check (30_encoding.md R102, 60_exceptions.md R249): operands out of range
and windows that are not mapped; the scroll load of ADVANCE (42_frame.md R160) and the column of SHIFTCOL
(43_sequencer.md R182). -/

namespace Sys2Proof.Machine

/-! ### ADVANCE -/

/-- Without a usable source image there is no scroll load (42_frame.md R160). -/
theorem advanceFrame_noSource {s : State} (h : s.hasSource = false) : advanceFrame s = .error .noUsableSource := by
  cases hx : advanceFrame s with
  | error r => rw [advanceFrame_error hx]
  | ok t =>
    obtain ⟨img, hi, hu, -⟩ := advanceFrame_eq_ok.mp hx
    rw [hasSource_iff.mpr ⟨img, hi, hu⟩] at h
    cases h

/-- Settles O34. -/
theorem advanceLoadsTheScrolledFrame : Obligations.AdvanceLoadsTheScrolledFrame := by
  intro s ha
  rw [execAdvance_eq, if_pos ha]
  refine ⟨fun img hi hu => ?_, fun hs => by rw [advanceFrame_noSource hs]; rfl⟩
  rw [advanceFrame_eq_ok.mpr ⟨img, hi, hu, rfl⟩]
  exact ⟨_, rfl, rfl, visible_get img s.cursor⟩

/-! ### SHIFTCOL -/

/-- SHIFTCOL in Ready with operands in range shifts one column. -/
theorem execShiftcol_ready {dr : Word} {pl col : Byte} {d p : Fin 8} {c : Fin 32} {s : State} (hr : s.mode = .ready)
    (hd : dr.toNat = d.val) (hp : pl.toNat = p.val) (hc : col.toNat = c.val) :
    exec (.shiftcol dr pl col) s = complete (shiftColumn d p c s) := by
  rw [execShiftcol_eq, if_pos (by simp [acceptedIn, hr]), octalOperand_eq_ok.mpr hd, octalOperand_eq_ok.mpr hp,
    columnOperand_eq_ok.mpr hc]
  rfl

/-- Settles O40, by what one column does. -/
theorem shiftcolShiftsOneColumn : Obligations.ShiftcolShiftsOneColumn := by
  intro dr pl col d p c s hr hg hd hp hc
  obtain ⟨t, ht, a, ho, hw⟩ := shiftColumn_spec d p c hg
  exact ⟨t, by rw [execShiftcol_ready hr hd hp hc, ht]; rfl, a, ho, hw⟩

/-! ### Operands out of range -/

/-- The ill-formed operations: one of the four that check a range, with an operand beyond it. -/
theorem wellFormed_false_cases {i : Instr} (h : i.wellFormed = false) :
    (∃ pin, i = .cfgout1 pin ∧ 28 ≤ pin.raw.toNat) ∨
      (∃ dr pl col, i = .shiftcol dr pl col ∧ (8 ≤ dr.toNat ∨ 8 ≤ pl.toNat ∨ 32 ≤ col.toNat)) ∨
      (∃ pl, i = .dwell pl ∧ 8 ≤ pl.toNat) ∨
      (∃ dr pl, i = .rowplane dr pl ∧ (8 ≤ dr.toNat ∨ 8 ≤ pl.toNat)) := by
  cases i with
  | cfgout1 pin => exact .inl ⟨pin, rfl, Nat.le_of_not_lt (of_decide_eq_false h)⟩
  | shiftcol dr pl col =>
    simp only [Instr.wellFormed, Bool.and_eq_false_iff, decide_eq_false_iff_not] at h
    exact .inr (.inl ⟨dr, pl, col, rfl, by omega⟩)
  | dwell pl => exact .inr (.inr (.inl ⟨pl, rfl, Nat.le_of_not_lt (of_decide_eq_false h)⟩))
  | rowplane dr pl =>
    simp only [Instr.wellFormed, Bool.and_eq_false_iff, decide_eq_false_iff_not] at h
    exact .inr (.inr (.inr ⟨dr, pl, rfl, by omega⟩))
  | _ => cases h

theorem octalOperand_low {v : Nat} (h : v < 8) : octalOperand v = .ok ⟨v, h⟩ := octalOperand_eq_ok.mpr rfl

/-- A double-row or bitplane operand is out of range, or what follows it finds one that is: the same name either way. -/
theorem octalOperand_bind_refused {α : Type} {v : Nat} {f : Fin 8 → Except Refusal α}
    (h : v < 8 → ∀ k, f k = .error .indexOutOfRange) : (octalOperand v >>= f) = .error .indexOutOfRange := by
  by_cases hv : v < 8
  · rw [octalOperand_low hv]; exact h hv _
  · rw [octalOperand_high (Nat.le_of_not_lt hv)]; rfl

theorem execCfgout1_outOfRange {pin : PinOperand} {s : State} (ha : acceptedIn (.cfgout1 pin) s = true)
    (h : 28 ≤ pin.raw.toNat) : exec (.cfgout1 pin) s = .refused .pinIndexOutOfRange := by
  rw [execCfgout1_eq, if_pos ha, pinOperand_high h]; rfl

theorem execShiftcol_outOfRange {dr : Word} {pl col : Byte} {s : State} (ha : acceptedIn (.shiftcol dr pl col) s = true)
    (h : 8 ≤ dr.toNat ∨ 8 ≤ pl.toNat ∨ 32 ≤ col.toNat) :
    exec (.shiftcol dr pl col) s = .refused .indexOutOfRange := by
  rw [execShiftcol_eq, if_pos ha, octalOperand_bind_refused fun hd _ => octalOperand_bind_refused fun hp _ => ?_]
  · rfl
  · rw [columnOperand_high (by omega)]; rfl

theorem execDwell_outOfRange {pl : Word} {s : State} (ha : acceptedIn (.dwell pl) s = true) (h : 8 ≤ pl.toNat) :
    exec (.dwell pl) s = .refused .indexOutOfRange := by
  rw [execDwell_eq, if_pos ha, octalOperand_high h]; rfl

theorem execRowplane_outOfRange {dr pl : Word} {s : State} (ha : acceptedIn (.rowplane dr pl) s = true)
    (h : 8 ≤ dr.toNat ∨ 8 ≤ pl.toNat) : exec (.rowplane dr pl) s = .refused .indexOutOfRange := by
  rw [execRowplane_eq, if_pos ha, octalOperand_bind_refused fun hd _ => ?_]
  · rfl
  · rw [octalOperand_high (by omega)]; rfl

/-! ### Windows that are not mapped (44_system.md R221) -/

/-- The window an operation that needs both is refused for: the GPIO window where it is closed, for it is used first; else
the TIMER window (log entry 14). -/
def State.Lacks (s : State) : Window → Prop
  | .gpio => s.gmap ≠ .mapped
  | .timer => s.gmap = .mapped ∧ s.tmap ≠ .mapped

theorem clearColourClock_unmapped {s : State} (h : s.gmap ≠ .mapped) :
    clearColourClock s = .error (.windowNotMapped .gpio) := clearPins_unmapped h

theorem shiftColumn_unmapped {dr pl : Fin 8} {col : Fin 32} {s : State} (h : s.gmap ≠ .mapped) :
    shiftColumn dr pl col s = .error (.windowNotMapped .gpio) := by
  rw [shiftColumn, clearColourClock_unmapped h]; rfl

theorem pulseLatch_unmapped {s : State} (h : s.gmap ≠ .mapped) : pulseLatch s = .error (.windowNotMapped .gpio) := by
  rw [pulseLatch, setPins_unmapped h]; rfl

/-- The dwell unblanks through the GPIO window before it reads the counter. -/
theorem dwellPlane_lacks {w : Window} {pl : Fin 8} {s : State} (h : s.Lacks w) :
    dwellPlane pl s = .error (.windowNotMapped w) := by
  cases w with
  | gpio => rw [dwellPlane, clearPins_unmapped h]; rfl
  | timer =>
    obtain ⟨hg, ht⟩ := h
    obtain ⟨s1, h1, a, -⟩ := clearPins_spec (pinBit s.platform.pins.oe) hg
    rw [dwellPlane, h1, ok_bind, sleepNanos_unmapped (by rwa [a.tmap])]; rfl

/-- A row-plane shifts its columns through the GPIO window before it dwells. -/
theorem rowPlane_lacks {w : Window} {dr pl : Fin 8} {s : State} (h : s.Lacks w) :
    rowPlane dr pl s = .error (.windowNotMapped w) := by
  cases w with
  | gpio => rw [rowPlane, rowPlaneShift, clearColourClock_unmapped h]; rfl
  | timer =>
    obtain ⟨hg, ht⟩ := h
    obtain ⟨s1, h1, a, -⟩ := rowPlaneShift_spec dr pl hg
    have h1' : s1.Lacks .timer := ⟨a.gmap.trans hg, by rwa [a.tmap]⟩
    rw [rowPlane, h1, ok_bind, dwellPlane_lacks h1']; rfl

/-- A sweep is refused in its first row-plane. -/
theorem sweepPanel_lacks {w : Window} {s : State} (h : s.Lacks w) : sweepPanel s = .error (.windowNotMapped w) := by
  have h' : ({ s with pos := Pos.start } : State).Lacks w := by cases w <;> exact h
  rw [sweepPanel, List.finRange_succ, doubleRows, List.finRange_succ, rowPlanes, rowPlane_lacks h']; rfl

theorem requireMapped_closed {w : Window} {s : State} (h : s.handle w ≠ .mapped) :
    requireMapped w s = .error (.windowNotMapped w) := by
  rw [requireMapped, beq_eq_false_iff_ne.mpr h, require_false]

/-- SCROLLCHK and RUN ask for both windows, the GPIO window first (log entry 13). -/
theorem requireMapped_lacks {α : Type} {w : Window} {s : State} (h : s.Lacks w) (f : Unit → Except Refusal α) :
    (requireMapped .gpio s >>= fun _ => requireMapped .timer s >>= f) = .error (.windowNotMapped w) := by
  cases w with
  | gpio => rw [requireMapped_closed (w := .gpio) h]; rfl
  | timer =>
    obtain ⟨hg, ht⟩ := h
    rw [requireMapped_ok (w := .gpio) hg, ok_bind, requireMapped_closed (w := .timer) ht]; rfl

/-- The operations that use both windows, in Ready with operands in range. -/
theorem exec_lacks {i : Instr} {w : Window} {s : State} (hu : usesTimer i = true) (hr : s.mode = .ready)
    (hw : i.wellFormed = true) (h : s.Lacks w) : exec i s = .refused (.windowNotMapped w) := by
  have ready : (s.mode == .ready) = true := beq_iff_eq.mpr hr
  cases i with
  | run b => rw [execRun_eq, acceptedIn, if_pos ready, requireMapped_lacks h]; rfl
  | dwell pl =>
    have hpl : pl.toNat < 8 := of_decide_eq_true hw
    rw [execDwell_eq, acceptedIn, if_pos ready, octalOperand_low hpl, ok_bind, dwellPlane_lacks h]; rfl
  | rowplane dr pl =>
    obtain ⟨hdr, hpl⟩ : dr.toNat < 8 ∧ pl.toNat < 8 := by simpa [Instr.wellFormed] using hw
    rw [execRowplane_eq, acceptedIn, if_pos ready, octalOperand_low hdr, octalOperand_low hpl, ok_bind, ok_bind,
      rowPlane_lacks h]; rfl
  | sweep => rw [execSweep_eq, acceptedIn, if_pos ready, sweepPanel_lacks h]; rfl
  | scrollchk => rw [execScrollchk_eq, acceptedIn, if_pos ready, requireMapped_lacks h]; rfl
  | _ => cases hu

/-- Every sequencer operation, in Ready with operands in range, needs the GPIO window. -/
theorem exec_unmapped {i : Instr} {s : State} (hi : isSequencer i = true) (hr : s.mode = .ready)
    (hw : i.wellFormed = true) (h : s.gmap ≠ .mapped) : exec i s = .refused (.windowNotMapped .gpio) := by
  have ready : (s.mode == .ready) = true := beq_iff_eq.mpr hr
  have both {i : Instr} (hu : usesTimer i = true) (hw : i.wellFormed = true) :
      exec i s = .refused (.windowNotMapped .gpio) := exec_lacks hu hr hw h
  cases i with
  | clrcc => rw [execClrcc_eq, acceptedIn, if_pos ready, clearColourClock_unmapped h]; rfl
  | shiftcol dr pl col =>
    obtain ⟨⟨hdr, hpl⟩, hcol⟩ : (dr.toNat < 8 ∧ pl.toNat < 8) ∧ col.toNat < 32 := by
      simpa [Instr.wellFormed] using hw
    rw [execShiftcol_ready (d := ⟨_, hdr⟩) (p := ⟨_, hpl⟩) (c := ⟨_, hcol⟩) hr rfl rfl rfl, shiftColumn_unmapped h]; rfl
  | addr dr => rw [execAddr_eq, acceptedIn, if_pos ready, putAddress, writeMasked_unmapped h]; rfl
  | latch => rw [execLatch_eq, acceptedIn, if_pos ready, pulseLatch_unmapped h]; rfl
  | run b => exact both rfl hw
  | dwell pl => exact both rfl hw
  | rowplane dr pl => exact both rfl hw
  | sweep => exact both rfl hw
  | scrollchk => exact both rfl hw
  | _ => cases hi

/-- Settles O8: the four range checks one by one, then the first closed window of each sequencer operation. -/
theorem operandOutOfRangeIsRefused : Obligations.OperandOutOfRangeIsRefused := by
  refine ⟨fun i s ha hw => ?_, fun _ _ => exec_unmapped, fun _ _ hu hr hw hg ht => exec_lacks hu hr hw ⟨hg, ht⟩⟩
  obtain ⟨pin, rfl, h⟩ | ⟨dr, pl, col, rfl, h⟩ | ⟨pl, rfl, h⟩ | ⟨dr, pl, rfl, h⟩ := wellFormed_false_cases hw
  · exact execCfgout1_outOfRange ha h
  · exact execShiftcol_outOfRange ha h
  · exact execDwell_outOfRange ha h
  · exact execRowplane_outOfRange ha h

end Sys2Proof.Machine
end

section
/-! SUPPORT. The decoder and the encoder undo each other, and the records they speak of are those of the operation table
(30_encoding.md R95 to R100). -/

namespace Sys2Proof

/-! ### Decoding an operation's record -/

@[simp] theorem reservedZero_zero {w : Nat} (i : Instr) : reservedZero 0#w i = .ok i := if_pos rfl

@[simp] theorem windowInstr_code (w : Window) (mk : Window → Instr) : windowInstr w.code 0#32 mk = .ok (mk w) := by
  cases w <;> rfl

/-- Settles O2: packing a record keeps its fields, and each operand is in the bits where the decoder looks for it. -/
theorem decodeOfEncodeIsTheOperation : Obligations.DecodeOfEncodeIsTheOperation := by
  intro i
  cases i with
  | run b => cases b <;> rfl
  | shiftcol dr pl col =>
    obtain ⟨hz, hpl, hcol⟩ := shiftcol_fields pl col
    simp only [encode, decode, Record.op_pack, Record.a_pack, Record.b_pack, hz, hpl, hcol]
    rfl
  | _ => simp [encode, decode]

/-! ### The operation table -/

/-- The opcodes with the number of bits that operands take in a and in b; the bits above are reserved (30_encoding.md R96,
R97, R100). -/
def operandBits : List (BitVec 8 × Nat × Nat) :=
  [(0x01, 1, 0), (0x02, 1, 0), (0x03, 32, 0), (0x04, 0, 0), (0x05, 0, 0), (0x06, 1, 0), (0x10, 32, 0), (0x11, 32, 0),
   (0x12, 32, 0), (0x13, 32, 0), (0x14, 32, 32), (0x15, 32, 0), (0x16, 0, 0), (0x20, 0, 0), (0x21, 32, 0), (0x30, 0, 0),
   (0x31, 24, 32), (0x40, 0, 0), (0x41, 32, 16), (0x42, 32, 0), (0x43, 0, 0), (0x44, 32, 0), (0x45, 32, 32), (0x46, 0, 0),
   (0x47, 0, 0)]

/-- The bits of a word from k up are zero. -/
def UsesOnly (k : Nat) (x : Word) : Prop := x.extractLsb' k (32 - k) = 0

theorem usesOnly_zero {x : Word} : UsesOnly 0 x ↔ x = 0 := by rw [UsesOnly, extract_all]

theorem usesOnly_all (x : Word) : UsesOnly 32 x := BitVec.of_length_zero

/-- A record has an opcode of the table and zeros in that opcode's reserved bits (30_encoding.md R97, R98). -/
def Record.Legal (r : Record) : Prop := ∃ f ∈ operandBits, r.op = f.1 ∧ UsesOnly f.2.1 r.a ∧ UsesOnly f.2.2 r.b

/-- An opcode stands in the table once, so its own entry decides. -/
theorem Record.legal_iff {r : Record} {o : BitVec 8} {ka kb : Nat} (ho : r.op = o) (hf : (o, ka, kb) ∈ operandBits) :
    r.Legal ↔ UsesOnly ka r.a ∧ UsesOnly kb r.b := by
  have once : ∀ f ∈ operandBits, ∀ g ∈ operandBits, f.1 = g.1 → f = g := by decide
  refine ⟨fun ⟨f, hm, hop, h⟩ => ?_, fun h => ⟨_, hf, ho, h⟩⟩
  obtain rfl := once f hm _ hf (hop.symm.trans ho)
  exact h

/-- The row of an opcode as (match, mask): the mask has the opcode and the reserved bits. -/
def tableRow (f : BitVec 8 × Nat × Nat) : Record × Record :=
  (Record.pack f.1 0 0, Record.pack 0xFF (BitVec.allOnes 32 <<< f.2.1) (BitVec.allOnes 32 <<< f.2.2))

theorem commandRows_eq : Machine.commandRows = operandBits.map tableRow := by decide

theorem highMask_bit {k i : Nat} (hi : i < 32) : (BitVec.allOnes 32 <<< k).getLsbD i = decide (k ≤ i) := by
  have hle : i - k < 32 := Nat.lt_of_le_of_lt (Nat.sub_le i k) hi
  rw [BitVec.getLsbD_shiftLeft, BitVec.getLsbD_allOnes, decide_eq_true hi, decide_eq_true hle, Bool.and_true, Bool.true_and,
    ← decide_not]
  exact decide_eq_decide.mpr Nat.not_lt

theorem and_high_eq_zero {x : Word} {k : Nat} : x &&& BitVec.allOnes 32 <<< k = 0 ↔ UsesOnly k x := by
  constructor
  · intro h
    apply BitVec.eq_of_getLsbD_eq
    intro i hi
    have hbit : x.getLsbD (k + i) = false := by
      have hand := congrArg (·.getLsbD (k + i)) h
      simp only [BitVec.getLsbD_and, highMask_bit (show k + i < 32 by omega)] at hand
      rw [decide_eq_true (Nat.le_add_right k i), Bool.and_true] at hand
      exact hand.trans BitVec.getLsbD_zero
    rw [BitVec.getLsbD_extractLsb', hbit, Bool.and_false]
    exact BitVec.getLsbD_zero.symm
  · intro h
    apply BitVec.eq_of_getLsbD_eq
    intro i hi
    rw [BitVec.getLsbD_and, highMask_bit hi, show (0 : Word).getLsbD i = false from BitVec.getLsbD_zero]
    by_cases hk : k ≤ i
    · have hext := congrArg (·.getLsbD (i - k)) h
      simp only [BitVec.getLsbD_extractLsb', show i - k < 32 - k by omega, decide_true, Bool.true_and,
        Nat.add_sub_cancel' hk] at hext
      rw [show x.getLsbD i = false from hext.trans BitVec.getLsbD_zero, Bool.false_and]
    · rw [decide_eq_false hk, Bool.and_false]

theorem agrees_tableRow {r : Record} {f : BitVec 8 × Nat × Nat} :
    r &&& (tableRow f).2 = (tableRow f).1 ↔ r.op = f.1 ∧ UsesOnly f.2.1 r.a ∧ UsesOnly f.2.2 r.b := by
  have hand : r &&& (tableRow f).2 =
      Record.pack (r.op &&& BitVec.allOnes 8) (r.a &&& BitVec.allOnes 32 <<< f.2.1) (r.b &&& BitVec.allOnes 32 <<< f.2.2) := by
    rw [← Record.pack_and, r.pack_fields]
    rfl
  rw [hand, tableRow, Record.pack_inj, BitVec.and_allOnes, and_high_eq_zero, and_high_eq_zero]

theorem Record.legal_iff_row {r : Record} : r.Legal ↔ ∃ row ∈ Machine.commandRows, r &&& row.2 = row.1 := by
  rw [commandRows_eq]
  constructor
  · rintro ⟨f, hf, h⟩
    exact ⟨tableRow f, List.mem_map_of_mem hf, agrees_tableRow.mpr h⟩
  · rintro ⟨row, hrow, h⟩
    obtain ⟨f, hf, rfl⟩ := List.mem_map.mp hrow
    exact ⟨f, hf, agrees_tableRow.mp h⟩

/-! ### The record of a decoded operation -/

theorem Record.pack_eq_iff {r : Record} {o : BitVec 8} {a b : Word} :
    Record.pack o a b = r ↔ r.op = o ∧ r.a = a ∧ r.b = b := by
  rw [eq_comm, ← Record.pack_inj, Record.pack_fields]

/-- A decoding of a record: it answers exactly for a legal record, and then with the operation that has this record. -/
structure Decodes (r : Record) (x : Except DecodeError Instr) : Prop where
  encodes : ∀ i, x = .ok i → encode i = r
  answers : (∃ i, x = .ok i) ↔ r.Legal

section
variable {r : Record} {o : BitVec 8} {j : Instr}

theorem Decodes.of_reserved {w : Nat} {bits : BitVec w} {ka kb : Nat} (ho : r.op = o) (hf : (o, ka, kb) ∈ operandBits)
    (hz : bits = 0 ↔ UsesOnly ka r.a ∧ UsesOnly kb r.b) (hj : bits = 0 → encode j = r) :
    Decodes r (reservedZero bits j) where
  encodes := by
    intro i h
    obtain ⟨hbits, rfl⟩ := reservedZero_eq_ok.mp h
    exact hj hbits
  answers := by
    rw [Record.legal_iff ho hf, ← hz]
    simp [reservedZero_eq_ok]

/-- An operation without operands: a and b are reserved. -/
theorem Decodes.noOperand (hj : encode j = Record.pack o 0 0) (hf : (o, 0, 0) ∈ operandBits) (ho : r.op = o) :
    Decodes r (reservedZero (r.a ++ r.b) j) := by
  refine .of_reserved ho hf (by rw [append_eq_zero, usesOnly_zero, usesOnly_zero]) fun hz => ?_
  exact hj.trans (Record.pack_eq_iff.mpr ⟨ho, append_eq_zero.mp hz⟩)

/-- An operation with one operand word: b is reserved. -/
theorem Decodes.oneOperand (hj : encode j = Record.pack o r.a 0) (hf : (o, 32, 0) ∈ operandBits) (ho : r.op = o) :
    Decodes r (reservedZero r.b j) := by
  refine .of_reserved ho hf (by simp [usesOnly_all, usesOnly_zero]) fun hz => ?_
  exact hj.trans (Record.pack_eq_iff.mpr ⟨ho, rfl, hz⟩)

/-- An operation with two operand words: nothing is reserved. -/
theorem Decodes.twoOperands (hj : encode j = Record.pack o r.a r.b) (hf : (o, 32, 32) ∈ operandBits) (ho : r.op = o) :
    Decodes r (.ok j) where
  encodes := by
    intro i h
    obtain rfl := Except.ok.inj h
    exact hj.trans (Record.pack_eq_iff.mpr ⟨ho, rfl, rfl⟩)
  answers := by simp [Record.legal_iff ho hf, usesOnly_all]

end

/-- A word with reserved bits 31:1 zero is RUN's packed operand (30_encoding.md R96). -/
theorem run_word {a : Word} (h : UsesOnly 1 a) : (if a.getLsbD 0 then 1 else 0) = a := by
  have hbit : a.extractLsb' 0 1 = BitVec.ofBool (a.getLsbD 0) := by ext i hi; simp [show i = 0 by omega]
  have hparts := append_parts (m := 31) (n := 1) a
  rw [show a.extractLsb' 1 31 = 0 from h, hbit] at hparts
  rw [← hparts]
  cases a.getLsbD 0 <;> rfl

/-- The window operands are the words of one bit (44_system.md R220). -/
theorem window_word {a : Word} : UsesOnly 1 a ↔ a = 0 ∨ a = 1 := by
  constructor
  · intro h
    rw [← run_word h]
    cases a.getLsbD 0
    · exact .inl rfl
    · exact .inr rfl
  · rintro (rfl | rfl) <;> rfl

/-- An operation on a window. -/
theorem Decodes.window {r : Record} {o : BitVec 8} {mk : Window → Instr}
    (hmk : ∀ w, encode (mk w) = Record.pack o w.code 0) (hf : (o, 1, 0) ∈ operandBits) (ho : r.op = o) :
    Decodes r (windowInstr r.a r.b mk) where
  encodes := by
    intro i h
    obtain ⟨hb, ⟨ha, rfl⟩ | ⟨ha, rfl⟩⟩ := windowInstr_eq_ok.mp h
    · exact (hmk .gpio).trans (Record.pack_eq_iff.mpr ⟨ho, ha, hb⟩)
    · exact (hmk .timer).trans (Record.pack_eq_iff.mpr ⟨ho, ha, hb⟩)
  answers := by
    rw [Record.legal_iff ho hf, window_word, usesOnly_zero]
    simp [windowInstr_eq_ok, exists_or, and_comm]

/-- Opcode by opcode, the fields that hold no operand are the table's reserved bits. -/
theorem decode_decodes (r : Record) : Decodes r (decode r) := by
  unfold decode
  split
  next ho => exact .window (fun _ => rfl) (by decide) ho  -- MAPOPEN
  next ho => exact .window (fun _ => rfl) (by decide) ho  -- MAPCLOSE
  next ho => exact .oneOperand rfl (by decide) ho  -- INIT
  next ho => exact .noOperand rfl (by decide) ho  -- TINIT
  next ho => exact .noOperand rfl (by decide) ho  -- TEARDOWN
  next ho =>  -- RUN
    refine .of_reserved (ka := 1) (kb := 0) ho (by decide) (by rw [usesOnly_zero]; exact append_eq_zero) fun hz => ?_
    obtain ⟨ha, hb⟩ := append_eq_zero.mp hz
    exact Record.pack_eq_iff.mpr ⟨ho, (run_word ha).symm, hb⟩
  next ho => exact .oneOperand rfl (by decide) ho  -- CFGOUT1
  next ho => exact .oneOperand rfl (by decide) ho  -- CFGOUTS
  next ho => exact .oneOperand rfl (by decide) ho  -- SET
  next ho => exact .oneOperand rfl (by decide) ho  -- CLR
  next ho => exact .twoOperands rfl (by decide) ho  -- WRM
  next ho => exact .oneOperand rfl (by decide) ho  -- ROWADDR
  next ho => exact .noOperand rfl (by decide) ho  -- RDLEV
  next ho => exact .noOperand rfl (by decide) ho  -- TREAD
  next ho => exact .oneOperand rfl (by decide) ho  -- SLEEPNS
  next ho => exact .noOperand rfl (by decide) ho  -- ADVANCE
  next ho =>  -- PLANEBITS
    refine .of_reserved (ka := 24) (kb := 32) ho (by decide) (and_iff_left (usesOnly_all r.b)).symm fun hz => ?_
    exact Record.pack_eq_iff.mpr ⟨ho, hz ▸ (pixelWord_ofBits r.a).symm, (pixelWord_ofBits r.b).symm⟩
  next ho => exact .noOperand rfl (by decide) ho  -- CLRCC
  next ho =>  -- SHIFTCOL
    refine .of_reserved (ka := 32) (kb := 16) ho (by decide) (and_iff_right (usesOnly_all r.a)).symm fun hz => ?_
    exact Record.pack_eq_iff.mpr ⟨ho, rfl, (shiftcol_word r.b hz).symm⟩
  next ho => exact .oneOperand rfl (by decide) ho  -- ADDR
  next ho => exact .noOperand rfl (by decide) ho  -- LATCH
  next ho => exact .oneOperand rfl (by decide) ho  -- DWELL
  next ho => exact .twoOperands rfl (by decide) ho  -- ROWPLANE
  next ho => exact .noOperand rfl (by decide) ho  -- SWEEP
  next ho => exact .noOperand rfl (by decide) ho  -- SCROLLCHK
  next =>  -- no opcode of the table
    have hnone : r.op ∉ operandBits.map Prod.fst := by
      simp only [operandBits, List.map_cons, List.map_nil, List.mem_cons, List.not_mem_nil, or_false, not_or]
      and_intros <;> assumption
    refine ⟨fun _ h => (nomatch h), fun ⟨_, h⟩ => (nomatch h), fun ⟨f, hf, ho, _⟩ => absurd ?_ hnone⟩
    exact ho ▸ List.mem_map_of_mem hf

/-- Settles O3, by the decoder's cases. -/
theorem encodeOfDecodeIsTheRecord : Obligations.EncodeOfDecodeIsTheRecord := fun r => (decode_decodes r).encodes

/-- Settles O4: the decoder answers for the legal records, and the rows' masks say the same. -/
theorem legalRecordsAreTheTableRows : Obligations.LegalRecordsAreTheTableRows := fun r =>
  (decode_decodes r).answers.trans Record.legal_iff_row

/-- Settles O1, by evaluating the decoder on each record. -/
theorem writtenRecordsDecode : Obligations.WrittenRecordsDecode := by
  unfold Obligations.WrittenRecordsDecode
  decide

end Sys2Proof
end

section
/-! SUPPORT. The operations on the pins, the counter, the windows and the sequencer, each from what its shared operation does
(40_gpio.md R124, R126, 41_timer.md R140, 42_frame.md R162, 43_sequencer.md R181 to R189, 44_system.md R220, R223). -/

namespace Sys2Proof.Machine

/-! ### The pins (40_gpio.md R124, R126) -/

/-- Settles O22: the clear half and the set half add up to the value under the mask. -/
theorem wrmClearsThenSetsUnderTheMask : Obligations.WrmClearsThenSetsUnderTheMask := by
  intro value mask s ha
  obtain ⟨t, ht, a, ho, -, htr⟩ := writeMasked_spec value mask (setup_mapped ha)
  rw [execWrm_eq, if_pos ha, ht]
  refine ⟨t, rfl, a, htr, fun k hk => ?_⟩
  simp only [ho, BitVec.getLsbD_or, BitVec.getLsbD_and, BitVec.getLsbD_not, hk, decide_true, Bool.true_and]
  cases mask.getLsbD k <;> simp

/-- A role's pin mask, where the role's condition holds, has that pin's bit alone. -/
theorem maskIf_pinBit_getLsbD (b : Bool) (j : PinIndex) (k : Nat) :
    (maskIf b (pinBit j)).getLsbD k = (b && j.val == k) := by
  have hpin : (pinBit j).getLsbD k = (j.val == k) := by
    have hj : j.val < 32 := by omega
    rw [pinBit, ← BitVec.twoPow_eq, BitVec.getLsbD_twoPow, decide_eq_true hj, Bool.true_and]
    rfl
  cases b <;> simp [maskIf, hpin]

/-- Settles O27: each role's mask is one bit, so RES is the masked sum of five bits. -/
theorem rowaddrSelectsTheAddressPins : Obligations.RowaddrSelectsTheAddressPins := by
  intro dr s ha
  rw [execRowaddr_eq, if_pos ha]
  refine ⟨_, rfl, rfl, fun k _ => ?_⟩
  simp only [rowAddressBits, BitVec.getLsbD_and, BitVec.getLsbD_or, maskIf_pinBit_getLsbD]
  exact Bool.and_comm ..

/-! ### The counter and the frame (41_timer.md R140, 42_frame.md R162) -/

/-- Settles O29. -/
theorem treadReadsTheCounter : Obligations.TreadReadsTheCounter := by
  intro s ha
  rw [execTread_eq, if_pos ha]
  exact ⟨_, rfl, rfl⟩

/-- Settles O37. -/
theorem planebitsLeavesThePlaneBits : Obligations.PlanebitsLeavesThePlaneBits := by
  intro top plane bottom s ha
  rw [execPlanebits_eq, if_pos ha]

/-! ### The sequencer's acceptance (30_encoding.md R102) -/

/-- The last row of the acceptance table: a sequencer operation is accepted exactly in Ready. -/
theorem acceptedIn_sequencer {i : Instr} {s : State} (hi : isSequencer i = true) :
    acceptedIn i s = true ↔ s.mode = .ready := by
  cases i with
  | run _ | clrcc | shiftcol _ _ _ | addr _ | latch | dwell _ | rowplane _ _ | sweep | scrollchk => exact beq_iff_eq
  | _ => cases hi

/-! ### The steps of a row-plane (43_sequencer.md R181, R183 to R185) -/

/-- Settles O39: the seven lines are the bits of CC_MASK. -/
theorem clrccLowersColourAndClock : Obligations.ClrccLowersColourAndClock := by
  refine ⟨by decide, fun s hm => ?_, fun s hm hg => ?_⟩
  · rw [execClrcc_eq, if_neg (mt (acceptedIn_sequencer rfl).mp hm)]
  · obtain ⟨t, ht, a, ho, -, htr⟩ := clearColourClock_spec hg
    rw [execClrcc_eq, if_pos ((acceptedIn_sequencer rfl).mpr hm), ht]
    refine ⟨t, rfl, a, ho, htr, fun k hk => ?_⟩
    obtain ⟨hclk, hr1, hg1, hb1, hr2, hg2, hb2⟩ := ccMask_bits s.platform.pins
    have hcc : (ccMask s.platform.pins).getLsbD k.val = true := by
      simp only [List.mem_cons, List.not_mem_nil, or_false] at hk
      obtain rfl | rfl | rfl | rfl | rfl | rfl | rfl := hk <;> assumption
    simp [ho, hcc]

/-- Settles O41. -/
theorem addrShowsTheRowAddress : Obligations.AddrShowsTheRowAddress := by
  intro dr s hm hg
  obtain ⟨t, ht, a, ho, hw⟩ := putAddress_spec dr.toNat hg
  rw [execAddr_eq, if_pos ((acceptedIn_sequencer rfl).mpr hm), ht]
  exact ⟨t, rfl, a, ho, hw⟩

/-- Settles O42. -/
theorem latchPulsesHighThenLow : Obligations.LatchPulsesHighThenLow := by
  refine ⟨by decide, fun s hm => ?_, fun s hm hg => ?_⟩
  · rw [execLatch_eq, if_neg (mt (acceptedIn_sequencer rfl).mp hm)]
  · obtain ⟨t, ht, a, ho, htr⟩ := pulseLatch_spec hg
    rw [execLatch_eq, if_pos ((acceptedIn_sequencer rfl).mpr hm), ht]
    exact ⟨t, rfl, a, ho, htr⟩

/-- Settles O43. -/
theorem dwellUnblanksThenBlanks : Obligations.DwellUnblanksThenBlanks := by
  intro pl p s hm hg ht hpl
  obtain ⟨t, evs, hd, a, ho, hevs, htr⟩ := dwellPlane_spec p hg ht
  rw [execDwell_eq, if_pos ((acceptedIn_sequencer rfl).mpr hm), octalOperand_eq_ok.mpr hpl, ok_bind, hd]
  exact ⟨t, evs, rfl, a, ho, htr, hevs⟩

/-! ### SWEEP and RUN (43_sequencer.md R187, R189) -/

/-- Settles O46. -/
theorem sweepShowsEveryRowPlaneInOrder : Obligations.SweepShowsEveryRowPlaneInOrder := by
  intro s hm hg ht
  obtain ⟨t, hs, a, ho, hw⟩ := sweepPanel_spec hg ht
  rw [execSweep_eq, if_pos ((acceptedIn_sequencer rfl).mpr hm), hs]
  exact ⟨t, _, rfl, a, ho, hw⟩

/-- Settles O48. -/
theorem runEntersTheLoop : Obligations.RunEntersTheLoop := by
  intro e s hm hg ht
  rw [execRun_eq, if_pos ((acceptedIn_sequencer rfl).mpr hm), requireMapped_ok (w := .gpio) hg, ok_bind,
    requireMapped_ok (w := .timer) ht, ok_bind, timerRead_ok (s := { s with scrollEn := e }) ht]
  exact ⟨_, rfl, rfl⟩

/-! ### Opening a window (44_system.md R220, R223) -/

theorem openWindow_ok {w : Window} {s : State} (hp : s.platform.privileged = true) (hok : s.mapOk w = true) :
    openWindow w s = .ok (s.setHandle w .mapped) := by
  simp only [openWindow, hp, hok, if_true]

/-- Settles O56. -/
theorem mapopenMapsTheWindow : Obligations.MapopenMapsTheWindow := by
  intro s hm hp
  refine ⟨fun hg hok => ?_, fun ht hok => ?_⟩
  · rw [execMapopen_eq, if_pos (by simp [acceptedIn, State.handle, hm, hg]), openWindow_ok (w := .gpio) hp hok]; rfl
  · rw [execMapopen_eq, if_pos (by simp [acceptedIn, State.handle, hm, ht]), openWindow_ok (w := .timer) hp hok]; rfl

theorem readyIf_eq (b : Bool) (s : State) : readyIf b s = { s with mode := if b then .ready else s.mode } := by
  cases b <;> rfl

/-- Settles O60: INIT has completed exactly if TIMING[0] = 1000. -/
theorem tinitCompletesTheConstruction : Obligations.TinitCompletesTheConstruction := by
  intro s hm ht hp hok
  have hboth : (s.gmap == .mapped && s.initCompleted) = decide (s.gmap = .mapped ∧ s.timing[0] = 1000#32) := by
    rw [Bool.decide_and]; rfl
  rw [execTinit_eq, if_pos (by simp [acceptedIn, hm, ht]), openWindow_ok (w := .timer) hp hok]
  show Host.Outcome.next (readyIf (s.gmap == .mapped && s.initCompleted) (s.setHandle .timer .mapped)) = _
  rw [readyIf_eq, hboth]
  simp [State.setHandle, hm]

end Sys2Proof.Machine
end

section
/-! SUPPORT. When an operation is refused: WrongState outside the acceptance table and nowhere else (30_encoding.md R102,
60_exceptions.md R248, R249), IllegalCommand for a record that is no command (R97, R98). -/

namespace Sys2Proof.Machine

/-! ### WrongState -/

/-- Every operation checks the acceptance table first. -/
theorem exec_notAccepted {i : Instr} {s : State} (h : acceptedIn i s = false) : exec i s = .refused .wrongState := by
  have hna : ¬ acceptedIn i s = true := by simp [h]
  cases i with
  | mapopen w => rw [execMapopen_eq, if_neg hna]
  | mapclose w => rw [execMapclose_eq, if_neg hna]
  | init n => rw [execInit_eq, if_neg hna]
  | tinit => rw [execTinit_eq, if_neg hna]
  | teardown => rw [execTeardown_eq, if_neg hna]
  | run e => rw [execRun_eq, if_neg hna]
  | cfgout1 pin => rw [execCfgout1_eq, if_neg hna]
  | cfgouts mask => rw [execCfgouts_eq, if_neg hna]
  | set mask => rw [execSet_eq, if_neg hna]
  | clr mask => rw [execClr_eq, if_neg hna]
  | wrm value mask => rw [execWrm_eq, if_neg hna]
  | rowaddr dr => rw [execRowaddr_eq, if_neg hna]
  | rdlev => rw [execRdlev_eq, if_neg hna]
  | tread => rw [execTread_eq, if_neg hna]
  | sleepns n => rw [execSleepns_eq, if_neg hna]
  | advance => rw [execAdvance_eq, if_neg hna]
  | planebits top plane bottom => rw [execPlanebits_eq, if_neg hna]
  | clrcc => rw [execClrcc_eq, if_neg hna]
  | shiftcol dr pl col => rw [execShiftcol_eq, if_neg hna]
  | addr dr => rw [execAddr_eq, if_neg hna]
  | latch => rw [execLatch_eq, if_neg hna]
  | dwell pl => rw [execDwell_eq, if_neg hna]
  | rowplane dr pl => rw [execRowplane_eq, if_neg hna]
  | sweep => rw [execSweep_eq, if_neg hna]
  | scrollchk => rw [execScrollchk_eq, if_neg hna]

/-- What an operation of the acceptance table answers: a next state, or a refusal by another name than WrongState. -/
def Answers (x : Host.Outcome State Fault Refusal) : Prop := (∃ t, x = .next t) ∨ ∃ r, x = .refused r ∧ r ≠ .wrongState

theorem Answers.ne_wrongState {x : Host.Outcome State Fault Refusal} (h : Answers x) : x ≠ .refused .wrongState := by
  obtain ⟨t, rfl⟩ | ⟨r, rfl, hr⟩ := h
  · nofun
  · exact fun he => hr (Host.Outcome.refused.inj he)

/-- A next state with some property is an answer. -/
theorem Answers.of_next {x : Host.Outcome State Fault Refusal} {P : State → Prop} (h : ∃ t, x = .next t ∧ P t) :
    Answers x := by
  obtain ⟨t, ht, -⟩ := h
  exact .inl ⟨t, ht⟩

/-- What follows an answer and is never refused answers too. -/
theorem Answers.andThen {x : Except Refusal State} (h : Answers (complete x)) (f : State → State) :
    Answers (complete (x >>= fun t => .ok (f t))) := by
  cases x with
  | ok t => exact .inl ⟨f t, rfl⟩
  | error r => exact h

/-- The scroll load is refused for want of a usable source image only. -/
theorem advanceFrame_answers (s : State) : Answers (complete (advanceFrame s)) := by
  cases hx : advanceFrame s with
  | ok t => exact .inl ⟨t, rfl⟩
  | error r => exact .inr ⟨r, rfl, by rw [advanceFrame_error hx]; nofun⟩

theorem scrollCheck_answers {s : State} (ht : s.tmap = .mapped) : Answers (complete (scrollCheck s)) := by
  cases he : s.scrollEn with
  | false => exact .inl ⟨s, by rw [scrollCheck_off he]; rfl⟩
  | true =>
    rw [scrollCheck_on he ht]
    split
    · exact (advanceFrame_answers _).andThen _
    · exact .inl ⟨_, rfl⟩

/-- INIT answers whether or not its window opens. -/
theorem execInit_answers {n : Word} {s : State} (ha : acceptedIn (.init n) s = true) : Answers (exec (.init n) s) := by
  rw [execInit_eq, if_pos ha]
  obtain ⟨-, ho⟩ | ⟨-, -, ho⟩ | ⟨-, -, ho⟩ := openWindow_cases .gpio s <;> rw [ho]
  · exact .inl ⟨_, rfl⟩
  · exact .inl ⟨_, rfl⟩
  · obtain ⟨u, -, hu⟩ := constructGpio_spec n (s := s.setHandle .gpio .mapped) rfl
    exact .inl ⟨_, congrArg complete hu⟩

/-- A sequencer operation in Ready, with operands in range and the windows it needs mapped. -/
theorem exec_answers_mapped {i : Instr} {s : State} (hi : isSequencer i = true) (hr : s.mode = .ready)
    (hw : i.wellFormed = true) (hg : s.gmap = .mapped) (ht : usesTimer i = true → s.tmap = .mapped) :
    Answers (exec i s) := by
  cases i with
  | run e => exact .of_next (runEntersTheLoop e s hr hg (ht rfl))
  | clrcc =>
    obtain ⟨-, -, h⟩ := clrccLowersColourAndClock
    exact .of_next (h s hr hg)
  | shiftcol dr pl col =>
    obtain ⟨⟨hdr, hpl⟩, hcol⟩ : (dr.toNat < 8 ∧ pl.toNat < 8) ∧ col.toNat < 32 := by
      simpa [Instr.wellFormed] using hw
    exact .of_next (shiftcolShiftsOneColumn dr pl col ⟨_, hdr⟩ ⟨_, hpl⟩ ⟨_, hcol⟩ s hr hg rfl rfl rfl)
  | addr dr => exact .of_next (addrShowsTheRowAddress dr s hr hg)
  | latch =>
    obtain ⟨-, -, h⟩ := latchPulsesHighThenLow
    exact .of_next (h s hr hg)
  | dwell pl =>
    obtain ⟨t, -, h, -⟩ := dwellUnblanksThenBlanks pl ⟨_, of_decide_eq_true hw⟩ s hr hg (ht rfl) rfl
    exact .inl ⟨t, h⟩
  | rowplane dr pl =>
    obtain ⟨hdr, hpl⟩ : dr.toNat < 8 ∧ pl.toNat < 8 := by simpa [Instr.wellFormed] using hw
    obtain ⟨t, h, -⟩ := rowPlane_answers ⟨_, hdr⟩ ⟨_, hpl⟩ hg (ht rfl)
    rw [execRowplane_eq, if_pos ((acceptedIn_sequencer rfl).mpr hr), octalOperand_low hdr, octalOperand_low hpl, ok_bind,
      ok_bind, h]
    exact .inl ⟨t, rfl⟩
  | sweep =>
    obtain ⟨t, -, h, -⟩ := sweepShowsEveryRowPlaneInOrder s hr hg (ht rfl)
    exact .inl ⟨t, h⟩
  | scrollchk =>
    rw [execScrollchk_ready hr hg (ht rfl)]
    exact scrollCheck_answers (ht rfl)
  | _ => cases hi

/-- A sequencer operation in Ready with operands in range: it answers, or is refused for a closed window. -/
theorem exec_answers_sequencer {i : Instr} {s : State} (hi : isSequencer i = true) (hr : s.mode = .ready)
    (hw : i.wellFormed = true) : Answers (exec i s) := by
  by_cases hg : s.gmap = .mapped
  · by_cases ht : usesTimer i = true → s.tmap = .mapped
    · exact exec_answers_mapped hi hr hw hg ht
    · obtain ⟨hu, ht⟩ := Classical.not_imp.mp ht
      exact .inr ⟨_, exec_lacks (w := .timer) hu hr hw ⟨hg, ht⟩, nofun⟩
  · exact .inr ⟨_, exec_unmapped hi hr hw hg, nofun⟩

/-- Every other operation, where accepted and with operands in range: only ADVANCE is ever refused. -/
theorem exec_answers_setup {i : Instr} {s : State} (hi : isSequencer i = false) (ha : acceptedIn i s = true)
    (hw : i.wellFormed = true) : Answers (exec i s) := by
  cases i with
  | mapopen w => exact .inl ⟨_, by rw [execMapopen_eq, if_pos ha]⟩
  | mapclose w => exact .inl ⟨_, by rw [execMapclose_eq, if_pos ha]⟩
  | init n => exact execInit_answers ha
  | tinit => exact .inl ⟨_, by rw [execTinit_eq, if_pos ha]⟩
  | teardown => exact .inl ⟨_, by rw [execTeardown_eq, if_pos ha]⟩
  | cfgout1 pin =>
    obtain ⟨t, -, -, h, -⟩ := cfgout1MakesThePinAnOutput pin ⟨_, of_decide_eq_true hw⟩ s ha rfl
    exact .inl ⟨t, h⟩
  | cfgouts mask => exact .of_next (cfgoutsConfiguresTheNewValidPins mask s ha)
  | set mask => exact .of_next (setRaisesTheNamedPins mask s ha)
  | clr mask => exact .of_next (clrLowersTheNamedPins mask s ha)
  | wrm value mask => exact .of_next (wrmClearsThenSetsUnderTheMask value mask s ha)
  | rowaddr dr => exact .of_next (rowaddrSelectsTheAddressPins dr s ha)
  | rdlev => exact .of_next (rdlevReadsTheOutputPins s ha)
  | tread => exact .of_next (treadReadsTheCounter s ha)
  | sleepns n =>
    obtain ⟨t, -, h, -⟩ := sleepnsAlwaysReturns n s ha
    exact .inl ⟨t, h⟩
  | advance =>
    rw [execAdvance_eq, if_pos ha]
    exact advanceFrame_answers s
  | planebits top plane bottom => exact .inl ⟨_, planebitsLeavesThePlaneBits top plane bottom s ha⟩
  | _ => cases hi

/-- Inside the acceptance table an operation answers: out-of-range operands, closed windows and a missing image have names
of their own. -/
theorem exec_answers {i : Instr} {s : State} (ha : acceptedIn i s = true) : Answers (exec i s) := by
  cases hw : i.wellFormed with
  | false =>
    obtain ⟨hrange, -⟩ := operandOutOfRangeIsRefused
    refine .inr ⟨_, hrange i s ha hw, ?_⟩
    split <;> nofun
  | true =>
    cases hi : isSequencer i with
    | false => exact exec_answers_setup hi ha hw
    | true => exact exec_answers_sequencer hi ((acceptedIn_sequencer hi).mp ha) hw

/-- Settles O7: the table is checked first, and past it no refusal is called WrongState. -/
theorem wrongStateExactlyOutsideTheTable : Obligations.WrongStateExactlyOutsideTheTable := by
  intro i s
  refine ⟨fun h => ?_, exec_notAccepted⟩
  cases ha : acceptedIn i s with
  | false => rfl
  | true => exact absurd h (exec_answers ha).ne_wrongState

/-! ### IllegalCommand -/

/-- The idle controller decodes the record it takes and runs it (60_exceptions.md R249 (a), R262). -/
theorem step_record {s : State} {r : Record} {rest : List HostInput} (hi : s.phase = .idle) (hm : s.mode ≠ .running)
    (hin : s.inputs = .command r :: rest) : step s = runRecord r { s.hostTick with inputs := rest } := by
  have hf : s.phase.fits s.mode = true := by rw [hi]; simpa [Phase.fits] using hm
  unfold step controllerStep
  rw [State.hostTick_phase, State.hostTick_mode, if_pos hf, hi]
  simp only [takeInput, State.hostTick_inputs, hin]

/-- Settles O6: decoding comes before the operation. -/
theorem illegalRecordIsRefused : Obligations.IllegalRecordIsRefused := by
  intro s r rest hi hm hin hbad
  rw [step_record hi hm hin]
  unfold runRecord
  cases hd : decode r with
  | ok i => exact absurd hd (hbad i)
  | error e => rfl

end Sys2Proof.Machine
end

section
/-! SUPPORT. The statements that join several operations: a masked write and its read-back (40_gpio.md R124, R127, R128),
the writes of a row-plane and of a sweep counted (43_sequencer.md R192), the stop entry step by step (43_sequencer.md R190),
and INIT on an invalid pin (44_system.md R222, 60_exceptions.md R243). -/

namespace Sys2Proof.Machine

/-! ### Write-masked, read back (40_gpio.md R124, R128) -/

/-- Writing the pins leaves the state accepted for the pin operations. -/
theorem PinsAside.setup {s t : State} (a : PinsAside s t)
    (h : (s.gmap == .mapped && (s.mode == .reset || s.mode == .ready)) = true) :
    (t.gmap == .mapped && (t.mode == .reset || t.mode == .ready)) = true := by
  rwa [a.gmap, a.mode]

/-- Settles O23: RDLEV shows the latch WRM leaves, and a bit under the mask takes the value again. -/
theorem writeMaskedLawOnReadBack : Obligations.WriteMaskedLawOnReadBack := by
  intro value mask s ha
  obtain ⟨t, ht, a, -, hbit⟩ := wrmClearsThenSetsUnderTheMask value mask s ha
  obtain ⟨u, hu, -, hlev⟩ := rdlevReadsTheOutputPins t (a.setup ha)
  obtain ⟨v, hv, -, -, hagain⟩ := wrmClearsThenSetsUnderTheMask value mask t (a.setup ha)
  refine ⟨t, u, v, ht, hu, hv, fun k hk => ?_, BitVec.eq_of_getLsbD_eq fun k hk => ?_⟩
  · exact (hlev k (by rwa [a.fsel])).trans (hbit k.val (by omega))
  · rw [hagain k hk, hbit k hk]
    cases mask.getLsbD k <;> rfl

/-! ### Write counts (43_sequencer.md R192) -/

/-- Each write of a list is made 1 + SLOWDOWN times (40_gpio.md R122, R123). -/
theorem repeated_countP (s : State) (ws : List (Nat × Word)) (p : Nat × Word → Bool) :
    (repeated s ws).countP p = ws.countP p * (1 + s.slowdown.toNat) := by
  induction ws with
  | nil => simp [repeated]
  | cons w ws ih =>
    rw [← List.singleton_append, repeated_append, List.countP_append, ih, List.countP_append, Nat.add_mul]
    cases hp : p w <;> simp [repeated, List.countP_replicate, hp]

/-- One column: twice to word 10 and twice to word 7 (43_sequencer.md R182). -/
theorem columnWrites_countP (s : State) (dr pl : Fin 8) (col : Fin 32) (p : Nat → Bool) :
    (columnWrites s dr pl col).countP (fun w => p w.1) = 2 * (p 10).toNat + 2 * (p 7).toNat := by
  unfold columnWrites
  cases h10 : p 10 <;> cases h7 : p 7 <;> simp [h10, h7]

theorem rowPlaneWrites_countP (s : State) (dr pl : Fin 8) (p : Nat → Bool) :
    (rowPlaneWrites s dr pl).countP (fun w => p w.1) = 69 * (p 10).toNat + 67 * (p 7).toNat := by
  have hcols : ((List.finRange 32).flatMap (columnWrites s dr pl)).countP (fun w => p w.1) =
      64 * (p 10).toNat + 64 * (p 7).toNat := by
    simp only [List.countP_flatMap, Function.comp_def, columnWrites_countP, List.map_const', List.length_finRange,
      List.sum_replicate_nat]
    omega
  simp only [rowPlaneWrites, List.countP_append, hcols]
  cases h10 : p 10 <;> cases h7 : p 7 <;> simp [h10, h7]

theorem sweepWrites_countP (s : State) (p : Nat → Bool) :
    (sweepWrites s).countP (fun w => p w.1) = 4416 * (p 10).toNat + 4288 * (p 7).toNat := by
  simp only [sweepWrites, List.countP_flatMap, Function.comp_def, rowPlaneWrites_countP, List.map_const',
    List.length_finRange, List.sum_replicate_nat]
  omega

/-- An operation that makes, each 1 + SLOWDOWN times, c writes to word 10, d to word 7 and no other: what its trace counts. -/
theorem Wrote.counts {s t : State} {ws : List (Nat × Word)} {c d : Nat} (h : Wrote s t (repeated s ws))
    (hws : ∀ p : Nat → Bool, ws.countP (fun w => p w.1) = c * (p 10).toNat + d * (p 7).toNat) :
    t.trace.countP (BusEvent.isWriteTo 10) = s.trace.countP (BusEvent.isWriteTo 10) + c * (1 + s.slowdown.toNat) ∧
    t.trace.countP (BusEvent.isWriteTo 7) = s.trace.countP (BusEvent.isWriteTo 7) + d * (1 + s.slowdown.toNat) ∧
    t.trace.countP BusEvent.isGpioWrite = s.trace.countP BusEvent.isGpioWrite + (c + d) * (1 + s.slowdown.toNat) := by
  have hall : ws.length = c + d := by simpa using hws fun _ => true
  refine ⟨?_, ?_, ?_⟩
  · rw [h.count, repeated_countP, hws (· == 10)]; simp
  · rw [h.count, repeated_countP, hws (· == 7)]; simp
  · rw [h.count_all, ← List.countP_true, repeated_countP, List.countP_true, hall]

/-- An executed ROWPLANE is a row-plane of operands in range, with both windows mapped (43_sequencer.md R186). -/
theorem execRowplane_wrote {dr pl : Word} {s t : State} (h : exec (.rowplane dr pl) s = .next t) :
    ∃ d p : Fin 8, Wrote s t (repeated s (rowPlaneWrites s d p)) := by
  rw [execRowplane_eq] at h
  obtain ⟨d, -, h⟩ := bind_eq_ok.mp (complete_eq_next.mp (of_accepted h).2)
  obtain ⟨p, -, h⟩ := bind_eq_ok.mp h
  obtain ⟨hg, htm⟩ := rowPlane_inv h
  obtain ⟨u, hu, -, -, hw⟩ := rowPlane_answers d p hg htm
  obtain rfl := Except.ok.inj (hu.symm.trans h)
  exact ⟨d, p, hw⟩

theorem execSweep_wrote {s t : State} (h : exec .sweep s = .next t) : Wrote s t (repeated s (sweepWrites s)) := by
  rw [execSweep_eq] at h
  replace h := complete_eq_next.mp (of_accepted h).2
  obtain ⟨hg, htm⟩ := sweepPanel_inv h
  obtain ⟨u, hu, -, -, hw⟩ := sweepPanel_spec hg htm
  obtain rfl := Except.ok.inj (hu.symm.trans h)
  exact hw

/-- Settles O45. -/
theorem rowPlaneAndSweepWriteCounts : Obligations.RowPlaneAndSweepWriteCounts := by
  refine ⟨fun dr pl s t h => ?_, fun s t h => (execSweep_wrote h).counts (sweepWrites_countP s)⟩
  obtain ⟨d, p, hw⟩ := execRowplane_wrote h
  exact hw.counts (rowPlaneWrites_countP s d p)

/-! ### The stop entry (43_sequencer.md R189, R190) -/

/-- From s0, n + 1 steps write a mask n + 1 times to the set-register, as seen from s, and stop; between them MODE is
Running. -/
structure StopEntry (mask : PinMask) (n : Nat) (s s0 t : State) : Prop where
  run : Host.Core.run Sys2Proof.core (n + 1) s0 = .next t
  aside : PinsAside { s with mode := .stopped, phase := .idle } t
  latch : t.outlatch = s.outlatch ||| mask
  trace : t.trace = List.replicate (n + 1) (.write .gpio 7 mask) ++ s.trace
  between : ∀ k, 0 < k → k < n + 1 → ∃ u, Host.Core.run Sys2Proof.core k s0 = .next u ∧ u.mode = .running ∧
    u.trace = List.replicate k (.write .gpio 7 mask) ++ s.trace

theorem hostTick_of_none {s : State} (h : s.stopAfter = none) : s.hostTick = s := by
  unfold State.hostTick; rw [h]

/-- One write of the stop entry. -/
theorem proceed_stop (mask : PinMask) (n : Nat) {s : State} (hg : s.gmap = .mapped) :
    proceed .stop (.set mask n) [] s = .ok (carryOn .stop
      ((s.tick.drive (s.outlatch ||| mask)).record (.write .gpio 7 mask)) (burstRest (.set mask) n)) := by
  cases n <;> simp only [proceed, perform, regWrite_set hg] <;> rfl

/-- The stop entry from its first write on, one write a step (92_eei_decisions.md D36). -/
theorem proceed_stops (mask : PinMask) (n : Nat) {s s0 : State} (hm : s.mode = .running) (ha : s.stopAfter = none)
    (hg : s.gmap = .mapped) (h0 : step s0 = complete (proceed .stop (.set mask n) [] s)) :
    ∃ t, StopEntry mask n s s0 t := by
  rw [proceed_stop mask n hg] at h0
  induction n generalizing s s0 with
  | zero => exact ⟨_, run_one h0 0, rfl, rfl, rfl, fun k h1 h2 => absurd h2 (by omega)⟩
  | succ n ih =>
    let written := (s.tick.drive (s.outlatch ||| mask)).record (.write .gpio 7 mask)
    let s1 : State := { written with phase := .busy .stop (.set mask n) [] }
    replace h0 : step s0 = .next s1 := h0
    have hfits : s1.phase.fits s1.mode = true := by show (s.mode == .running) = true; rw [hm]; rfl
    have h1 : step s1 = complete (proceed .stop (.set mask n) [] s1) := by
      rw [busy_step rfl hfits, hostTick_of_none (s := s1) ha]
    rw [proceed_stop mask n (s := s1) hg] at h1
    obtain ⟨t, ht⟩ := ih (s := s1) hm ha hg h1
    have hreplicate : ∀ k, List.replicate k (BusEvent.write .gpio 7 mask) ++ s1.trace =
        List.replicate (k + 1) (.write .gpio 7 mask) ++ s.trace := by
      intro k
      rw [List.replicate_succ', List.append_assoc]; rfl
    refine ⟨t, (run_one h0 _).trans ht.run, ?_, ?_, ht.trace.trans (hreplicate _), fun k hk hkn => ?_⟩
    · exact PinsAside.trans (t := { s1 with mode := .stopped, phase := .idle }) rfl ht.aside
    · rw [ht.latch]
      show s.outlatch ||| mask ||| mask = _
      rw [BitVec.or_assoc, BitVec.or_self]
    · obtain ⟨k, rfl⟩ : ∃ j, k = j + 1 := ⟨k - 1, by omega⟩
      obtain rfl | hk0 := Nat.eq_zero_or_pos k
      · exact ⟨s1, run_one h0 0, hm, rfl⟩
      · obtain ⟨u, hu, hum, hut⟩ := ht.between k hk0 (by omega)
        exact ⟨u, (run_one h0 k).trans hu, hum, hut.trans (hreplicate k)⟩

/-- The sweep boundary with STOP_REQ set: the step makes the first write of the stop entry (43_sequencer.md R189). -/
theorem step_stopEntry {s : State} (hm : s.mode = .running) (hp : s.phase = .poll) (hr : s.stopReq = true)
    (ha : s.stopAfter = none) :
    step s = complete (proceed .stop (.set (pinBit s.platform.pins.oe) s.slowdown.toNat) [] s) := by
  have hfits : s.phase.fits s.mode = true := by rw [hp, hm]; rfl
  unfold step controllerStep
  rw [hostTick_of_none ha, if_pos hfits, hp]
  show complete (pollStep s) = _
  rw [pollStep, if_pos hr]
  rfl

/-- Settles O49. -/
theorem stopRequestBlanksAndStops : Obligations.StopRequestBlanksAndStops := by
  intro s hm hp hr ha hg
  obtain ⟨t, ht⟩ := proceed_stops _ _ hm ha hg (step_stopEntry hm hp hr ha)
  rw [Nat.add_comm]
  exact ⟨t, ht.run, ht.aside, ht.latch, ht.trace, ht.between⟩

/-! ### INIT on an invalid pin (44_system.md R222, 60_exceptions.md R243) -/

/-- INIT's work before its final check, from a state with nothing mapped or configured: the valid ones of the wanted pins
are configured, in ascending order (40_gpio.md R121). -/
theorem State.Inv.constructGpio_configures {s : State} (hinv : s.Inv) (hg : s.gmap = .unmapped) (n : Word) :
    ∃ u, constructGpio n (s.setHandle .gpio .mapped) = .ok (finishInit s.wantedPins u) ∧
      u = { s with
        gmap := .mapped, slowdown := n, rowMask := rowMaskFor s.platform.pins Config.doubleRows
        outBits := s.wantedPins &&& s.platform.validPins, res := s.wantedPins &&& s.platform.validPins, fsel := u.fsel
        trace := (configureEvents s.fsel (pinsOf (s.wantedPins &&& s.platform.validPins))).reverse ++ s.trace
        cnt := u.cnt, env := u.env, draws := u.draws } ∧
      ∀ j : PinIndex, fselField u.fsel j =
        if (s.wantedPins &&& s.platform.validPins).getLsbD j.val = true then 0b001#3 else fselField s.fsel j := by
  let s1 := (s.setHandle .gpio .mapped).withHoldings n
  have hnew : s1.newPins s.wantedPins = s.wantedPins &&& s.platform.validPins := hinv.newPins_unmapped hg _
  have hout : s1.outBits ||| (s.wantedPins &&& s.platform.validPins) = s.wantedPins &&& s.platform.validPins := by
    rw [show s1.outBits = 0 from hinv.unmapped_untouched hg]; exact BitVec.zero_or
  obtain ⟨u, hu, he, hf, -, htr⟩ := configureOutputs_fields s.wantedPins (s := s1) rfl
  obtain ⟨u', hu', hc⟩ := constructGpio_spec n (s := s.setHandle .gpio .mapped) rfl
  obtain rfl := Except.ok.inj (hu.symm.trans hu')
  rw [hnew] at he hf htr
  rw [hout, htr] at he
  exact ⟨u, hc, he, hf⟩

/-- INIT's end with a wanted pin that could not be configured (60_exceptions.md R243). -/
theorem finishInit_incomplete {want : PinMask} {s : State} (h : s.res ≠ want) :
    finishInit want s = raise .configurationInvariantViolation s := if_neg h

/-- Settles O59: an invalid pin is never configured, so the check at INIT's end fails. -/
theorem initFaultsOnAnInvalidPin : Obligations.InitFaultsOnAnInvalidPin := by
  intro n s hinv hm hg hp hok row want got evs hinvalid
  obtain ⟨u, hu, he, hf⟩ := hinv.constructGpio_configures hg n
  have hmissing : u.res ≠ want := by
    intro h
    have hgot : got = want := (congrArg State.res he).symm.trans h
    refine hinvalid ?_
    rw [← hgot, BitVec.and_assoc, BitVec.and_not_self]
    exact BitVec.and_zero
  refine ⟨_, (execInit_opens hm hg hp hok).trans (congrArg complete (hu.trans (congrArg Except.ok
    (finishInit_incomplete hmissing)))), ?_, fun k hk => ?_, fun k hk => ?_⟩
  · rw [he, ← release_eq]
    rfl
  · exact (hf k).trans (if_pos hk)
  · exact (hf k).trans (if_neg (Bool.eq_false_iff.mp hk))

end Sys2Proof.Machine
end

section
/-! SUPPORT. The statements about the wrap-corrected difference and the short sleep. -/

namespace Sys2Proof.Machine

/-! ### The wrap-corrected difference (41_timer.md R141) -/

/-- Without a wrap between the readings. -/
theorem elapsed_of_le {pre post : Word} (h : pre ≤ post) : elapsed pre post = post.toNat - pre.toNat :=
  if_pos (BitVec.le_def.mp h)

/-- Across a wrap the counter's maximum value is added, not its period. -/
theorem elapsed_of_lt {pre post : Word} (h : post < pre) : elapsed pre post = (0xFFFFFFFF - pre.toNat) + post.toNat :=
  if_neg (Nat.not_le.mpr (BitVec.lt_def.mp h))

/-- Fewer than 2^32 true ticks after a reading: exact while the count has not wrapped, one tick less once it has. -/
theorem elapsed_add_ticks (pre : Word) {ticks : Nat} (h : ticks < 2 ^ 32) :
    elapsed pre (pre + BitVec.ofNat 32 ticks) = if pre.toNat + ticks < 2 ^ 32 then ticks else ticks - 1 := by
  have hpre := pre.isLt
  have hpost : (pre + BitVec.ofNat 32 ticks).toNat = (pre.toNat + ticks) % 2 ^ 32 := by simp
  by_cases hwrap : pre.toNat + ticks < 2 ^ 32
  · rw [Nat.mod_eq_of_lt hwrap] at hpost
    rw [if_pos hwrap, elapsed_of_le (BitVec.le_def.mpr (by omega)), hpost, Nat.add_sub_cancel_left]
  · rw [Nat.mod_eq_sub_mod (by omega), Nat.mod_eq_of_lt (by omega)] at hpost
    rw [if_neg hwrap, elapsed_of_lt (BitVec.lt_def.mpr (by omega)), hpost]
    omega

/-- Settles O30. -/
theorem elapsedIsWrapCorrected : Obligations.ElapsedIsWrapCorrected := by
  refine ⟨fun _ _ => elapsed_of_le, fun pre post h => ⟨elapsed_of_lt h, ?_⟩, fun pre => ?_,
    fun pre _ => elapsed_add_ticks pre⟩
  · have hpre := pre.isLt
    rw [elapsed_of_lt h]
    omega
  · rw [elapsed_of_le (BitVec.le_refl pre), Nat.sub_self]

/-! ### The short sleep (41_timer.md R142, R143, R145) -/

/-- A request up to the threshold is a busy-wait of its whole length (R143). -/
theorem sleepNanos_short {n : Nat} {s : State} (h : n ≤ s.platform.sleepThresholdNs) :
    sleepNanos n s = busyWait (nsToTicks n) s := if_neg (Nat.not_lt.mpr h)

/-- Settles O32. -/
theorem shortSleepWaitsTheWholeRequest : Obligations.ShortSleepWaitsTheWholeRequest := by
  intro n s ha hshort
  obtain ⟨t, start, _, mid, ht, -, htr, rfl, hreach, hmid⟩ := busyWait_spec (nsToTicks_lt n.isLt) (setup_mapped ha)
  rw [execSleepns_eq, if_pos ha, sleepNanos_short hshort, ht]
  exact ⟨t, start, mid, rfl, htr, hreach, hmid⟩

end Sys2Proof.Machine
end

section
/-! SUPPORT. The statements about the scroll's cycle (42_frame.md R160, R163) and the shift-register multiplexer's pins
(42_frame.md R161). -/

namespace Sys2Proof.Machine

/-! ### The multiplexer's pins (42_frame.md R161) -/

theorem planeBits_and_not_color (p : PinTable) (top bottom : Pixel) (plane : Nat) :
    planeBits p top bottom plane &&& ~~~colorMask p = 0 := by
  rw [← planeBits_and_color, BitVec.and_assoc, BitVec.and_not_self]
  exact BitVec.and_zero

/-- A channel has eight bits, so no line is set from plane 8 on. -/
theorem planeBits_of_ge (p : PinTable) (top bottom : Pixel) {plane : Nat} (h : 8 ≤ plane) :
    planeBits p top bottom plane = 0 := by
  have hbit (channel : Byte) : channel.getLsbD plane = false := BitVec.getLsbD_of_ge channel plane h
  simp [planeBits, hbit, maskIf]

/-- Settles O36. -/
theorem planeBitsMapChannelsToPins : Obligations.PlaneBitsMapChannelsToPins := by
  intro p top bottom plane hd
  obtain ⟨hr1, hg1, hb1, hr2, hg2, hb2⟩ := planeBits_lines hd top bottom plane
  exact ⟨hr1, hg1, hb1, hr2, hg2, hb2, planeBits_and_not_color p top bottom plane, planeBits_clk hd top bottom plane,
    planeBits_of_ge p top bottom⟩

/-! ### The scroll's cycle (42_frame.md R160, R163) -/

theorem add_mod_congr {a b n : Nat} (h : a % n = b % n) (c : Nat) : (a + c) % n = (b + c) % n := by
  rw [Nat.add_mod, h, ← Nat.add_mod]

/-- The frame a cursor shows depends on the cursor's column modulo SRC_W only. -/
theorem visible_congr {img : SourceImage} {a b : Nat} (h : a % img.width = b % img.width) :
    img.visible a = img.visible b := by
  have hcolumn (c : Nat) : (a + c) % img.width = (b + c) % img.width := add_mod_congr h c
  simp only [SourceImage.visible, hcolumn]

theorem visible_black {img : SourceImage} (h : ∀ r c, img.pixel r c = Pixel.black) (cursor : Nat) :
    img.visible cursor = FrameGrid.black := by
  ext1 r hr
  ext1 c hc
  simp [SourceImage.visible, FrameGrid.black, h]

/-- The state after j + 1 ADVANCEs of an image: the last of them found the cursor j columns on. -/
def State.scrolled (s : State) (img : SourceImage) (j : Nat) : State :=
  { s with frame := img.visible (s.cursor + j), cursor := (s.cursor + j + 1) % img.width }

theorem exec_advance_scrolled {s : State} {img : SourceImage} (ha : acceptedIn .advance s = true)
    (hi : s.src = some img) (hu : img.usable = true) : exec .advance s = .next (s.scrolled img 0) := by
  rw [execAdvance_eq, if_pos ha, advanceFrame_eq_ok.mpr ⟨img, hi, hu, rfl⟩]
  rfl

/-- The later ADVANCEs continue the scroll of the first: their cursor is the same modulo SRC_W. -/
theorem scrolled_zero_scrolled (s : State) (img : SourceImage) (j : Nat) :
    (s.scrolled img 0).scrolled img j = s.scrolled img (j + 1) := by
  have hframe : ((s.cursor + 0 + 1) % img.width + j) % img.width = (s.cursor + (j + 1)) % img.width := by
    rw [Nat.mod_add_mod, Nat.add_zero, Nat.add_assoc, Nat.add_comm 1]
  have hcursor : ((s.cursor + 0 + 1) % img.width + j + 1) % img.width = (s.cursor + (j + 1) + 1) % img.width :=
    add_mod_congr hframe 1
  unfold State.scrolled
  rw [visible_congr hframe, hcursor]

/-- ADVANCE keeps the mode and the image, so it can be repeated without end. -/
theorem execTimes_advance {s : State} {img : SourceImage} (ha : acceptedIn .advance s = true)
    (hi : s.src = some img) (hu : img.usable = true) (j : Nat) :
    execTimes .advance (j + 1) s = .next (s.scrolled img j) := by
  induction j generalizing s with
  | zero => simp only [execTimes, exec_advance_scrolled ha hi hu]
  | succ j ih =>
    rw [execTimes, exec_advance_scrolled ha hi hu]
    exact (ih (s := s.scrolled img 0) ha hi).trans (by rw [scrolled_zero_scrolled])

/-- From CURSOR = 0, ADVANCE number j finds the cursor at column j - 1. -/
theorem execTimes_advance_of_cursor_zero {s : State} {img : SourceImage} (ha : acceptedIn .advance s = true)
    (hi : s.src = some img) (hu : img.usable = true) (hc : s.cursor = 0) {j : Nat} (hj : 1 ≤ j) :
    ∃ t, execTimes .advance j s = .next t ∧ t.cursor = j % img.width ∧ t.frame = img.visible (j - 1) := by
  obtain ⟨k, rfl⟩ := Nat.exists_eq_add_of_le' hj
  exact ⟨_, execTimes_advance ha hi hu k, by simp [State.scrolled, hc], by simp [State.scrolled, hc]⟩

/-- Settles O35: what the cursor and the frame are after j ADVANCEs is periodic in j with period SRC_W. -/
theorem scrollIsCyclic : Obligations.ScrollIsCyclic := by
  intro s img ha hi hu hc
  have hwidth : 32 ≤ img.width := (usable_width hu).1
  have hone : 1 % img.width = 1 := Nat.mod_eq_of_lt (by omega)
  have hnth {j : Nat} := execTimes_advance_of_cursor_zero ha hi hu hc (j := j)
  refine ⟨fun j hj => ?_, ?_, fun hblack => ?_⟩
  · obtain ⟨t, ht, hcursor, hframe⟩ := hnth hj
    exact ⟨t, ht, hcursor, fun r c => by rw [hframe, visible_get]⟩
  · obtain ⟨first, hfirst, hcursor1, hframe1⟩ := hnth (Nat.le_refl 1)
    obtain ⟨whole, hwhole, hcursorW, -⟩ := hnth (j := img.width) (by omega)
    obtain ⟨more, hmore, hcursorM, hframeM⟩ := hnth (j := img.width + 1) (by omega)
    refine ⟨first, whole, more, hfirst, hwhole, hmore, hcursor1.trans hone, hcursorW.trans (Nat.mod_self _), ?_, ?_⟩
    · rw [hcursorM, hcursor1, Nat.add_mod_left]
    · rw [hframeM, hframe1]
      exact visible_congr ((Nat.mod_self img.width).trans (Nat.zero_mod img.width).symm)
  · refine ⟨_, exec_advance_scrolled ha hi hu, visible_black hblack _, ?_⟩
    simp [State.scrolled, hc, hone]

end Sys2Proof.Machine
end

section
/-! SUPPORT. The statements about the sequencer and its running loop: what it leaves unchanged and when it looks at STOP_REQ
(43_sequencer.md R186 to R190, 60_exceptions.md R240, R252, R253). -/

namespace Sys2Proof.Machine

/-! ### Faults (60_exceptions.md R240, R249) -/

/-- Faulted accepts no operation (30_encoding.md R102). -/
theorem acceptedIn_not_faulted {i : Instr} {s : State} (h : acceptedIn i s = true) : s.mode ≠ .faulted := by
  intro hm
  cases i <;> simp [acceptedIn, hm] at h

/-- Only the operations that open a window end in Faulted. -/
theorem exec_faulted {i : Instr} {s t : State} (h : exec i s = .next t) (ht : t.mode = .faulted) :
    (∃ w, i = .mapopen w) ∨ (∃ n, i = .init n) ∨ i = .tinit := by
  obtain ⟨ha, he⟩ := exec_effect h
  have hm : s.mode ≠ .faulted := acceptedIn_not_faulted ha
  cases he with
  | pins p r hp hk => exact absurd (hk.mode.symm.trans ht) hm
  | load img last hs hu hk => exact absurd (hk.mode.symm.trans ht) hm
  | run e hg htm hk => rw [hk] at ht; cases ht
  | opened w hw => exact .inl ⟨w, rfl⟩
  | tinit hw => exact .inr (.inr rfl)
  | closed w hw => exact absurd ((State.setHandle_mode s w _).symm.trans ht) hm
  | teardown => exact absurd ht hm
  | mapFault e he hr hi => exact hi
  | oneOutput pin k hg hk hf => exact absurd (hk.mode.symm.trans ht) hm
  | outputs mask hg hk hc => rw [hk] at ht; exact absurd ht hm
  | init n hg hr hw hk hc => exact .inr (.inl ⟨n, rfl⟩)
  | initFault n hg hr hw hk hc => exact .inr (.inl ⟨n, rfl⟩)

/-- Only a sweep and the stop entry are under way while Running (43_sequencer.md R189). -/
theorem running_task {task : Task} {a : Access} {rest : List Access}
    (h : (Phase.busy task a rest).fits .running = true) : task = .sweep ∨ task = .stop := by
  cases task with
  | sweep => exact .inl rfl
  | stop => exact .inr rfl
  | plain => cases h
  | outputs m => cases h
  | init m => cases h
  | rowPlane => cases h

/-- No step of the running loop writes ERR. -/
theorem Outline.err_running {s t : State} (h : Outline s t) (hr : s.mode = .running) : t.err = s.err := by
  cases h with
  | input rest src hp hm hs => exact absurd hr hm
  | whole rest hm hk => exact absurd hr hm
  | @task task _ s0 u as hf hp hb hfs =>
    have herr : u.err = s.err := by rw [hb.err, hp.aside]
    rw [hr] at hf
    rcases running_task (hf (.set 0 0) []) with rfl | rfl <;> cases as <;> exact herr
  | scroll rest hk => exact hk.err
  | load now hp img hs hu hk => rw [hk]

/-- Settles O15: the effects of an operation show which of them raise a fault; MODE's diagram has no way from Running to
Faulted. -/
theorem onlyConstructionRaisesFaults : Obligations.OnlyConstructionRaisesFaults := by
  refine ⟨fun i s t h ht => exec_faulted h ht, fun s t hr h => ⟨fun ht => ?_, ?_⟩⟩
  · have hmode := modeFollowsItsDiagram s t h
    rw [hr, ht] at hmode
    cases hmode
  · have herr := (step_cases h).outline.err_running
    rw [State.hostTick_mode, State.hostTick_err] at herr
    exact herr hr

/-! ### Stopped (43_sequencer.md R190, 60_exceptions.md R253) -/

/-- What Stopped accepts releases handles or computes RES (30_encoding.md R102). -/
theorem exec_stopped {i : Instr} {s t : State} (hm : s.mode = .stopped) (h : exec i s = .next t) :
    t = { s with res := t.res, gmap := t.gmap, tmap := t.tmap } := by
  have ha := (exec_effect h).1
  cases i with
  | mapclose w =>
    rw [execMapclose_eq, if_pos ha] at h
    cases h
    cases w <;> rfl
  | teardown => rw [execTeardown_eq, if_pos ha] at h; cases h; rfl
  | rowaddr dr => rw [execRowaddr_eq, if_pos ha] at h; cases h; rfl
  | planebits top plane bottom => rw [execPlanebits_eq, if_pos ha] at h; cases h; rfl
  | _ => simp [acceptedIn, hm] at ha

/-- No operation of several accesses begins in Stopped (30_encoding.md R102). -/
theorem Begun.not_stopped {s t : State} (h : Begun s t) : s.mode ≠ .stopped := by
  intro hm
  cases h with
  | plain as hw hr hk => simp [hm] at hr
  | outputs mask hr hg hk => simp [hm] at hr
  | init n hr hg hk => simp [hm] at hr
  | march task p ht hp hr hk => simp [hm] at hr

/-- In Stopped the controller is idle and makes no access: it takes what the host hands in, releases handles or computes
RES. -/
theorem StepCase.stopped {s t : State} (h : StepCase s t) (hm : s.mode = .stopped) :
    t = { s with res := t.res, gmap := t.gmap, tmap := t.tmap, inputs := t.inputs, src := t.src } := by
  cases h with
  | waits hp hr hi => rfl
  | source img rest hp hr hi hc => rfl
  | whole i r rest hp hr hi hd hf hk =>
    have hs := exec_stopped (s := { s with inputs := rest }) hm hk
    rw [hs]
  | begun i rest hp hr ha hb => exact absurd hm hb.not_stopped
  | scrollchk rest hp hr he hk => simp [hm] at hr
  | stop hp hr hq hk => simp [hm] at hr
  | sweep hp hr hq hk => simp [hm] at hr
  | scroll hp hr hk => simp [hm] at hr
  | load now hp hr hk => simp [hm] at hr
  | access task a rest more hp hf hu =>
    rw [hp, hm] at hf
    cases task <;> cases hf

/-- Settles O17. -/
theorem stoppedKeepsThePins : Obligations.StoppedKeepsThePins := by
  intro s t hm h
  have hs := (step_cases h).stopped (by rw [State.hostTick_mode]; exact hm)
  rw [hs]
  simp [hm]

/-! ### ROWPLANE (43_sequencer.md R186) -/

/-- Settles O44. -/
theorem rowplaneMakesTheSixStepsInOrder : Obligations.RowplaneMakesTheSixStepsInOrder := by
  intro dr pl d p s hm hg ht hd hp
  obtain ⟨t, hrow, a, ho, hw⟩ := rowPlane_answers d p hg ht
  rw [execRowplane_eq, if_pos ((acceptedIn_sequencer rfl).mpr hm), octalOperand_eq_ok.mpr hd, ok_bind,
    octalOperand_eq_ok.mpr hp, ok_bind, hrow]
  exact ⟨t, rfl, a, ho, hw⟩

/-! ### The stop request (43_sequencer.md R189, 60_exceptions.md R252) -/

theorem hostTick_requestStop (s : State) : s.requestStop.hostTick = s.hostTick.requestStop := by
  rw [hostTick_eq, hostTick_eq]
  simp [State.requestStop]

/-- No access looks at STOP_REQ (43_sequencer.md R189). -/
theorem perform_requestStop {a : Access} {s u : State} {more : List Access} (h : perform a s = .ok (more, u)) :
    perform a s.requestStop = .ok (more, u.requestStop) := by
  have hc : u.control = s.control := (perform_cases h).busAside.control
  have hp := perform_ok_under { s.control with stopReq := true } h
  rw [← hc] at hp
  rw [← State.under_control s, ← hc]
  exact hp

/-- While Running no task's completion looks at STOP_REQ. -/
theorem carryOn_requestStop {task : Task} (ht : task = .sweep ∨ task = .stop) (s : State) (as : List Access) :
    carryOn task s.requestStop as = (carryOn task s as).requestStop := by
  rcases ht with rfl | rfl <;> cases as <;> rfl

theorem proceed_requestStop {task : Task} {a : Access} {rest : List Access} {s t : State}
    (ht : task = .sweep ∨ task = .stop) (h : proceed task a rest s = .ok t) :
    proceed task a rest s.requestStop = .ok t.requestStop := by
  obtain ⟨⟨more, u⟩, hu, h⟩ := bind_eq_ok.mp h
  obtain rfl := Except.ok.inj h
  rw [proceed, perform_requestStop hu]
  exact congrArg Except.ok (carryOn_requestStop ht u _)

theorem scrollStep_requestStop {s t : State} (h : scrollStep s = .ok t) :
    scrollStep s.requestStop = .ok t.requestStop := by
  obtain ⟨r, hr, -⟩ := bind_eq_ok.mp h
  have htm := (timerRead_inv hr).1
  rw [← State.under_control s, scrollStep_under _ htm] at h
  obtain rfl := Except.ok.inj h
  exact scrollStep_under { s.control with stopReq := true } htm

theorem loadStep_requestStop {now : Word} {s t : State} (h : loadStep now s = .ok t) :
    loadStep now s.requestStop = .ok t.requestStop := by
  obtain ⟨u, hu, h⟩ := bind_eq_ok.mp h
  obtain rfl := Except.ok.inj h
  obtain ⟨img, hs, hus, rfl⟩ := advanceFrame_eq_ok.mp hu
  rw [loadStep, (advanceFrame_eq_ok (s := s.requestStop)).mpr ⟨img, hs, hus, rfl⟩]
  rfl

/-- While Running, away from the sweep boundary, the controller does not look at STOP_REQ. -/
theorem controllerStep_requestStop {s t : State} (hm : s.mode = .running) (hp : s.phase ≠ .poll)
    (h : controllerStep s = .next t) : controllerStep s.requestStop = .next t.requestStop := by
  unfold controllerStep at h ⊢
  rw [State.requestStop_phase, State.requestStop_mode]
  split at h
  · next hf =>
    rw [if_pos hf]
    rw [hm] at hf
    cases hph : s.phase with
    | idle => rw [hph] at hf; cases hf
    | poll => exact absurd hph hp
    | scroll =>
      simp only [hph] at h
      exact complete_eq_next.mpr (scrollStep_requestStop (complete_eq_next.mp h))
    | load now =>
      simp only [hph] at h
      exact complete_eq_next.mpr (loadStep_requestStop (complete_eq_next.mp h))
    | busy task a rest =>
      simp only [hph] at h
      rw [hph] at hf
      exact complete_eq_next.mpr (proceed_requestStop (running_task hf) (complete_eq_next.mp h))
  · cases h

/-- While Running only the sweep boundary and the stop entry's writes lead out of Running. -/
theorem StepCase.mode_running {s t : State} (h : StepCase s t) (hm : s.mode = .running) (hp : s.phase ≠ .poll)
    (hstop : ∀ a rest, s.phase ≠ .busy .stop a rest) : t.mode = .running := by
  cases h with
  | waits hp' hr hi => exact absurd hm hr
  | source img rest hp' hr hi hc => exact absurd hm hr
  | whole i r rest hp' hr hi hd hf hk => exact absurd hm hr
  | begun i rest hp' hr ha hb => exact absurd hm hr
  | scrollchk rest hp' hr he hk => rw [hm] at hr; cases hr
  | stop hp' hr hq hk => exact absurd hp' hp
  | sweep hp' hr hq hk => exact absurd hp' hp
  | scroll hp' hr hk => rcases scrollStep_inv hk with ⟨-, a⟩ | ⟨-, a⟩ <;> exact a.mode.trans hm
  | load now hp' hr hk =>
    obtain ⟨img, -, -, rfl⟩ := loadStep_inv hk
    exact hm
  | @access u task a rest more hp' hf hu =>
    rw [hp', hm] at hf
    rcases running_task hf with rfl | rfl
    · have hmode : u.mode = .running := hu.busAside.mode.trans hm
      cases more ++ rest <;> exact hmode
    · exact absurd hp' (hstop a rest)

/-- Settles O50. -/
theorem stopRequestIsReadAtSweepBoundariesOnly : Obligations.StopRequestIsReadAtSweepBoundariesOnly := by
  intro s t hm hp h
  refine ⟨fun hstop => ?_, ?_⟩
  · exact (step_cases h).mode_running (by simpa using hm) (by simpa using hp) (by simpa using hstop)
  · show controllerStep s.requestStop.hostTick = .next t.requestStop
    rw [hostTick_requestStop]
    exact controllerStep_requestStop (by simpa using hm) (by simpa using hp) h

end Sys2Proof.Machine
end

section
/-! SUPPORT. One turn of the running loop is a sweep and then the scroll step (43_sequencer.md R187 to R189); what the panel
observer shows of a row-plane (43_sequencer.md R200 to R204). -/

namespace Sys2Proof.Machine

/-! ### A turn of the running loop (43_sequencer.md R189) -/

/-- Where POS stands when a sweep has ended (43_sequencer.md R191; log entry 8). -/
abbrev Pos.sweepEnd : Pos := ⟨7, 7, 0, .dwell⟩

/-- From the sweep's first micro-operation, steps lead through the sweep and the scroll step to the next boundary. -/
theorem turn_reaches {s t u : State} (hm : s.mode = .running) (hs : sweepPanel s = .ok t) (hu : scrollCheck t = .ok u) :
    Reaches s Pos.start (s.microPhase .sweep Pos.start) u Pos.sweepEnd .poll := by
  obtain ⟨hmode, hsweep⟩ := sweepPanel_reaches (.inr ⟨rfl, hm⟩) hs
  have hrun : t.mode = .running := hmode.trans hm
  cases he : t.scrollEn with
  | true =>
    have hscroll := scroll_reaches (q := Pos.sweepEnd) (.inr hrun) he hu
    rw [show t.phaseAfterSweep = .scroll by simp [State.phaseAfterSweep, hrun, he]] at hsweep
    rw [show t.phaseAfterScroll = .poll by simp [State.phaseAfterScroll, hrun]] at hscroll
    exact hsweep.trans ⟨by simp, by simp⟩ hscroll
  | false =>
    obtain rfl := Except.ok.inj ((scrollCheck_off he).symm.trans hu)
    rwa [show t.phaseAfterSweep = .poll by simp [State.phaseAfterSweep, hrun, he]] at hsweep

/-- Of the controls, a sweep and the scroll step change POS alone. -/
theorem turn_control {s t u : State} (hs : sweepPanel s = .ok t) (hu : scrollCheck t = .ok u) :
    u.control = s.control.move Pos.sweepEnd s.phase := by
  obtain ⟨hg, htm⟩ := sweepPanel_inv hs
  obtain ⟨t', hs', a, -⟩ := sweepPanel_spec hg htm
  obtain rfl := Except.ok.inj (hs'.symm.trans hs)
  have hut : u.control = t'.control := by
    rcases scrollCheck_inv hu with b | ⟨img, -, -, b⟩ <;> exact b.busAside.control
  exact hut.trans a.control

/-- A step at the sweep boundary is the test of STOP_REQ with the access that follows it (43_sequencer.md R189). -/
theorem poll_step {s : State} (hp : s.phase = .poll) (hm : s.mode = .running) :
    step s = complete (pollStep s.hostTick) := by
  unfold step controllerStep
  rw [State.hostTick_phase, State.hostTick_mode, hp, hm]
  rfl

/-- The boundary's step without a stop request is the first step of the sweep (43_sequencer.md R189). -/
theorem step_sweepStart {s : State} (hm : s.mode = .running) (hp : s.phase = .poll) (hr : s.stopReq = false)
    (ha : s.stopAfter = none) :
    step s = step (s.under (s.control.move Pos.start (s.microPhase .sweep Pos.start))) := by
  obtain ⟨a, rest, hl⟩ := microAccesses_cons s Pos.start
  have hph : s.microPhase .sweep Pos.start = .busy .sweep a rest := by
    unfold State.microPhase; rw [hl]; rfl
  have hfits : marchFits true s.mode := .inr ⟨rfl, hm⟩
  calc step s
    _ = complete (pollStep s) := by rw [poll_step hp hm, hostTick_of_none ha]
    _ = complete (proceed .sweep a rest { s with pos := Pos.start }) := by
      rw [pollStep, if_neg (by simp [hr]), hl]; rfl
    _ = complete (proceed .sweep a rest (s.under (s.control.move Pos.start (.busy .sweep a rest)))) :=
      congrArg complete (proceed_phase .sweep a rest { s with pos := Pos.start } _).symm
    _ = step (s.under (s.control.move Pos.start (s.microPhase .sweep Pos.start))) := by
      rw [hph, busy_step rfl (hfits.fits a rest),
        hostTick_of_none (s := s.under (s.control.move Pos.start (.busy .sweep a rest))) ha]

/-- Settles O51: the way of a turn, taken with the host's clock standing still. -/
theorem runningLoopIsSweepThenScroll : Obligations.RunningLoopIsSweepThenScroll := by
  intro s t u hm hp hr ha hs hu
  have hc : u.control = s.control.move Pos.sweepEnd .poll := (turn_control hs hu).trans (by rw [hp])
  obtain ⟨n, hn⟩ := turn_reaches hm hs hu s.control
  rw [Control.ticks_none ha, ← hc, State.under_control] at hn
  have hphase : u.phase = .poll := congrArg Control.phase hc
  cases n with
  | zero =>
    have hsame := congrArg State.phase (Host.Outcome.next.inj hn.run)
    exact absurd (hsame.trans hphase) (microPhase_busy s .sweep Pos.start).2
  | succ n =>
    have hturn : RunsTo State.underWay s (n + 1) u := .of_step (step_sweepStart hm hp hr ha) hn
    refine ⟨n + 1, Nat.succ_pos n, hturn.run, hphase, fun k h0 hk => ?_⟩
    obtain ⟨v, hv, hway⟩ := hturn.between k h0 hk
    exact ⟨v, hv, hway.2⟩

/-! ### The panel observer (43_sequencer.md R200 to R204) -/

/-- CLK and LAT are no address pins of this geometry (00_scope.md R11, 40_gpio.md R125). -/
theorem rowMaskFor_clk_lat {p : PinTable} (h : p.disjoint = true) :
    (rowMaskFor p 8).getLsbD p.clk.val = false ∧ (rowMaskFor p 8).getLsbD p.lat.val = false := by
  obtain ⟨-, -, -, -, -, -, -, -, ca, cb, cc⟩ := clk_ne h
  obtain ⟨la, lb, lc, -⟩ := lat_ne h
  simp [rowMaskFor_eight, pinBit_bit, ca.symm, cb.symm, cc.symm, la.symm, lb.symm, lc.symm]

/-- Eight double-rows need the address pins A, B and C alone (40_gpio.md R125). -/
theorem rowMaskFor_address {p : PinTable} (h : p.disjoint = true) :
    (rowMaskFor p 8).getLsbD p.a.val = true ∧ (rowMaskFor p 8).getLsbD p.b.val = true ∧
      (rowMaskFor p 8).getLsbD p.c.val = true ∧ (rowMaskFor p 8).getLsbD p.d.val = false ∧
      (rowMaskFor p 8).getLsbD p.e.val = false := by
  obtain ⟨-, -, -, -, -, -, -, ad, ae, -, bd, be, cd, ce, -⟩ := lat_ne h
  simp [rowMaskFor_eight, pinBit_bit, ad, ae, bd, be, cd, ce]

/-- A row address has no bit outside ROW_MASK (40_gpio.md R126). -/
theorem rowAddressBits_off {p : PinTable} {rowMask : PinMask} {k : Nat} (h : rowMask.getLsbD k = false) (dr : Nat) :
    (rowAddressBits p rowMask dr).getLsbD k = false := by
  rw [← rowAddressBits_and, BitVec.getLsbD_and, h, Bool.and_false]

/-- A number below eight is its three low bits. -/
theorem ofBoolListLE_octal : ∀ d : Fin 8,
    BitVec.ofBoolListLE [d.val.testBit 0, d.val.testBit 1, d.val.testBit 2, false, false] = BitVec.ofNat 5 d.val := by
  decide

/-- With a double-row's address on the address lines the panel reads that double-row, LAT high or low (R202). -/
theorem addressOnLines_rowAddress {p : PinTable} (h : p.disjoint = true) (dr : Fin 8) (latch : Word) :
    addressOnLines p (rowMaskFor p 8)
      (latch &&& ~~~rowMaskFor p 8 ||| rowAddressBits p (rowMaskFor p 8) dr.val ||| pinBit p.lat) =
        BitVec.ofNat 5 dr.val := by
  obtain ⟨la, lb, lc, -⟩ := lat_ne h
  obtain ⟨ma, mb, mc, md, me⟩ := rowMaskFor_address h
  obtain ⟨ba, bb, bc⟩ := rowAddressBits_pins h dr.val
  generalize hlines : (latch &&& ~~~rowMaskFor p 8 ||| rowAddressBits p (rowMaskFor p 8) dr.val ||| pinBit p.lat) &&&
    rowMaskFor p 8 = lines
  have ha : lines.getLsbD p.a.val = dr.val.testBit 0 := by simp [← hlines, ma, ba, pinBit_bit, la]
  have hb : lines.getLsbD p.b.val = dr.val.testBit 1 := by simp [← hlines, mb, bb, pinBit_bit, lb]
  have hc : lines.getLsbD p.c.val = dr.val.testBit 2 := by simp [← hlines, mc, bc, pinBit_bit, lc]
  have hd : lines.getLsbD p.d.val = false := by simp [← hlines, md]
  have he : lines.getLsbD p.e.val = false := by simp [← hlines, me]
  rw [addressOnLines, hlines]
  show BitVec.ofBoolListLE [lines.getLsbD p.a.val, lines.getLsbD p.b.val, lines.getLsbD p.c.val, lines.getLsbD p.d.val,
    lines.getLsbD p.e.val] = _
  rw [ha, hb, hc, hd, he, ofBoolListLE_octal]

/-- The shift register after all 32 columns: column c has moved 31 - c places on (R201). -/
theorem foldl_shiftIn_columns (f : Fin 32 → SixLines) (v : Vector SixLines 32) (col : Fin 32) :
    ((List.finRange 32).foldl (fun v c => shiftIn v (f c)) v)[31 - col.val] = f col := by
  rw [foldl_shiftIn, dif_pos (by rw [List.length_finRange]; omega)]
  refine congrArg f (Fin.ext ?_)
  simp only [List.length_finRange, List.getElem_finRange, Fin.val_cast]
  omega

/-- Before OE falls, the panel has latched the double-row and its 32 columns (R201, R202, R204). -/
theorem rowPlaneShift_panel {dr pl : Fin 8} {s t : State} (hd : s.platform.pins.disjoint = true)
    (hr : s.rowMask = rowMaskFor s.platform.pins 8) (h : rowPlaneShift dr pl s = .ok t) :
    t.panel.latchedAddr = BitVec.ofNat 5 dr.val ∧
      ∀ col : Fin 32, t.panel.latched[31 - col.val] = columnLines s.frame dr pl col := by
  obtain ⟨s1, h1, h⟩ := bind_eq_ok.mp h
  obtain ⟨s2, h2, h⟩ := bind_eq_ok.mp h
  obtain ⟨s3, h3, h⟩ := bind_eq_ok.mp h
  obtain ⟨s4, h4, h5⟩ := bind_eq_ok.mp h
  obtain ⟨hg, a1, -⟩ := clearColourClock_inv h1
  obtain ⟨s2', h2', a2, -⟩ := shiftColumns_spec dr pl (List.finRange 32) (a1.gmap.trans hg)
  obtain rfl := Except.ok.inj (h2'.symm.trans h2)
  obtain ⟨-, a3, o3⟩ := clearColourClock_inv h3
  obtain ⟨-, a4, o4⟩ := writeMasked_inv h4
  have b2 : PinsAside s s2' := a1.trans a2
  have b3 : PinsAside s s3 := b2.trans a3
  have b4 : PinsAside s s4 := b3.trans a4
  rw [b2.platform] at o3
  rw [rowAddressBits_and, b3.platform, b3.rowMask, hr] at o4
  obtain ⟨kr, -⟩ := rowMaskFor_clk_lat hd
  have k3 : s3.outlatch.getLsbD s.platform.pins.clk.val = false := by simp [o3, (ccMask_bits _).1]
  have k4 : s4.outlatch.getLsbD s.platform.pins.clk.val = false := by simp [o4, k3, rowAddressBits_off kr]
  have p2 := shiftColumns_panel (List.finRange 32) (by rw [a1.platform]; exact hd) h2
  have p3 := clearColourClock_panel h3
  have p4 := putAddress_panel h4 (by rw [b3.platform]; exact k3) (by rw [b3.rowMask, b3.platform, hr]; exact kr)
  obtain ⟨-, -, -, -, -, -, kl, -⟩ := clk_ne hd
  have p5 := pulseLatch_panel h5 (by rw [b4.platform]; exact k4) (by rw [b4.platform]; exact kl)
  rw [p5]
  refine ⟨?_, fun col => ?_⟩
  · rw [b4.platform, b4.rowMask, hr, o4]
    exact addressOnLines_rowAddress hd dr s3.outlatch
  · simp only [p4, p3, p2, a1.frame]
    exact foldl_shiftIn_columns (columnLines s.frame dr pl) _ col

/-- Before OE falls, CLK and LAT are low (43_sequencer.md R181, R184). -/
theorem rowPlaneShift_clk_lat_low {dr pl : Fin 8} {s t : State} (hd : s.platform.pins.disjoint = true)
    (hr : s.rowMask = rowMaskFor s.platform.pins 8) (h : rowPlaneShift dr pl s = .ok t) (hg : s.gmap = .mapped) :
    t.outlatch.getLsbD s.platform.pins.clk.val = false ∧ t.outlatch.getLsbD s.platform.pins.lat.val = false := by
  obtain ⟨t', h', -, ho, -⟩ := rowPlaneShift_spec dr pl hg
  obtain rfl := Except.ok.inj (h'.symm.trans h)
  obtain ⟨kr, -⟩ := rowMaskFor_clk_lat hd
  rw [ho, hr]
  constructor
  · simp [(ccMask_bits _).1, rowAddressBits_off kr]
  · simp [pinBit_bit]

/-- While OE is high every row is dark (R203). -/
theorem lit_of_oe_high {v : State} (h : v.outlatch.getLsbD v.platform.pins.oe.val = true) (row : Fin 16) (i : Fin 32) :
    v.lit row i = (false, false, false) := by
  rw [State.lit, if_pos h]

/-- While OE is low and a row-plane is latched, its two rows are lit alone, each as its own pixels say (R203, R204). -/
theorem lit_of_latched {v : State} {frame : FrameGrid} {dr pl : Fin 8}
    (h : v.outlatch.getLsbD v.platform.pins.oe.val = false) (ha : v.panel.latchedAddr = BitVec.ofNat 5 dr.val)
    (hl : ∀ col : Fin 32, v.panel.latched[31 - col.val] = columnLines frame dr pl col) (row : Fin 16) (col : Fin 32) :
    v.lit row ⟨31 - col.val, by omega⟩ =
      if row.val = dr.val ∨ row.val = dr.val + 8 then
        (((frame[row])[col]).r.getLsbD pl.val, ((frame[row])[col]).g.getLsbD pl.val,
          ((frame[row])[col]).b.getLsbD pl.val)
      else (false, false, false) := by
  have haddr : v.panel.latchedAddr.toNat = dr.val := by
    rw [ha, BitVec.toNat_ofNat]; omega
  have hcol : v.panel.latched[(⟨31 - col.val, by omega⟩ : Fin 32)] = columnLines frame dr pl col := hl col
  rw [State.lit, if_neg (by simp [h]), haddr, hcol]
  by_cases htop : row.val = dr.val
  · rw [if_pos htop, if_pos (.inl htop)]
    simp [columnLines, topPixel, ← htop]
  · rw [if_neg htop]
    by_cases hbottom : row.val = dr.val + 8
    · rw [if_pos hbottom, if_pos (.inr hbottom)]
      simp [columnLines, bottomPixel, ← hbottom]
    · rw [if_neg hbottom, if_neg (not_or.mpr ⟨htop, hbottom⟩)]

/-- Settles O53. -/
theorem panelShowsTheRowPlane : Obligations.PanelShowsTheRowPlane := by
  intro dr pl s hd hr hg htm
  obtain ⟨t, ht, a, -⟩ := rowPlaneShift_spec dr pl hg
  obtain ⟨u, -, hu, -⟩ := dwellPlane_spec pl (a.gmap.trans hg) (a.tmap.trans htm)
  obtain ⟨haddr, hlatched⟩ := rowPlaneShift_panel hd hr ht
  obtain ⟨hclk, hlat⟩ := rowPlaneShift_clk_lat_low hd hr ht hg
  rw [← a.platform] at hclk hlat
  have hpanel : u.panel = t.panel := dwellPlane_panel hu (by rw [a.platform]; exact hd) hclk hlat
  refine ⟨t, u, ht, hu, by rw [rowPlane, ht, ok_bind, hu]; rfl, haddr, hlatched, hpanel, fun v hvp hv => ?_⟩
  rw [← hv] at haddr hlatched
  rw [← hvp]
  exact ⟨fun hoe => lit_of_latched hoe haddr hlatched, lit_of_oe_high⟩

end Sys2Proof.Machine
end

section
/-! SUPPORT. Fault entry and Faulted: what an operation that cannot open its window does (60_exceptions.md R241, R242,
R246), and that nothing happens after it (R247). -/

namespace Sys2Proof.Machine

/-! ### A window that cannot be opened (60_exceptions.md R241, R242) -/

/-- Fault entry with the release of each handle written out (60_exceptions.md R246). -/
theorem raise_eq (e : ErrCode) (s : State) : raise e s = { s with
    err := e, mode := .faulted
    gmap := if s.gmap = .mapped then .released else s.gmap
    tmap := if s.tmap = .mapped then .released else s.tmap } := by
  rw [raise, release_eq, release_eq]

theorem openWindow_unprivileged (w : Window) {s : State} (hp : s.platform.privileged = false) :
    openWindow w s = .error .privilegeError := by
  simp only [openWindow, hp, Bool.false_eq_true, if_false]

theorem openWindow_unmappable {w : Window} {s : State} (hp : s.platform.privileged = true) (hok : s.mapOk w = false) :
    openWindow w s = .error .mapError := by
  simp only [openWindow, hp, hok, if_true, Bool.false_eq_true, if_false]

/-- An accepted operation opens its window before it does anything else, so an error there is all of its effect. -/
theorem exec_openWindow_error {i : Instr} {w : Window} {s : State} {e : ErrCode}
    (hi : i = .mapopen w ∨ (∃ n, i = .init n ∧ w = .gpio) ∨ (i = .tinit ∧ w = .timer)) (ha : acceptedIn i s = true)
    (ho : openWindow w s = .error e) : exec i s = .next (raise e s) := by
  obtain rfl | ⟨n, rfl, rfl⟩ | ⟨rfl, rfl⟩ := hi
  · rw [execMapopen_eq, if_pos ha, ho]
  · rw [execInit_eq, if_pos ha, ho]
  · rw [execTinit_eq, if_pos ha, ho]

/-- Settles O54: without the privilege no window opens. -/
theorem withoutPrivilegeNothingIsTouched : Obligations.WithoutPrivilegeNothingIsTouched := by
  intro i s hi ha hp
  rw [← raise_eq]
  obtain ⟨w, rfl⟩ | ⟨n, rfl⟩ | rfl := hi
  · exact exec_openWindow_error (.inl rfl) ha (openWindow_unprivileged w hp)
  · exact exec_openWindow_error (.inr (.inl ⟨n, rfl, rfl⟩)) ha (openWindow_unprivileged .gpio hp)
  · exact exec_openWindow_error (.inr (.inr ⟨rfl, rfl⟩)) ha (openWindow_unprivileged .timer hp)

/-- Settles O55: with the privilege, the mapping call decides. -/
theorem failedMappingRaisesMapError : Obligations.FailedMappingRaisesMapError := by
  intro i w s hi ha hp hok
  rw [← raise_eq]
  exact exec_openWindow_error hi ha (openWindow_unmappable hp hok)

/-! ### Faulted (60_exceptions.md R247) -/

theorem exec_in_faulted (i : Instr) {s : State} (hm : s.mode = .faulted) : exec i s = .refused .wrongState :=
  exec_notAccepted (Bool.eq_false_iff.mpr fun ha => acceptedIn_not_faulted ha hm)

/-- In Faulted the controller is idle: it takes what the host hands in and runs nothing. -/
theorem StepCase.faulted {s t : State} (h : StepCase s t) (hm : s.mode = .faulted) :
    t = { s with inputs := t.inputs, src := t.src } := by
  cases h with
  | waits hp hr hi => rfl
  | source img rest hp hr hi hc => rfl
  | whole i r rest hp hr hi hd hf hk => rw [exec_in_faulted i (s := { s with inputs := rest }) hm] at hk; cases hk
  | begun i rest hp hr ha hb => exact absurd hm (acceptedIn_not_faulted ha)
  | scrollchk rest hp hr he hk => simp [hm] at hr
  | stop hp hr hq hk => simp [hm] at hr
  | sweep hp hr hq hk => simp [hm] at hr
  | scroll hp hr hk => simp [hm] at hr
  | load now hp hr hk => simp [hm] at hr
  | access task a rest more hp hf hu =>
    rw [hp, hm] at hf
    cases task <;> cases hf

/-- Settles O16: no row of the acceptance table admits Faulted, and the host's part of a step writes only the host's own
fields. -/
theorem faultedIsTerminal : Obligations.FaultedIsTerminal := by
  intro s hm
  refine ⟨fun i => exec_in_faulted i hm, fun t h => ?_⟩
  have hs := (step_cases h).faulted (by rw [State.hostTick_mode]; exact hm)
  rw [hs, hostTick_eq]

end Sys2Proof.Machine
end
